-- ==== Sys2Proof/Word.lean ====
section
/-! DEFINITION. The machine's word types (spec/00_scope.md R11). -/

namespace Sys2Proof

/-- A host register, a CMD word or a buffer memory address: 32 bits (R11). -/
abbrev Word := BitVec 32

/-- A byte of buffer memory, a pixel sample or a BusLine byte: 8 bits (R11). -/
abbrev Byte := BitVec 8

/-- A line level or a one-bit status field: 1 bit (R11). -/
abbrev Level := BitVec 1

end Sys2Proof
end

