-- ==== Sys2Proof/Syntax.lean ====
section
/-! DEFINITION. The operations of the block: one constructor per row of spec/opcode_table.json
(spec/30_encoding.md R302). An operation has no immediate fields (R301): its operands are the latched
registers (R304). -/

namespace Sys2Proof

inductive Instr where
  /-- ENCODE (R400). -/
  | encode
  /-- ASSEMBLE (R450). -/
  | assemble
  /-- RESET, the panel reset sequence (R500). -/
  | reset
  /-- SEND_COMMAND (R505). -/
  | sendCommand
  /-- SEND_DATA (R510). -/
  | sendData
  /-- WAIT_READY (R515). -/
  | waitReady
  /-- OPEN (R550). -/
  | openSession
  /-- INIT (R555). -/
  | init
  /-- CLEAR (R560). -/
  | clear
  /-- DISPLAY (R565). -/
  | display
  /-- SLEEP (R570). -/
  | sleep
  /-- CLOSE (R575). -/
  | close
deriving DecidableEq, Repr

/-- Every constructor of `Instr`, in the table's order. -/
def Instr.all : List Instr :=
  [.encode, .assemble, .reset, .sendCommand, .sendData, .waitReady,
   .openSession, .init, .clear, .display, .sleep, .close]

end Sys2Proof
end

