-- ==== Sys2Proof/WellFormed.lean ====
section
/-! DEFINITION. Well-formed instructions and well-formed CMD words.

An `Instr` has no operands, so every term of the type is well formed: there is nothing for a check on it to
refuse. The form that can be ill is the CMD word (spec/30_encoding.md R301, R303): two checks, one for the
bits that must be zero and one for the operation selector. -/

namespace Sys2Proof

/-- R301: an operation has no immediate fields, so no instruction is ill formed. -/
def Instr.wf : Instr → Bool
  | .encode | .assemble | .reset | .sendCommand | .sendData | .waitReady => true
  | .openSession | .init | .clear | .display | .sleep | .close => true

/-- R301: bits [31:4] of a CMD word must be zero. -/
def CmdWord.mbzClear (w : Word) : Bool :=
  w.extractLsb' 4 28 == 0#28

/-- R303: the OP values 0x0, 0x7, 0xE and 0xF are reserved. -/
def CmdWord.opMapped (w : Word) : Bool :=
  !([0x0#4, 0x7#4, 0xE#4, 0xF#4].contains (w.extractLsb' 0 4))

/-- A CMD word that selects an operation. -/
def CmdWord.wf (w : Word) : Bool :=
  CmdWord.mbzClear w && CmdWord.opMapped w

end Sys2Proof
end

