-- ==== Sys2Proof/Decode.lean ====
section
/-! DEFINITION. Decoding a CMD word, and the encoder (spec/30_encoding.md R300 to R303).

The word reaches the block as one 32-bit bus word, bit i of the bus being bit i of the word (R221), so no byte
order takes part. -/

namespace Sys2Proof

/-- Why a CMD word selects no operation (R303). -/
inductive DecodeError where
  /-- `w[31:4]` is not zero. -/
  | mustBeZero
  /-- OP is 0x0, 0x7, 0xE or 0xF. -/
  | reservedOp
deriving DecidableEq, Repr

/-- One row of the opcode map (R302): the decoder compares the bits of `mask`. -/
structure OpcodeRow where
  mask : Word
  pattern : Word
  instr : Instr
deriving DecidableEq, Repr

def OpcodeRow.hits (r : OpcodeRow) (w : Word) : Bool :=
  w &&& r.mask == r.pattern

/-- R302: "the decoder compares all 32 bits (mask 0xFFFFFFFF)". -/
def opcodeMap : List OpcodeRow :=
  [⟨0xFFFFFFFF, 0x00000001, .encode⟩,
   ⟨0xFFFFFFFF, 0x00000002, .assemble⟩,
   ⟨0xFFFFFFFF, 0x00000003, .reset⟩,
   ⟨0xFFFFFFFF, 0x00000004, .sendCommand⟩,
   ⟨0xFFFFFFFF, 0x00000005, .sendData⟩,
   ⟨0xFFFFFFFF, 0x00000006, .waitReady⟩,
   ⟨0xFFFFFFFF, 0x00000008, .openSession⟩,
   ⟨0xFFFFFFFF, 0x00000009, .init⟩,
   ⟨0xFFFFFFFF, 0x0000000A, .clear⟩,
   ⟨0xFFFFFFFF, 0x0000000B, .display⟩,
   ⟨0xFFFFFFFF, 0x0000000C, .sleep⟩,
   ⟨0xFFFFFFFF, 0x0000000D, .close⟩]

/-- The decoder, total on every word. -/
def decode (w : Word) : Except DecodeError Instr :=
  match opcodeMap.find? (fun r => r.hits w) with
  | some r => .ok r.instr
  | none => if CmdWord.mbzClear w then .error .reservedOp else .error .mustBeZero

/-- The encoder: the CMD word of an operation (R302). -/
def encode : Instr → Word
  | .encode => 0x00000001
  | .assemble => 0x00000002
  | .reset => 0x00000003
  | .sendCommand => 0x00000004
  | .sendData => 0x00000005
  | .waitReady => 0x00000006
  | .openSession => 0x00000008
  | .init => 0x00000009
  | .clear => 0x0000000A
  | .display => 0x0000000B
  | .sleep => 0x0000000C
  | .close => 0x0000000D

/-- The CMD word whose low `nbits` bits are those of `w` and whose other bits are zero. -/
def tableWord (nbits w : Nat) : Word :=
  BitVec.ofNat 32 (w % 2 ^ nbits)

/-- What the decoder reads from a row's bits (bit 0 the least significant bit of the CMD word). -/
def decodeTableWord (nbits w : Nat) : Option Instr :=
  match decode (tableWord nbits w) with
  | .ok i => some i
  | .error _ => none

end Sys2Proof
end

