-- ==== Sys2Proof/Config.lean ====
section
/-! DEFINITION. What an instance fixes (spec/00_scope.md R10) and the free values.

The OPEN parameters are the record `Params`, which `State` carries, so that every statement over all states
holds for every instance (log 6). The opaque constants below are the values the reset state carries: nothing
can evaluate them. -/

namespace Sys2Proof

/-- The output pins of the BusLine (spec/20_memory.md R200, R213). -/
inductive Pin where
  | rst
  | dc
  | cs
deriving DecidableEq, Repr, Inhabited

/-- The answer of a BusLine primitive (R210): `ok` with the level a `read` returns (a `set` and a `write`
ignore the level), or `fail`. How many bytes of a failed `write` the panel received all the same is `sent`: the block
never sees it, and a `set` and a `read` ignore it (spec/43_panel_transport.md R513, spec/93_implementation_defined.md
I11, log 19). -/
inductive BusAnswer where
  | ok (level : Level)
  | fail (sent : Nat)
deriving DecidableEq, Repr, Inhabited

/-- The OPEN parameters of R10, under the spec's names. -/
structure Params where
  /-- `BASE`: bus address of the register window (R220). -/
  base : Word
  /-- `MEM_SIZE`, 0 .. 2^32. -/
  memSize : Fin 4294967297
  /-- `PANEL_W`, 0 .. 2^31-1. -/
  panelW : Fin 2147483648
  /-- `PANEL_H`, 0 .. 2^31-1. -/
  panelH : Fin 2147483648
  /-- `THRESHOLD`, 0 .. 256. -/
  threshold : Fin 257
  /-- `BUSY_LEVEL` (R517). -/
  busyLevel : Level
  /-- `DC_CMD_LEVEL`. -/
  dcCmdLevel : Level
  /-- `CS_ACTIVE_LEVEL`. -/
  csActiveLevel : Level
  /-- `BATCH_WRITES` (R511, R512). -/
  batchWrites : Bool
  opcDtm1 : Byte
  opcDtm2 : Byte
  opcRefresh : Byte
  opcBooster : Byte
  opcPowerOn : Byte
  opcPowerOff : Byte
  opcPanelSetting : Byte
  opcDeepSleep : Byte
  payBooster : List Byte
  payPowerOn : List Byte
  payPanelSetting : List Byte
  payRefresh : List Byte
  payPowerOff : List Byte
  payDeepSleep : List Byte
  /-- `SAFE_LEVELS`: what CLOSE drives, in order (R575). -/
  safeLevels : List (Pin × Level)
  /-- `DEFAULT_POLL_MS`. -/
  defaultPollMs : Word
  /-- `DEFAULT_TIMEOUT_MS`. -/
  defaultTimeoutMs : Word
deriving DecidableEq, Repr

namespace Config

opaque base : Word
opaque memSize : Fin 4294967297
opaque panelW : Fin 2147483648
opaque panelH : Fin 2147483648
opaque threshold : Fin 257
opaque busyLevel : Level
opaque dcCmdLevel : Level
opaque csActiveLevel : Level
opaque batchWrites : Bool
opaque opcDtm1 : Byte
opaque opcDtm2 : Byte
opaque opcRefresh : Byte
opaque opcBooster : Byte
opaque opcPowerOn : Byte
opaque opcPowerOff : Byte
opaque opcPanelSetting : Byte
opaque opcDeepSleep : Byte
opaque payBooster : List Byte
opaque payPowerOn : List Byte
opaque payPanelSetting : List Byte
opaque payRefresh : List Byte
opaque payPowerOff : List Byte
opaque payDeepSleep : List Byte
opaque safeLevels : List (Pin × Level)
opaque defaultPollMs : Word
opaque defaultTimeoutMs : Word

/-- FREE VALUE (log 7): the n-th BusLine answer after the listed answers of the state have run out (R211). -/
opaque freeAnswer : Nat → BusAnswer

/-- FREE VALUE (log 8, log 9): what a byte of buffer memory holds, by its address, after the n-th block reset and before
anything has written it (R205, spec/93_implementation_defined.md I9); `powerOnByte 0` is power-on. -/
opaque powerOnByte : Nat → Nat → Byte

/-- The instance the reset state carries: every OPEN parameter at its opaque constant. -/
def params : Params where
  base := base
  memSize := memSize
  panelW := panelW
  panelH := panelH
  threshold := threshold
  busyLevel := busyLevel
  dcCmdLevel := dcCmdLevel
  csActiveLevel := csActiveLevel
  batchWrites := batchWrites
  opcDtm1 := opcDtm1
  opcDtm2 := opcDtm2
  opcRefresh := opcRefresh
  opcBooster := opcBooster
  opcPowerOn := opcPowerOn
  opcPowerOff := opcPowerOff
  opcPanelSetting := opcPanelSetting
  opcDeepSleep := opcDeepSleep
  payBooster := payBooster
  payPowerOn := payPowerOn
  payPanelSetting := payPanelSetting
  payRefresh := payRefresh
  payPowerOff := payPowerOff
  payDeepSleep := payDeepSleep
  safeLevels := safeLevels
  defaultPollMs := defaultPollMs
  defaultTimeoutMs := defaultTimeoutMs

end Config

end Sys2Proof
end

