-- ==== Sys2Proof/Machine/State.lean ====
section
/-! DEFINITION. The machine's state as plain data (spec/10_state.md), the reasons a step can stop, and the state
after reset (R140). -/

namespace Sys2Proof.Machine

/-- Session phase (R120). -/
inductive Phase where
  | unopened
  | reset
  | initialized
  | clearing
  | displaying
  | sleeping
  | closed
  | failed
deriving DecidableEq, Repr

/-- Result codes of STATUS.ERR (spec/60_exceptions.md R600). -/
inductive ErrCode where
  | ok
  | dimensionMismatch
  | inconsistentPixelCount
  | busyTimeout
  | busBusy
  | initFailure
  | transportIoError
  | invalidState
  | invalidArgument
  | addressError
  | illegalOp
deriving DecidableEq, Repr

/-- The seventeen registers of the host window, by name (R101). -/
inductive RegName where
  | cmd
  | status
  | src
  | src2
  | dst
  | len
  | len2
  | imgW
  | imgH
  | tgtW
  | tgtH
  | bpp
  | opByte
  | pollMs
  | timeoutMs
  | ctrl
  | outLen
deriving DecidableEq, Repr

/-- The fourteen RW registers (R101); also the shape of the latch (R130). OPBYTE stores only [7:0] and CTRL
only [0], the others being reserved bits that read 0 (R104, log 14). -/
structure Regs where
  src : Word
  src2 : Word
  dst : Word
  len : Word
  len2 : Word
  imgW : Word
  imgH : Word
  tgtW : Word
  tgtH : Word
  bpp : Word
  opByte : Byte
  pollMs : Word
  timeoutMs : Word
  timeoutEn : Level
deriving DecidableEq, Repr

/-- The RW registers after a block reset (R140). -/
def Regs.reset (p : Params) : Regs where
  src := 0
  src2 := 0
  dst := 0
  len := 0
  len2 := 0
  imgW := 0
  imgH := 0
  tgtW := 0
  tgtH := 0
  bpp := 0
  opByte := 0
  pollMs := p.defaultPollMs
  timeoutMs := p.defaultTimeoutMs
  timeoutEn := 1

/-- One event of the BusLine port with its answer (spec/20_memory.md R210, R212). -/
inductive BusEvent where
  | set (pin : Pin) (level : Level) (ok : Bool)
  /-- A poll of BUSY: the level it read, or `none` for `fail`. -/
  | read (answer : Option Level)
  /-- A transfer; `sent` is how many of its bytes, from the first on, the panel received: all of them, but for a failed
  transfer (R513, log 19). -/
  | write (bytes : List Byte) (ok : Bool) (sent : Nat := bytes.length)
  | sleep (ms : Nat)
deriving DecidableEq, Repr

/-- The operands and the progress of a wait_ready (spec/43_panel_transport.md R516, R518). -/
structure Wait where
  poll : Nat
  timeout : Option Nat
  elapsed : Nat
deriving DecidableEq, Repr

/-- One transition of a running operation's sequence (R131). -/
inductive Act where
  /-- `Bus.set`; a `fail` ends the operation. -/
  | set (pin : Pin) (level : Level)
  /-- `Bus.set` whose answer is ignored (CLOSE, R575). -/
  | drive (pin : Pin) (level : Level)
  /-- `Bus.write`; a `fail` ends the operation. -/
  | write (bytes : List Byte)
  /-- `Bus.sleep`. -/
  | sleep (ms : Nat)
  /-- The head of wait_ready's loop: `Bus.read`, then the tests (R516). -/
  | poll (w : Wait)
  /-- The tail of wait_ready's loop: `Bus.sleep`, then the count (R516). -/
  | pause (w : Wait)
  /-- A PHASE write inside the sequence (R552). -/
  | enter (phase : Phase)
  /-- One byte of `MemWrite` (R203). -/
  | store (addr : Nat) (byte : Byte)
deriving DecidableEq, Repr

/-- What a finishing transition writes (R111); `none` leaves the field as it is. -/
structure Finish where
  err : ErrCode
  phase : Option Phase := none
  own : Option Bool := none
  orient : Option Level := none
  outLen : Option Word := none
  /-- The operation's last memory write, performed in the same transition. -/
  store : Option (Nat × Byte) := none
deriving DecidableEq, Repr

/-- A running operation: STATUS.RUN is 1 while there is one. -/
structure Running where
  op : Instr
  /-- The copy of the RW registers made at the start (R130). -/
  latch : Regs
  /-- The transitions still to come, the finishing one left out. -/
  todo : List Act
  /-- The finishing transition. -/
  fin : Finish
deriving DecidableEq, Repr

/-- How a window access names its register: by the offset from BASE, as spec/30_encoding.md R340 writes it, or
by its bus address (R220). -/
inductive Loc where
  | offset (n : Nat)
  | address (a : Word)
deriving DecidableEq, Repr

/-- A host access to the register window (`size` in bytes) or to one byte of buffer memory (log 12). -/
inductive Access where
  | regRead (loc : Loc) (size : Nat)
  | regWrite (loc : Loc) (size : Nat) (value : Word)
  | memRead (addr : Word)
  | memWrite (addr : Word) (byte : Byte)
deriving DecidableEq, Repr

/-- What moves next: the host, the block, or the block reset (log 10). -/
inductive Input where
  | host (a : Access)
  | tick
  | blockReset
deriving DecidableEq, Repr

/-- What the block returned on a host read (log 11). -/
inductive Reply where
  | reg (r : RegName) (value : Word)
  | mem (addr : Word) (byte : Byte)
deriving DecidableEq, Repr

/-- Why the machine stops with a fault. -/
inductive Fault where
  /-- Raised by a host access to buffer memory at an address that is not below MEM_SIZE: no such byte exists
  (R201). Safe: the machine stops where the spec gives no effect. -/
  | noSuchByte (addr : Word)
deriving DecidableEq, Repr

/-- Why a step has no meaning. -/
inductive Refusal where
  /-- Raised by an arm of `exec` whose instruction has no meaning yet; no arm does. Safe. -/
  | notModelled (mnemonic : String)
  /-- Raised by a host register write while STATUS.RUN = 1 (R110, R710). Safe: the spec says a model refuses it. -/
  | registerWriteWhileRunning (r : RegName)
  /-- Raised by a host access to a running operation's ranges (R231, R711). Safe: the spec says a model refuses it. -/
  | bufferInUse (addr : Word)
  /-- Raised by a window access that is not 4 bytes wide (R221). Safe: the spec says a model refuses it. -/
  | notAWholeWord (size : Nat)
  /-- Raised by a window access at an offset that is no multiple of 4 (R221). Safe: the spec says a model refuses it. -/
  | misaligned (offset : Nat)
  /-- Raised by a window access at an offset above 0x40 (R221). Safe: the spec says a model refuses it. -/
  | unmapped (offset : Nat)
  /-- Raised by a bus address below BASE (R220). Safe: the rest of the host's address map is not this block's. -/
  | outsideWindow (addr : Word)
deriving DecidableEq, Repr

/-- Buffer memory: the listed bytes, in the canonical form `Memory.wf` of Machine/Ops.lean. -/
abbrev Memory := List Host.Cell

/-- What the bytes that nothing has written hold (R205, log 8, log 9). -/
structure Fill where
  /-- The model's own handle: `none`, every such byte is a draw of its own; `some b`, every such byte reads `b`. -/
  known : Option Byte
  /-- How many block resets the draws have been renewed by. -/
  epoch : Nat
deriving DecidableEq, Repr

structure State where
  /-- The instance's parameters: no step changes them (R10, log 6). -/
  cfg : Params
  /-- The RW registers of the window (R101). -/
  regs : Regs
  /-- OUT_LEN (R103). -/
  outLen : Word
  /-- STATUS.ERR (R102). -/
  err : ErrCode
  /-- STATUS.PHASE (R120). -/
  phase : Phase
  /-- STATUS.OWN (R121). -/
  own : Bool
  /-- STATUS.ORIENT (R102). -/
  orient : Level
  /-- STATUS.RUN, the latch and the sequencer (R102, R130, R131). -/
  op : Option Running
  /-- Buffer memory (R201). -/
  mem : Memory
  /-- What its unwritten bytes hold (R205). -/
  fill : Fill
  /-- The BusLine events so far, oldest first (R212, log 11). -/
  trace : List BusEvent
  /-- The BusLine's answers still to come (R211, log 7). -/
  answers : List BusAnswer
  /-- How many answers came from `Config.freeAnswer` (log 7). -/
  draws : Nat
  /-- What the host does next (log 10). -/
  inputs : List Input
  /-- The values returned on host reads, oldest first (log 11). -/
  replies : List Reply
deriving DecidableEq, Repr

/-- The block right after reset (R140, R700), as the instance `p`. -/
def State.resetOf (p : Params) : State where
  cfg := p
  regs := Regs.reset p
  outLen := 0
  err := .ok
  phase := .closed
  own := false
  orient := 0
  op := none
  mem := []
  fill := { known := none, epoch := 0 }
  trace := []
  answers := []
  draws := 0
  inputs := []
  replies := []

/-- The machine right after reset (R140), every OPEN parameter at its opaque constant. -/
def State.reset : State :=
  State.resetOf Config.params

end Sys2Proof.Machine
end

