-- ==== Sys2Proof/Machine/Literals.lean ====
section
/-! DEFINITION. The literals the spec fixes (spec/93_implementation_defined.md I30 to I36), each a named
constant so that a later correction changes one definition. -/

namespace Sys2Proof.Machine

/-- `RST_HIGH` (R10). -/
def rstHigh : Level := 1
/-- `RST_LOW` (R10). -/
def rstLow : Level := 0
/-- `T_RST_HI1`, ms (I30). -/
def tRstHi1 : Nat := 200
/-- `T_RST_LO`, ms (I30). -/
def tRstLo : Nat := 10
/-- `T_RST_HI2`, ms (I30). -/
def tRstHi2 : Nat := 200
/-- `HEADER_SIZE` (I31). -/
def headerSize : Nat := 70
/-- The info header's size field (I31). -/
def infoHeaderSize : Nat := 40
/-- `SIGNATURE` (I12). -/
def signature : List Byte := [0x42, 0x4D]
/-- `PALETTE`, 24-bit colours in code order (I32). -/
def palette : List (BitVec 24) := [0x000000, 0x555555, 0xAAAAAA, 0xFFFFFF]
/-- The planes field (I33). -/
def planes : Nat := 1
/-- Start value of a FrameBuffer byte: all white (I34). -/
def whiteByte : Byte := 0xFF
/-- Fill byte of a clear plane (I36). -/
def clearByte : Byte := 0xFF
/-- The largest value of the 32-bit size field (R455). -/
def maxTotal : Nat := 4294967295

end Sys2Proof.Machine
end

