-- ==== Sys2Proof/Machine/Flags.lean ====
section
/-! DEFINITION. The STATUS word and its fields (spec/10_state.md R102, R120; spec/60_exceptions.md R600). -/

namespace Sys2Proof.Machine

/-- The value of a phase in STATUS[10:8] (R120). -/
def Phase.code : Phase → BitVec 3
  | .unopened => 0
  | .reset => 1
  | .initialized => 2
  | .clearing => 3
  | .displaying => 4
  | .sleeping => 5
  | .closed => 6
  | .failed => 7

/-- The value of a result code in STATUS[7:4] (R600). -/
def ErrCode.code : ErrCode → BitVec 4
  | .ok => 0
  | .dimensionMismatch => 1
  | .inconsistentPixelCount => 2
  | .busyTimeout => 3
  | .busBusy => 4
  | .initFailure => 5
  | .transportIoError => 6
  | .invalidState => 7
  | .invalidArgument => 8
  | .addressError => 9
  | .illegalOp => 10

/-- The phases a session operation holds only while it runs (R120). -/
def Phase.transient : Phase → Bool
  | .clearing | .displaying | .sleeping => true
  | .unopened | .reset | .initialized | .closed | .failed => false

/-- STATUS.RUN: 1 while an operation runs (R102). -/
def State.running (s : State) : Bool :=
  s.op.isSome

/-- STATUS: RUN [0], ERR [7:4], PHASE [10:8], OWN [11], ORIENT [12], the other bits 0 (R102). -/
def State.status (s : State) : Word :=
  0#19 ++ s.orient ++ BitVec.ofBool s.own ++ s.phase.code ++ s.err.code ++ 0#3 ++ BitVec.ofBool s.running

/-- The code a failed BusLine primitive gives the operation it ends: INIT_FAILURE inside INIT, else
TRANSPORT_IO_ERROR (R521, R553). -/
def ioFailCode : Instr → ErrCode
  | .init => .initFailure
  | .encode | .assemble | .reset | .sendCommand | .sendData | .waitReady => .transportIoError
  | .openSession | .clear | .display | .sleep | .close => .transportIoError

end Sys2Proof.Machine
end

