-- ==== Sys2Proof/Machine/Ops.lean ====
section
/-! DEFINITION. The shared operations: exact arithmetic and byte lists (spec/00_scope.md R14, R17), buffer memory
(spec/20_memory.md R202 to R205), the BusLine primitives (R210, R211), and ending an operation (spec/10_state.md
R111). -/

namespace Sys2Proof.Machine

/-- The outcome of a step. -/
abbrev Out := Host.Outcome State Fault Refusal

/-! ### Arithmetic and byte lists -/

/-- `ceil_div(a, b)` for `b > 0` (R14). -/
def ceilDiv (a b : Nat) : Nat :=
  (a + b - 1) / b

/-- `le32(v)`: four bytes, the least significant first (R14). -/
def le32 (n : Nat) : List Byte :=
  [BitVec.ofNat 8 n, BitVec.ofNat 8 (n / 256), BitVec.ofNat 8 (n / 65536), BitVec.ofNat 8 (n / 16777216)]

/-- `le16(v)`: two bytes, the least significant first (R14). -/
def le16 (n : Nat) : List Byte :=
  [BitVec.ofNat 8 n, BitVec.ofNat 8 (n / 256)]

/-- The byte of eight bits, the first of them bit 7 (R450). -/
def byteMsbFirst (a b c d e f g h : Bool) : Byte :=
  BitVec.ofBool a ++ BitVec.ofBool b ++ BitVec.ofBool c ++ BitVec.ofBool d ++
    (BitVec.ofBool e ++ BitVec.ofBool f ++ BitVec.ofBool g ++ BitVec.ofBool h)

/-- `bytes_msb_first`: the bits eight at a time (R450). -/
def bytesMsbFirst : List Bool → List Byte
  | a :: b :: c :: d :: e :: f :: g :: h :: rest => byteMsbFirst a b c d e f g h :: bytesMsbFirst rest
  | _ => []

/-! ### Buffer memory -/

/-- What a byte that nothing has written reads as (R205, log 8). -/
def powerOn (fill : Fill) (a : Nat) : Byte :=
  fill.known.getD (Config.powerOnByte fill.epoch a)

/-- The listed byte at `a`. -/
def Memory.find : Memory → Nat → Option Byte
  | [], _ => none
  | (k, v) :: m, a => if k = a then some v else Memory.find m a

/-- One byte read. -/
def Memory.read (fill : Fill) (m : Memory) (a : Nat) : Byte :=
  (Memory.find m a).getD (powerOn fill a)

/-- List the byte `b` at `a`, in the place its address gives it. -/
def Memory.put : Memory → Nat → Byte → Memory
  | [], a, b => [(a, b)]
  | (k, v) :: m, a, b =>
    if a < k then (a, b) :: (k, v) :: m
    else if a = k then (a, b) :: m
    else (k, v) :: Memory.put m a b

/-- List nothing at `a`. -/
def Memory.drop : Memory → Nat → Memory
  | [], _ => []
  | (k, v) :: m, a => if k = a then m else (k, v) :: Memory.drop m a

/-- One byte write: a byte equal to what an unlisted address reads as is not listed. -/
def Memory.write (fill : Fill) (m : Memory) (a : Nat) (b : Byte) : Memory :=
  if b = powerOn fill a then Memory.drop m a else Memory.put m a b

/-- The memory that lists the bytes `byte a` at the addresses `a`, and nothing else. -/
def Memory.listed (fill : Fill) (byte : Nat → Byte) (addrs : List Nat) : Memory :=
  addrs.foldl (fun m a => Memory.write fill m a (byte a)) []

/-- Addresses strictly rising. -/
def Memory.sorted : Memory → Bool
  | [] => true
  | [_] => true
  | (k, _) :: (k', v') :: m => decide (k < k') && Memory.sorted ((k', v') :: m)

/-- The canonical form: addresses strictly rising, and no byte listed that an unlisted address would read as. -/
def Memory.wf (fill : Fill) (m : Memory) : Bool :=
  Memory.sorted m && m.all (fun c => decide (c.2 ≠ powerOn fill c.1))

/-- `MemRead(a, n)` (R203). -/
def Memory.readList (fill : Fill) (m : Memory) (a n : Nat) : List Byte :=
  (List.range n).map (fun i => Memory.read fill m (a + i))

/-- One byte of buffer memory. -/
def State.byteAt (s : State) (a : Nat) : Byte :=
  Memory.read s.fill s.mem a

/-- `MemRead` on the state. -/
def State.bytesAt (s : State) (a n : Nat) : List Byte :=
  Memory.readList s.fill s.mem a n

/-- One byte of buffer memory written. -/
def State.setByte (s : State) (a : Nat) (b : Byte) : State :=
  { s with mem := Memory.write s.fill s.mem a b }

/-- A range is valid if it is empty or ends within buffer memory, computed exactly (R202). -/
def validRange (memSize : Nat) (r : Nat × Nat) : Bool :=
  decide (r.2 = 0) || decide (r.1 + r.2 ≤ memSize)

/-- Two ranges overlap (R204). -/
def overlaps (r q : Nat × Nat) : Bool :=
  decide (0 < r.2) && decide (0 < q.2) && decide (r.1 < q.1 + q.2) && decide (q.1 < r.1 + r.2)

/-- An address lies in a range. -/
def inRange (a : Nat) (r : Nat × Nat) : Bool :=
  decide (r.1 ≤ a) && decide (a < r.1 + r.2)

/-! ### BusLine primitives -/

/-- Whether a primitive answered `ok`. -/
def answerOk : BusAnswer → Bool
  | .ok _ => true
  | .fail _ => false

/-- How many bytes of a `write` the panel received: all of them on `ok`, any number on `fail` (R513, log 19). -/
def bytesSent (bytes : List Byte) : BusAnswer → Nat
  | .ok _ => bytes.length
  | .fail sent => min sent bytes.length

/-- The level a `read` returned, `none` for `fail`. -/
def answerLevel : BusAnswer → Option Level
  | .ok l => some l
  | .fail _ => none

/-- The next answer of the BusLine: the head of the listed answers, and a free value once they have run out
(R211, log 7). -/
def State.nextAnswer (s : State) : BusAnswer :=
  match s.answers with
  | a :: _ => a
  | [] => Config.freeAnswer s.draws

/-- The state once that answer has been given. -/
def State.afterAnswer (s : State) : State :=
  match s.answers with
  | _ :: rest => { s with answers := rest }
  | [] => { s with draws := s.draws + 1 }

/-- One more event on the port (R212). -/
def State.emit (s : State) (e : BusEvent) : State :=
  { s with trace := s.trace ++ [e] }

/-- `Bus.set` (R210). -/
def State.busSet (s : State) (pin : Pin) (level : Level) : State :=
  s.afterAnswer.emit (.set pin level (answerOk s.nextAnswer))

/-- `Bus.write` (R210). -/
def State.busWrite (s : State) (bytes : List Byte) : State :=
  s.afterAnswer.emit (.write bytes (answerOk s.nextAnswer) (bytesSent bytes s.nextAnswer))

/-- `Bus.read(BUSY)` (R210). -/
def State.busRead (s : State) : State :=
  s.afterAnswer.emit (.read (answerLevel s.nextAnswer))

/-- `Bus.sleep` (R210): it asks for no answer. -/
def State.busSleep (s : State) (ms : Nat) : State :=
  s.emit (.sleep ms)

/-! ### Ending an operation -/

/-- The finishing transition: ERR, the updates that go with it, the last memory write, and RUN <- 0, as one
transition (R111). -/
def State.finish (s : State) (f : Finish) : State :=
  { s with
    err := f.err
    phase := f.phase.getD s.phase
    own := f.own.getD s.own
    orient := f.orient.getD s.orient
    outLen := f.outLen.getD s.outLen
    mem := match f.store with
      | some (a, b) => Memory.write s.fill s.mem a b
      | none => s.mem
    op := none }

/-- `raise E`: the operation ends at once with the code, and nothing else changes (R14, R601, R615). -/
def raise (e : ErrCode) (s : State) : Out :=
  .next (s.finish { err := e })

/-- An accepted operation starts: RUN <- 1, the latch is taken, and its sequence is set (R110, R130). -/
def launch (i : Instr) (acts : List Act) (fin : Finish) (s : State) : Out :=
  .next { s with op := some { op := i, latch := s.regs, todo := acts, fin := fin } }

/-- `MemWrite(a, n, v)` followed by `finish`: one transition a byte, in ascending order, the last byte in the
finishing transition (R111, R203, log 5). -/
def storeActs : Nat → List Byte → List Act
  | a, b :: c :: bs => .store a b :: storeActs (a + 1) (c :: bs)
  | _, _ => []

/-- The last byte of a `MemWrite`, with its address. -/
def lastStore : Nat → List Byte → Option (Nat × Byte)
  | _, [] => none
  | a, [b] => some (a, b)
  | a, _ :: c :: bs => lastStore (a + 1) (c :: bs)

end Sys2Proof.Machine
end

