-- ==== Sys2Proof/Machine/Operands.lean ====
section
/-! DEFINITION. The operands of the operations: exact naturals from the latched registers (spec/30_encoding.md
R304), the memory ranges they name, the session's sizes, and the register window's map (spec/10_state.md R101,
R104). -/

namespace Sys2Proof.Machine

/-! ### Memory ranges (start, length) -/

/-- `(SRC, LEN)`. -/
def Regs.srcRange (r : Regs) : Nat × Nat :=
  (r.src.toNat, r.len.toNat)

/-- `(SRC2, LEN2)`. -/
def Regs.src2Range (r : Regs) : Nat × Nat :=
  (r.src2.toNat, r.len2.toNat)

/-- ENCODE's input length `n_in` (R404). -/
def Regs.gridSize (r : Regs) : Nat :=
  r.imgW.toNat * r.imgH.toNat

/-- ENCODE's output length `n_out` (R404). -/
def Regs.frameSize (r : Regs) : Nat :=
  ceilDiv (r.tgtW.toNat * r.tgtH.toNat) 8

/-- ENCODE's source range. -/
def Regs.gridRange (r : Regs) : Nat × Nat :=
  (r.src.toNat, r.gridSize)

/-- ENCODE's destination range. -/
def Regs.frameRange (r : Regs) : Nat × Nat :=
  (r.dst.toNat, r.frameSize)

/-- `R`, the padded row length of a container in bytes (R318, R455). -/
def rowBytes (imgW bpp : Nat) : Nat :=
  4 * ceilDiv (imgW * bpp) 32

/-- `total`, the length of a container (R455). -/
def Regs.containerSize (r : Regs) : Nat :=
  headerSize + rowBytes r.imgW.toNat r.bpp.toNat * r.imgH.toNat

/-- ASSEMBLE's destination range. -/
def Regs.containerRange (r : Regs) : Nat × Nat :=
  (r.dst.toNat, r.containerSize)

/-- The ranges a running operation reads (R231). -/
def sourceRanges (i : Instr) (r : Regs) : List (Nat × Nat) :=
  match i with
  | .encode => [r.gridRange]
  | .assemble | .sendData => [r.srcRange]
  | .display => [r.srcRange, r.src2Range]
  | .reset | .sendCommand | .waitReady | .openSession | .init | .clear | .sleep | .close => []

/-- The ranges a running operation writes (R231). -/
def destRanges (i : Instr) (r : Regs) : List (Nat × Nat) :=
  match i with
  | .encode => [r.frameRange]
  | .assemble => [r.containerRange]
  | .sendData | .display => []
  | .reset | .sendCommand | .waitReady | .openSession | .init | .clear | .sleep | .close => []

/-! ### Instance values -/

/-- `DC_DATA_LEVEL = 1 - DC_CMD_LEVEL` (R10). -/
def dcDataLevel (p : Params) : Level :=
  1 - p.dcCmdLevel

/-- `CS_IDLE_LEVEL = 1 - CS_ACTIVE_LEVEL` (R10). -/
def csIdleLevel (p : Params) : Level :=
  1 - p.csActiveLevel

/-- `size`, the FrameBuffer length of the panel (R551). -/
def planeSize (p : Params) : Nat :=
  ceilDiv (p.panelW.val * p.panelH.val) 8

/-- `INIT_FRAMES` (R556). -/
def initFrames (p : Params) : List (Byte × List Byte) :=
  [(p.opcBooster, p.payBooster), (p.opcPowerOn, p.payPowerOn), (p.opcPanelSetting, p.payPanelSetting)]

/-- The operands of every wait_ready: `poll = POLL_MS`, `tmo = TIMEOUT_MS` if TIMEOUT_EN, else `None`; `elapsed`
starts at 0 (R516, R518). -/
def Regs.wait (r : Regs) : Wait where
  poll := r.pollMs.toNat
  timeout := if r.timeoutEn = 1 then some r.timeoutMs.toNat else none
  elapsed := 0

/-! ### The register window -/

def RegName.all : List RegName :=
  [.cmd, .status, .src, .src2, .dst, .len, .len2, .imgW, .imgH, .tgtW, .tgtH, .bpp, .opByte, .pollMs,
   .timeoutMs, .ctrl, .outLen]

/-- Offsets from BASE (R101). -/
def RegName.offset : RegName → Nat
  | .cmd => 0x00
  | .status => 0x04
  | .src => 0x08
  | .src2 => 0x0C
  | .dst => 0x10
  | .len => 0x14
  | .len2 => 0x18
  | .imgW => 0x1C
  | .imgH => 0x20
  | .tgtW => 0x24
  | .tgtH => 0x28
  | .bpp => 0x2C
  | .opByte => 0x30
  | .pollMs => 0x34
  | .timeoutMs => 0x38
  | .ctrl => 0x3C
  | .outLen => 0x40

def RegName.ofOffset (n : Nat) : Option RegName :=
  RegName.all.find? (fun r => r.offset == n)

/-- What a host read of a register returns: CMD reads 0, reserved bits read 0 (R101, R104). -/
def State.readReg (s : State) : RegName → Word
  | .cmd => 0
  | .status => s.status
  | .src => s.regs.src
  | .src2 => s.regs.src2
  | .dst => s.regs.dst
  | .len => s.regs.len
  | .len2 => s.regs.len2
  | .imgW => s.regs.imgW
  | .imgH => s.regs.imgH
  | .tgtW => s.regs.tgtW
  | .tgtH => s.regs.tgtH
  | .bpp => s.regs.bpp
  | .opByte => s.regs.opByte.setWidth 32
  | .pollMs => s.regs.pollMs
  | .timeoutMs => s.regs.timeoutMs
  | .ctrl => s.regs.timeoutEn.setWidth 32
  | .outLen => s.outLen

/-- What a host write stores: an RW register takes the value less its reserved bits; STATUS and OUT_LEN ignore the
write, and CMD stores nothing (R101, R104, R222). -/
def Regs.write (r : Regs) (n : RegName) (v : Word) : Regs :=
  match n with
  | .cmd | .status | .outLen => r
  | .src => { r with src := v }
  | .src2 => { r with src2 := v }
  | .dst => { r with dst := v }
  | .len => { r with len := v }
  | .len2 => { r with len2 := v }
  | .imgW => { r with imgW := v }
  | .imgH => { r with imgH := v }
  | .tgtW => { r with tgtW := v }
  | .tgtH => { r with tgtH := v }
  | .bpp => { r with bpp := v }
  | .opByte => { r with opByte := v.setWidth 8 }
  | .pollMs => { r with pollMs := v }
  | .timeoutMs => { r with timeoutMs := v }
  | .ctrl => { r with timeoutEn := v.setWidth 1 }

end Sys2Proof.Machine
end

