-- ==== Sys2Proof/Machine/Container.lean ====
section
/-! DEFINITION. BitmapContainerAssembler: ASSEMBLE (spec/42_bitmap_container.md), with the container's format
(spec/30_encoding.md R315 to R319). -/

namespace Sys2Proof.Machine

/-- The legal bit depths (R452). -/
def legalBpp (bpp : Word) : Bool :=
  [1#32, 2#32, 4#32].contains bpp

/-- `ncodes(BPP)`: 2 at one bit per pixel, else 4 (R450, R454). -/
def ncodes (bpp : Nat) : Nat :=
  if bpp = 1 then 2 else 4

/-- The palette's bytes, blue, green, red, 0 for each colour (R317). -/
def paletteBytes : List Byte :=
  palette.flatMap (fun c => [c.extractLsb' 0 8, c.extractLsb' 8 8, c.extractLsb' 16 8, 0x00])

/-- The file header, the info header and the palette (R316, R317, R456). -/
def containerHeader (total imgW imgH bpp : Nat) : List Byte :=
  -- file header, offsets 0 to 13
  signature ++ le32 total ++ le16 0 ++ le16 0 ++ le32 headerSize ++
  -- info header, offsets 14 to 53
  le32 infoHeaderSize ++ le32 imgW ++ le32 imgH ++ le16 planes ++ le16 bpp ++
  le32 0 ++ le32 0 ++ le32 0 ++ le32 0 ++ le32 palette.length ++ le32 0 ++
  -- palette, offsets 54 to 69
  paletteBytes

/-- A code as `bpp` bits, most significant first (R318). -/
def codeBits (bpp : Nat) (code : Byte) : List Bool :=
  (List.range bpp).map (fun i => code.getLsbD (bpp - 1 - i))

/-- One stored row: the row's codes, then pad bits of value 1 up to `R` bytes (R318, R457). -/
def storedRow (imgW bpp : Nat) (codes : List Byte) : List Byte :=
  bytesMsbFirst (codes.flatMap (codeBits bpp) ++ List.replicate (8 * rowBytes imgW bpp - imgW * bpp) true)

/-- The pixel data: stored row `j` holds image row `IMG_H - 1 - j` (R319, R458). -/
def pixelData (imgW imgH bpp : Nat) (codes : List Byte) : List Byte :=
  (List.range imgH).flatMap (fun j => storedRow imgW bpp ((codes.drop ((imgH - 1 - j) * imgW)).take imgW))

/-- The container ASSEMBLE writes from state `s` (R315). -/
def container (s : State) : List Byte :=
  let r := s.regs
  containerHeader r.containerSize r.imgW.toNat r.imgH.toNat r.bpp.toNat ++
    pixelData r.imgW.toNat r.imgH.toNat r.bpp.toNat (s.bytesAt r.src.toNat r.len.toNat)

/-- ASSEMBLE (R450): the checks in their order, then the container. The codes are read at the start (log 4). -/
def execAssemble (s : State) : Out :=
  let r := s.regs
  if !legalBpp r.bpp then raise .invalidArgument s
  else if r.len.toNat ≠ r.imgW.toNat * r.imgH.toNat then raise .inconsistentPixelCount s
  else if maxTotal < r.containerSize then raise .invalidArgument s
  else if !(validRange s.cfg.memSize.val r.srcRange && validRange s.cfg.memSize.val r.containerRange) then
    raise .addressError s
  else if overlaps r.srcRange r.containerRange then raise .addressError s
  else if (s.bytesAt r.src.toNat r.len.toNat).any (fun c => decide (ncodes r.bpp.toNat ≤ c.toNat)) then
    raise .invalidArgument s
  else
    launch .assemble (storeActs r.dst.toNat (container s))
      { err := .ok
        outLen := some (BitVec.ofNat 32 r.containerSize)
        store := lastStore r.dst.toNat (container s) } s

end Sys2Proof.Machine
end

