-- ==== Sys2Proof/Machine/Encoder.lean ====
section
/-! DEFINITION. PixelBufferEncoder: ENCODE (spec/41_pixel_buffer_encoder.md). -/

namespace Sys2Proof.Machine

/-- The orientation test: direct first (0, landscape), then transposed (1, portrait), else none (R402). -/
def orientation (r : Regs) : Option Level :=
  if r.imgW = r.tgtW ∧ r.imgH = r.tgtH then some 0
  else if r.imgW = r.tgtH ∧ r.imgH = r.tgtW then some 1
  else none

/-- The linear index `z` of grid pixel (x, y) (R311, R405). -/
def panelIndex (portrait : Level) (tgtW tgtH x y : Nat) : Nat :=
  if portrait = 0 then x + y * tgtW else y + (tgtH - x - 1) * tgtW

/-- Clear the bit of pixel `z`: mask `0x80 >> (z mod 8)` of byte `z div 8` (R403). -/
def clearPixel (buf : List Byte) (z : Nat) : List Byte :=
  buf.modify (z / 8) (fun b => b &&& ~~~ (0x80#8 >>> (z % 8)))

/-- The grid's pixels (x, y), row by row (R400). -/
def gridPixels (w h : Nat) : List (Nat × Nat) :=
  (List.range h).flatMap (fun y => (List.range w).map (fun x => (x, y)))

/-- A sample is black if it is below THRESHOLD (R406). -/
def isBlack (threshold : Nat) (sample : Byte) : Bool :=
  decide (sample.toNat < threshold)

/-- The FrameBuffer of a grid whose sample at (x, y) is `sample x y` (R400, R403): all white, then one bit cleared
for each black pixel. -/
def encodeBuffer (threshold : Nat) (portrait : Level) (imgW imgH tgtW tgtH : Nat) (sample : Nat → Nat → Byte) :
    List Byte :=
  (gridPixels imgW imgH).foldl
    (fun buf px =>
      if isBlack threshold (sample px.1 px.2) then clearPixel buf (panelIndex portrait tgtW tgtH px.1 px.2)
      else buf)
    (List.replicate (ceilDiv (tgtW * tgtH) 8) whiteByte)

/-- The FrameBuffer ENCODE writes from state `s`: the sample of (x, y) is at `SRC + y*IMG_W + x` (R305). -/
def frameBuffer (portrait : Level) (s : State) : List Byte :=
  let r := s.regs
  encodeBuffer s.cfg.threshold.val portrait r.imgW.toNat r.imgH.toNat r.tgtW.toNat r.tgtH.toNat
    (fun x y => s.byteAt (r.src.toNat + y * r.imgW.toNat + x))

/-- ENCODE (R400): the checks in their order, then the packing. The samples are read at the start (log 4). -/
def execEncode (s : State) : Out :=
  let r := s.regs
  match orientation r with
  | none => raise .dimensionMismatch s
  | some portrait =>
    if validRange s.cfg.memSize.val r.gridRange && validRange s.cfg.memSize.val r.frameRange then
      if overlaps r.gridRange r.frameRange then raise .addressError s
      else
        let buf := frameBuffer portrait s
        launch .encode (storeActs r.dst.toNat buf)
          { err := .ok
            orient := some portrait
            outLen := some (BitVec.ofNat 32 r.frameSize)
            store := lastStore r.dst.toNat buf } s
    else raise .addressError s

end Sys2Proof.Machine
end

