-- ==== Sys2Proof/Machine/Transport.lean ====
section
/-! DEFINITION. PanelTransport: its subroutines as sequences of transitions, and the host operations RESET,
SEND_COMMAND, SEND_DATA and WAIT_READY (spec/43_panel_transport.md). A subroutine's `io_fail` and `timeout` ends
are in Machine/Sequencer.lean (R521). -/

namespace Sys2Proof.Machine

/-- The session is held and its phase is one of `phases`. -/
def State.sessionIn (s : State) (phases : List Phase) : Bool :=
  s.own && decide (s.phase ∈ phases)

/-! ### Subroutines -/

/-- `reset_seq()` (R501). -/
def resetSeq : List Act :=
  [.set .rst rstHigh, .sleep tRstHi1, .set .rst rstLow, .sleep tRstLo, .set .rst rstHigh, .sleep tRstHi2]

/-- One framed transfer: the data/command line, chip-select, the bytes, chip-select released (R506, R511, R512). -/
def transfer (p : Params) (dc : Level) (bytes : List Byte) : List Act :=
  [.set .dc dc, .set .cs p.csActiveLevel, .write bytes, .set .cs (csIdleLevel p)]

/-- `send_command(b)` (R506). -/
def sendCommand (p : Params) (b : Byte) : List Act :=
  transfer p p.dcCmdLevel [b]

/-- `send_data(bs)` in the instance's profile: one transfer for all the bytes (R512), or one a byte (R511). -/
def sendData (p : Params) (bs : List Byte) : List Act :=
  if p.batchWrites then (if bs = [] then [] else transfer p (dcDataLevel p) bs)
  else bs.flatMap (fun b => transfer p (dcDataLevel p) [b])

/-- `wait_ready` with the operands of the registers (R516, R518). -/
def waitReady (r : Regs) : List Act :=
  [.poll r.wait]

/-! ### Host operations -/

/-- RESET (R500). -/
def execReset (s : State) : Out :=
  if s.sessionIn [.unopened, .reset, .initialized] then
    launch .reset resetSeq { err := .ok, phase := some .reset } s
  else raise .invalidState s

/-- SEND_COMMAND (R505). -/
def execSendCommand (s : State) : Out :=
  if s.sessionIn [.reset, .initialized] then
    launch .sendCommand (sendCommand s.cfg s.regs.opByte) { err := .ok } s
  else raise .invalidState s

/-- SEND_DATA (R510). The payload is read at the start (log 4). -/
def execSendData (s : State) : Out :=
  if s.sessionIn [.reset, .initialized] then
    if validRange s.cfg.memSize.val s.regs.srcRange then
      launch .sendData (sendData s.cfg (s.bytesAt s.regs.src.toNat s.regs.len.toNat)) { err := .ok } s
    else raise .addressError s
  else raise .invalidState s

/-- WAIT_READY (R515). -/
def execWaitReady (s : State) : Out :=
  if s.sessionIn [.reset, .initialized] then
    launch .waitReady (waitReady s.regs) { err := .ok } s
  else raise .invalidState s

end Sys2Proof.Machine
end

