-- ==== Sys2Proof/Machine/Session.lean ====
section
/-! DEFINITION. PanelSession: OPEN, INIT, CLEAR, DISPLAY, SLEEP and CLOSE (spec/44_panel_session.md). -/

namespace Sys2Proof.Machine

/-- `frame(op, pay)` (R551). -/
def frame (p : Params) (f : Byte × List Byte) : List Act :=
  sendCommand p f.1 ++ sendData p f.2

/-- The frames of a refresh: both planes, then the refresh trigger (R560, R565). -/
def refreshFrames (p : Params) (primary secondary : List Byte) : List (Byte × List Byte) :=
  [(p.opcDtm1, primary), (p.opcDtm2, secondary), (p.opcRefresh, p.payRefresh)]

/-- The frames of a refresh, then its wait (R560, R565). -/
def refresh (p : Params) (r : Regs) (primary secondary : List Byte) : List Act :=
  (refreshFrames p primary secondary).flatMap (frame p) ++ waitReady r

/-- OPEN (R550): the test of OWN, its setting and the end are one transition. -/
def execOpen (s : State) : Out :=
  if s.own then raise .busBusy s
  else .next (s.finish { err := .ok, phase := some .unopened, own := some true })

/-- INIT (R555). -/
def execInit (s : State) : Out :=
  if s.sessionIn [.unopened, .reset] then
    launch .init
      (resetSeq ++ [.enter .reset] ++ (initFrames s.cfg).flatMap (frame s.cfg) ++ waitReady s.regs)
      { err := .ok, phase := some .initialized } s
  else raise .invalidState s

/-- CLEAR (R560). The transient phase is written with the start (R552). -/
def execClear (s : State) : Out :=
  if s.sessionIn [.initialized] then
    let plane := List.replicate (planeSize s.cfg) clearByte
    launch .clear (refresh s.cfg s.regs plane plane)
      { err := .ok, phase := some .initialized } { s with phase := .clearing }
  else raise .invalidState s

/-- DISPLAY (R565). Both planes are read before any event. -/
def execDisplay (s : State) : Out :=
  let r := s.regs
  if s.sessionIn [.initialized] then
    if r.len.toNat = planeSize s.cfg ∧ r.len2.toNat = planeSize s.cfg then
      if validRange s.cfg.memSize.val r.srcRange && validRange s.cfg.memSize.val r.src2Range then
        launch .display
          (refresh s.cfg r (s.bytesAt r.src.toNat r.len.toNat) (s.bytesAt r.src2.toNat r.len2.toNat))
          { err := .ok, phase := some .initialized } { s with phase := .displaying }
      else raise .addressError s
    else raise .dimensionMismatch s
  else raise .invalidState s

/-- SLEEP (R570): OWN stays 1. -/
def execSleep (s : State) : Out :=
  if s.sessionIn [.initialized] then
    launch .sleep
      (frame s.cfg (s.cfg.opcPowerOff, s.cfg.payPowerOff) ++ waitReady s.regs ++
        frame s.cfg (s.cfg.opcDeepSleep, s.cfg.payDeepSleep))
      { err := .ok, phase := some .closed } { s with phase := .sleeping }
  else raise .invalidState s

/-- CLOSE (R575): accepted in every phase; with OWN = 0 it makes no event. -/
def execClose (s : State) : Out :=
  launch .close (if s.own then s.cfg.safeLevels.map (fun pl => .drive pl.1 pl.2) else [])
    { err := .ok, phase := some .closed, own := some false } s

end Sys2Proof.Machine
end

