-- ==== Sys2Proof/Machine/Dispatch.lean ====
section
/-! DEFINITION. The meaning of each operation: what a host write of its CMD word does while STATUS.RUN = 0
(spec/10_state.md R110; spec/30_encoding.md R302). -/

namespace Sys2Proof.Machine

def exec (i : Instr) (s : State) : Host.Outcome State Fault Refusal :=
  match i with
  | .encode => Sys2Proof.Machine.execEncode s
  | .assemble => Sys2Proof.Machine.execAssemble s
  | .reset => Sys2Proof.Machine.execReset s
  | .sendCommand => Sys2Proof.Machine.execSendCommand s
  | .sendData => Sys2Proof.Machine.execSendData s
  | .waitReady => Sys2Proof.Machine.execWaitReady s
  | .openSession => Sys2Proof.Machine.execOpen s
  | .init => Sys2Proof.Machine.execInit s
  | .clear => Sys2Proof.Machine.execClear s
  | .display => Sys2Proof.Machine.execDisplay s
  | .sleep => Sys2Proof.Machine.execSleep s
  | .close => Sys2Proof.Machine.execClose s

end Sys2Proof.Machine
end

