-- ==== Sys2Proof/Machine/Sequencer.lean ====
section
/-! DEFINITION. The sequencer: one transition of a running operation (spec/10_state.md R111, R131;
spec/43_panel_transport.md R516, R521; spec/44_panel_session.md R553). -/

namespace Sys2Proof.Machine

/-- The operation goes on with what is left of its sequence. -/
def State.goOn (s : State) (r : Running) : State :=
  { s with op := some r }

/-- The operation makes no further event: its finishing transition sets PHASE <- Failed and the code (R521, R553). -/
def State.abort (s : State) (r : Running) (e : ErrCode) : State :=
  { s with op := some { r with todo := [], fin := { err := e, phase := some .failed } } }

/-- After a fallible primitive whose answer was `ans`: go on, or end with the operation's I/O code (R521). -/
def State.checked (s : State) (r : Running) (ans : BusAnswer) : State :=
  if answerOk ans then s.goOn r else s.abort r (ioFailCode r.op)

/-- wait_ready's tests after a poll that answered `ans`, in their order: fail, idle, timeout, then the pause
(R516). `r` is what follows the wait. -/
def State.polled (s : State) (r : Running) (w : Wait) (ans : BusAnswer) : State :=
  match ans with
  | .fail _ => s.abort r (ioFailCode r.op)
  | .ok l =>
    if l ≠ s.cfg.busyLevel then s.goOn r
    else
      match w.timeout with
      | some t =>
        if t ≤ w.elapsed then s.abort r .busyTimeout
        else s.goOn { r with todo := .pause w :: r.todo }
      | none => s.goOn { r with todo := .pause w :: r.todo }

/-- One transition `a` of the operation; `r` is the operation with `a` taken off its sequence. -/
def perform (r : Running) (a : Act) (s : State) : State :=
  match a with
  | .set pin level => (s.busSet pin level).checked r s.nextAnswer
  | .drive pin level => (s.busSet pin level).goOn r
  | .write bytes => (s.busWrite bytes).checked r s.nextAnswer
  | .sleep ms => (s.busSleep ms).goOn r
  | .poll w => s.busRead.polled r w s.nextAnswer
  | .pause w => (s.busSleep w.poll).goOn { r with todo := .poll { w with elapsed := w.elapsed + w.poll } :: r.todo }
  | .enter phase => ({ s with phase := phase }).goOn r
  | .store addr byte => (s.setByte addr byte).goOn r

/-- One transition of the block: nothing while idle; else the next of the sequence, or the finishing one. -/
def blockStep (s : State) : State :=
  match s.op with
  | none => s
  | some r =>
    match r.todo with
    | [] => s.finish r.fin
    | a :: rest => perform { r with todo := rest } a s

end Sys2Proof.Machine
end

