-- ==== Sys2Proof/Machine/HostPort.lean ====
section
/-! DEFINITION. The host's side: accesses to the register window (spec/20_memory.md R220 to R222), to buffer memory
(R201, R231), and the block reset (spec/70_reset_and_hazards.md R700). -/

namespace Sys2Proof.Machine

/-- A window access names a register, or is refused (R220, R221): the whole word, aligned, at a mapped offset. -/
def registerAt (p : Params) (loc : Loc) (size : Nat) : Except Refusal RegName :=
  let atOffset (n : Nat) : Except Refusal RegName :=
    if size ≠ 4 then .error (.notAWholeWord size)
    else if n % 4 ≠ 0 then .error (.misaligned n)
    else match RegName.ofOffset n with
      | some r => .ok r
      | none => .error (.unmapped n)
  match loc with
  | .offset n => atOffset n
  | .address a =>
    if a.toNat < p.base.toNat then .error (.outsideWindow a) else atOffset (a.toNat - p.base.toNat)

/-- A host write of `w` to CMD while STATUS.RUN = 0 (R110): the operation it selects, or ILLEGAL_OP at once
(R303). -/
def writeCmd (w : Word) (s : State) : Out :=
  match decode w with
  | .ok i => exec i s
  | .error _ => raise .illegalOp s

/-- A host write of `v` to a register (R110, R222, R710). -/
def writeReg (r : RegName) (v : Word) (s : State) : Out :=
  if s.running then .refused (.registerWriteWhileRunning r)
  else match r with
    | .cmd => writeCmd v s
    | _ => .next { s with regs := s.regs.write r v }

/-- A host read of a register: no side effect but the reply (R222). -/
def readReg (r : RegName) (s : State) : Out :=
  .next { s with replies := s.replies ++ [.reg r (s.readReg r)] }

/-- The running operation's ranges that the host must not write (R231). -/
def State.writeLocked (s : State) (a : Nat) : Bool :=
  match s.op with
  | none => false
  | some r => (sourceRanges r.op r.latch ++ destRanges r.op r.latch).any (inRange a)

/-- The running operation's ranges that the host must not read (R231). -/
def State.readLocked (s : State) (a : Nat) : Bool :=
  match s.op with
  | none => false
  | some r => (destRanges r.op r.latch).any (inRange a)

/-- One host access (log 12). -/
def hostAccess (x : Access) (s : State) : Out :=
  match x with
  | .regRead loc size =>
    match registerAt s.cfg loc size with
    | .ok r => readReg r s
    | .error e => .refused e
  | .regWrite loc size v =>
    match registerAt s.cfg loc size with
    | .ok r => writeReg r v s
    | .error e => .refused e
  | .memRead a =>
    if s.cfg.memSize.val ≤ a.toNat then .fault (.noSuchByte a)
    else if s.readLocked a.toNat then .refused (.bufferInUse a)
    else .next { s with replies := s.replies ++ [.mem a (s.byteAt a.toNat)] }
  | .memWrite a b =>
    if s.cfg.memSize.val ≤ a.toNat then .fault (.noSuchByte a)
    else if s.writeLocked a.toNat then .refused (.bufferInUse a)
    else .next (s.setByte a.toNat b)

/-- The address an act stores to. -/
def Act.storeAddr : Act → Option Nat
  | .store a _ => some a
  | .set _ _ | .drive _ _ | .write _ | .sleep _ | .poll _ | .pause _ | .enter _ => none

/-- The addresses a running operation has still to store to. -/
def Running.pending (r : Running) : List Nat :=
  r.todo.filterMap Act.storeAddr ++ (r.fin.store.map Prod.fst).toList

/-- The addresses a running operation has already stored to: its destination ranges less the stores to come. -/
def Running.stored (r : Running) : List Nat :=
  ((destRanges r.op r.latch).flatMap (fun q => (List.range q.2).map (fun i => q.1 + i))).filter
    (fun a => !r.pending.contains a)

/-- The addresses whose bytes stand through a block reset: those the abandoned operation has stored to (R700). -/
def State.standing (s : State) : List Nat :=
  match s.op with
  | none => []
  | some r => r.stored

/-- Block reset: the state of R140; a running operation is abandoned without a code, the bytes it has stored and the
BusLine events already made stand, and no event is made (R700, R701). Every other byte of buffer memory is unspecified:
a new draw (R140, R205, log 9). -/
def blockReset (s : State) : State :=
  let fill : Fill := { known := none, epoch := s.fill.epoch + 1 }
  { s with
    fill := fill
    mem := Memory.listed fill s.byteAt s.standing
    regs := Regs.reset s.cfg
    outLen := 0
    err := .ok
    phase := .closed
    own := false
    orient := 0
    op := none }

/-- What the next mover does (log 10). -/
def takeInput (i : Input) (s : State) : Out :=
  match i with
  | .host x => hostAccess x s
  | .tick => .next (blockStep s)
  | .blockReset => .next (blockReset s)

end Sys2Proof.Machine
end

