-- ==== Sys2Proof/Machine/Step.lean ====
section
/-! DEFINITION. One step of the machine (log 10): the head of `State.inputs`, or, when nothing is listed, one
transition of the block. The block fetches no instruction (spec/10_state.md R106): an operation's word is the one
the host writes to CMD (R110, R235). -/

namespace Sys2Proof.Machine

def step (s : State) : Host.Outcome State Fault Refusal :=
  match s.inputs with
  | [] => .next (blockStep s)
  | i :: rest => takeInput i { s with inputs := rest }

/-- The state in which the next step is the host's write of that CMD word, with the block idle so that the write
is accepted (R110, log 13). -/
def State.withFetchWord (s : State) (nbits w : Nat) : State :=
  { s with
    op := none
    inputs := .host (.regWrite (.offset 0) 4 (tableWord nbits w)) :: s.inputs }

end Sys2Proof.Machine
end

