-- ==== Sys2Proof/Machine/HostProgram.lean ====
section
/-! DEFINITION. The host's notation (spec/30_encoding.md R340, R341) as builders of input lists. The host's `wait`
is a loop of its own, which reads STATUS until RUN = 0; here it is a number of block transitions, followed by the
read (log 10). -/

namespace Sys2Proof.Machine

/-- `wr REG, v` (R340). -/
def wr (r : RegName) (v : Word) : Input :=
  .host (.regWrite (.offset r.offset) 4 v)

/-- `rd REG` (R340). -/
def rd (r : RegName) : Input :=
  .host (.regRead (.offset r.offset) 4)

/-- `go OP` (R341). -/
def go (i : Instr) : Input :=
  wr .cmd (encode i)

/-- `call OP` when the operation finishes within `n` transitions of the block (R341). -/
def callWithin (n : Nat) (i : Instr) : List Input :=
  go i :: List.replicate n .tick ++ [rd .status]

/-- `mem a: b0 b1 ...` (R340): buffer memory contents before the program starts. -/
def State.withMem (s : State) : Nat → List Byte → State
  | _, [] => s
  | a, b :: bs => State.withMem (s.setByte a b) (a + 1) bs

end Sys2Proof.Machine
end

