-- ==== Sys2Proof/Safety.lean ====
section
/-! DEFINITION. The terms the statements are written in: the BusLine event lists as the spec writes them, the views of
the BusLine, and what a legal state is. Nothing here is run by the machine. -/

namespace Sys2Proof.Machine

/-! ### Event lists, as the rules write them -/

/-- The six events of a panel reset (spec/43_panel_transport.md R501). -/
def resetEvents : List BusEvent :=
  [.set .rst 1 true, .sleep 200, .set .rst 0 true, .sleep 10, .set .rst 1 true, .sleep 200]

/-- One framed transfer whose primitives all answered ok, with DC at `level` (R506, R511). -/
def transferEvents (p : Params) (level : Level) (bytes : List Byte) : List BusEvent :=
  [.set .dc level true, .set .cs p.csActiveLevel true, .write bytes true, .set .cs (1 - p.csActiveLevel) true]

/-- `send_command(b)`, every answer ok (R506). -/
def commandEvents (p : Params) (b : Byte) : List BusEvent :=
  transferEvents p p.dcCmdLevel [b]

/-- `send_data(bs)` in the per-byte profile, every answer ok (R511). -/
def perByteEvents (p : Params) : List Byte → List BusEvent
  | [] => []
  | b :: bs => transferEvents p (1 - p.dcCmdLevel) [b] ++ perByteEvents p bs

/-- `send_data(bs)` in the batch profile, every answer ok (R512). -/
def batchEvents (p : Params) : List Byte → List BusEvent
  | [] => []
  | b :: bs => transferEvents p (1 - p.dcCmdLevel) (b :: bs)

/-- `send_data(bs)` in the instance's profile, every answer ok. -/
def dataEvents (p : Params) (bs : List Byte) : List BusEvent :=
  if p.batchWrites then batchEvents p bs else perByteEvents p bs

/-- `frame(op, pay)`, every answer ok (spec/44_panel_session.md R551). -/
def frameEvents (p : Params) (op : Byte) (pay : List Byte) : List BusEvent :=
  commandEvents p op ++ dataEvents p pay

/-- The frames of CLEAR and DISPLAY, every answer ok (R560, R565). -/
def refreshEvents (p : Params) (primary secondary : List Byte) : List BusEvent :=
  frameEvents p p.opcDtm1 primary ++ frameEvents p p.opcDtm2 secondary ++ frameEvents p p.opcRefresh p.payRefresh

/-- The events of INIT before its wait, every answer ok (R555, R556). -/
def initEvents (p : Params) : List BusEvent :=
  resetEvents ++ frameEvents p p.opcBooster p.payBooster ++ frameEvents p p.opcPowerOn p.payPowerOn ++
    frameEvents p p.opcPanelSetting p.payPanelSetting

/-- `n` rounds of a wait whose line reads busy, each followed by its sleep (R516). -/
def busyRounds (busy : Level) (poll : Nat) : Nat → List BusEvent
  | 0 => []
  | n + 1 => .read (some busy) :: .sleep poll :: busyRounds busy poll n

/-! ### Premises on the BusLine's answers (R211) -/

/-- Whether a primitive asks for an answer: every one but `sleep` (R210). -/
def asks : BusEvent → Bool
  | .sleep _ => false
  | .set _ _ _ | .read _ | .write _ _ _ => true

/-- The next answers of the BusLine are all ok, one for each of the events that asks for one; then `rest`. -/
def AnswersOk (s : State) (events : List BusEvent) (rest : List BusAnswer) : Prop :=
  ∃ oks : List BusAnswer,
    s.answers = oks ++ rest ∧ oks.length = events.countP asks ∧ ∀ a ∈ oks, answerOk a = true

/-- The line reads busy at the next `n` polls and idle at the one after. -/
def IdleAfter (p : Params) (n : Nat) (idle : Level) (rest : List BusAnswer) : List BusAnswer :=
  List.replicate n (.ok p.busyLevel) ++ .ok idle :: rest

/-- A wait that has made `n` polls of a busy line has not timed out at any of them: every one was made before the
elapsed time had reached the timeout (R516). -/
def withinTimeout (w : Wait) (n : Nat) : Prop :=
  ∀ k, k < n → ∀ t, w.timeout = some t → w.elapsed + k * w.poll < t

/-! ### Window accesses -/

/-- A window access at offset `n`: named by the offset, or by the bus address `BASE + n` (spec/20_memory.md R220). -/
def Loc.hits (p : Params) (loc : Loc) (n : Nat) : Prop :=
  loc = .offset n ∨ ∃ a : Word, loc = .address a ∧ a.toNat = p.base.toNat + n

/-! ### Bytes of a running operation -/

/-- The running operation has stored the byte at `a`: it lies in the operation's destination and no store to it is still
to come (R700). -/
def State.storedByOperation (s : State) (a : Nat) : Prop :=
  ∃ r, s.op = some r ∧ (∃ q ∈ destRanges r.op r.latch, q.1 ≤ a ∧ a < q.1 + q.2) ∧
    (∀ b, Act.store a b ∉ r.todo) ∧ ∀ b, r.fin.store ≠ some (a, b)

/-! ### Views of the BusLine -/

/-- The level an output pin holds after the events: what the last `set` on it drove, `none` before the first and after
a failed one (spec/20_memory.md R214). DESIGN CHOICE (log 16): a failed `write`, a failed `read`, a timeout, a failed `set`
of another pin and a block reset leave the level as it was, as R132, R214 and V-T7 have it; R521 and I10 call the levels
after a failure, and I10 those across a block reset, unknown. -/
def pinLevel (events : List BusEvent) (pin : Pin) : Option Level :=
  events.foldl
    (fun held e => match e with
      | .set q l ok => if q = pin then (if ok then some l else none) else held
      | .write _ _ _ | .read _ | .sleep _ => held) none

/-- The bytes the panel receives, each with the level of DC at that moment (R513); `dc` is the level before. Of a failed
write it receives the first `sent` bytes, a number the BusLine's answer leaves open (log 19). -/
def wireBytes (dc : Option Level) : List BusEvent → List (Option Level × Byte)
  | [] => []
  | .set .dc l ok :: es => wireBytes (if ok then some l else none) es
  | .set .cs _ _ :: es => wireBytes dc es
  | .set .rst _ _ :: es => wireBytes dc es
  | .write bs _ sent :: es => (bs.take sent).map (fun b => (dc, b)) ++ wireBytes dc es
  | .read _ :: es => wireBytes dc es
  | .sleep _ :: es => wireBytes dc es

/-- Every transfer on the port follows directly on DC and chip-select being set, both answered ok (R506, R511, R512). -/
def TransfersFramed (p : Params) (events : List BusEvent) : Prop :=
  ∀ before bytes ok sent after, events = before ++ .write bytes ok sent :: after →
    ∃ early level, before = early ++ [.set .dc level true, .set .cs p.csActiveLevel true]

/-! ### Bits of packed formats -/

/-- Bit `z` of a byte list, the first bit of a byte being its most significant (R311, R318). -/
def bitAt (bytes : List Byte) (z : Nat) : Bool :=
  (bytes.getD (z / 8) 0).getLsbD (7 - z % 8)

/-! ### Legal states -/

/-- The phases in which an operation runs (R120, R520, R581). -/
def runPhases : Instr → List Phase
  | .encode | .assemble | .close => [.unopened, .reset, .initialized, .closed, .failed]
  | .reset => [.unopened, .reset, .initialized]
  | .sendCommand | .sendData | .waitReady => [.reset, .initialized]
  | .openSession => []
  | .init => [.unopened, .reset]
  | .clear => [.clearing]
  | .display => [.displaying]
  | .sleep => [.sleeping]

/-- The phase a successful operation writes at its end (R581). -/
def donePhase : Instr → Option Phase
  | .encode | .assemble | .sendCommand | .sendData | .waitReady | .openSession => none
  | .reset => some .reset
  | .init | .clear | .display => some .initialized
  | .sleep | .close => some .closed

/-- The operations that use the BusLine and can fail on it. -/
def usesPanel : Instr → Bool
  | .reset | .sendCommand | .sendData | .waitReady | .init | .clear | .display | .sleep => true
  | .encode | .assemble | .openSession | .close => false

/-- The operations that contain a wait_ready (R112). -/
def waits : Instr → Bool
  | .waitReady | .init | .clear | .display | .sleep => true
  | .encode | .assemble | .openSession | .close | .reset | .sendCommand | .sendData => false

/-- Which transitions an operation's sequence may hold. A store lies in the operation's destination range (R205). -/
def actLegal (r : Running) : Act → Bool
  | .set _ _ | .write _ => usesPanel r.op
  | .sleep _ => decide (r.op = .reset) || decide (r.op = .init)
  | .poll _ | .pause _ => waits r.op
  | .enter ph => decide (r.op = .init) && decide (ph = .reset)
  | .drive _ _ => decide (r.op = .close)
  | .store a _ => (destRanges r.op r.latch).any (inRange a)

/-- How a running operation may end: with OK and its own phase, or, its sequence given up, with a BusLine-time code and
PHASE Failed (R521, R553). -/
def endLegal (r : Running) : Bool :=
  (decide (r.fin.err = .ok) && decide (r.fin.phase = donePhase r.op)) ||
    (usesPanel r.op && decide (r.todo = []) && decide (r.fin.phase = some .failed) &&
      (decide (r.fin.err = ioFailCode r.op) || (waits r.op && decide (r.fin.err = .busyTimeout))))

/-- A running operation, beside the session it runs in. -/
structure OpLegal (s : State) (r : Running) : Prop where
  phaseFits : s.phase ∈ runPhases r.op
  ownsBus : usesPanel r.op = true ∨ (r.op = .close ∧ r.todo ≠ []) → s.own = true
  actsFit : ∀ a ∈ r.todo, actLegal r a = true
  endFits : endLegal r = true
  endOwn : r.fin.own = if r.op = .close then some false else none
  endOrient : r.fin.orient ≠ none → r.op = .encode
  endOutLen : r.fin.outLen ≠ none → r.op = .encode ∨ r.op = .assemble
  endStore : ∀ a b, r.fin.store = some (a, b) → (destRanges r.op r.latch).any (inRange a) = true
  destInside : ∀ q ∈ destRanges r.op r.latch, validRange s.cfg.memSize.val q = true

/-- A legal state: canonical memory inside the address space, R122 (OWN = 0 only with PHASE = Closed), R120 (the
transient phases only while their operation runs), and a legal running operation. -/
structure Legal (s : State) : Prop where
  memCanonical : Memory.wf s.fill s.mem = true
  memInside : ∀ c ∈ s.mem, c.1 < s.cfg.memSize.val
  ownership : s.own = false → s.phase = .closed
  idlePhase : s.op = none → s.phase.transient = false
  opLegal : ∀ r, s.op = some r → OpLegal s r

/-- The port's discipline: the transfers made are framed, and so are those to come, counting from the events made. -/
structure Framed (s : State) : Prop where
  made : TransfersFramed s.cfg s.trace
  toCome : ∀ r, s.op = some r → ∀ before bytes after, r.todo = before ++ .write bytes :: after →
    (∃ early level, before = early ++ [.set .dc level, .set .cs s.cfg.csActiveLevel]) ∨
    (before = [.set .cs s.cfg.csActiveLevel] ∧ ∃ past level, s.trace = past ++ [.set .dc level true]) ∨
    (before = [] ∧ ∃ past level, s.trace = past ++ [.set .dc level true, .set .cs s.cfg.csActiveLevel true])

end Sys2Proof.Machine
end

