-- ==== Sys2Proof/Certificates/Slice0/Obligations.lean ====
section
/-! DEFINITION. The statements for the provers. `Sys2Proof.core.run k t` is the machine's own run of `k` steps; with
`inputs = []` these are transitions of the block. Every statement holds for every instance, since `State.cfg` is free. -/

open Sys2Proof Sys2Proof.Machine

/-! ### Encoding and decoding -/

/-- Words of the spec's opcode map, one of each sub-block, and one reserved and one illegal word (R302, R303). -/
def Obligations.SpecWordsDecode : Prop :=
  decode 0x00000001 = .ok .encode ∧ decode 0x00000002 = .ok .assemble ∧ decode 0x00000004 = .ok .sendCommand ∧
  decode 0x00000008 = .ok .openSession ∧ decode 0x0000000D = .ok .close ∧
  decode 0x00000007 = .error .reservedOp ∧ decode 0x00000101 = .error .mustBeZero

/-- R302: the word selects the operation by all 32 bits, and no other word does. -/
def Obligations.DecodeIsTheOpcodeMap : Prop :=
  ∀ (w : Word) (i : Instr), decode w = .ok i ↔
    (w.toNat, i) ∈ [(1, Instr.encode), (2, .assemble), (3, .reset), (4, .sendCommand), (5, .sendData), (6, .waitReady),
      (8, .openSession), (9, .init), (10, .clear), (11, .display), (12, .sleep), (13, .close)]

/-- Decoding an encoded instruction gives it back, and a decoded word is the encoding of what it gave. -/
def Obligations.DecodeEncodeRoundTrip : Prop :=
  (∀ i : Instr, Instr.wf i = true → decode (encode i) = .ok i) ∧
  (∀ (w : Word) (i : Instr), decode w = .ok i → encode i = w)

/-- R303: a reserved OP or a non-zero upper field, written to CMD while no operation runs, gives ILLEGAL_OP at once and
changes nothing else. -/
def Obligations.IllegalWordOnlySetsErr : Prop :=
  ∀ (s : State) (loc : Loc) (w : Word) (rest : List Input),
    s.inputs = .host (.regWrite loc 4 w) :: rest → Loc.hits s.cfg loc 0 → s.op = none →
    (w.toNat / 16 ≠ 0 ∨ w.toNat % 16 = 0 ∨ w.toNat % 16 = 7 ∨ w.toNat % 16 = 14 ∨ w.toNat % 16 = 15) →
    step s = .next { s with inputs := rest, err := .illegalOp }

/-! ### Steps -/

/-- R110: a host write of a CMD word that decodes, at offset 0 or at BASE, while no operation runs, is the operation's
meaning on the state without that input; with no input listed, and on a tick, a step is one transition of the block. -/
def Obligations.StepRunsDecodedInstruction : Prop :=
  (∀ (s : State) (loc : Loc) (w : Word) (i : Instr) (rest : List Input),
    s.inputs = .host (.regWrite loc 4 w) :: rest → Loc.hits s.cfg loc 0 → s.op = none →
    decode w = .ok i → step s = exec i { s with inputs := rest }) ∧
  (∀ s : State, s.inputs = [] → step s = .next (blockStep s)) ∧
  (∀ (s : State) (rest : List Input), s.inputs = .tick :: rest → step s = .next (blockStep { s with inputs := rest }))

/-- The word placed by `withFetchWord` is the next step's (log 13: the model's own convention). -/
def Obligations.PlacedWordRunsNext : Prop :=
  ∀ (s : State) (i : Instr), step (s.withFetchWord 32 (encode i).toNat) = exec i { s with op := none }

/-- No operation stops the machine, and starting one writes no memory byte, makes no BusLine event and changes no
register: the checks come first (R15, R610). One that goes on keeps ERR and OWN and holds the latch (R111, R130). -/
def Obligations.StartingTouchesNoMemoryOrBus : Prop :=
  ∀ (i : Instr) (s : State), ∃ t, exec i s = .next t ∧
    t = { s with err := t.err, phase := t.phase, own := t.own, op := t.op } ∧
    ∀ r, t.op = some r → t.err = s.err ∧ t.own = s.own ∧ r.op = i ∧ r.latch = s.regs

/-! ### The register window -/

/-- R104: the reserved bits of OPBYTE and CTRL are not stored and read 0. -/
def Obligations.ReservedBitsReadZero : Prop :=
  ∀ (s : State) (loc : Loc) (v : Word) (rest : List Input), s.op = none →
    s.inputs = .host (.regWrite loc 4 v) :: rest →
    (Loc.hits s.cfg loc 0x30 → ∃ t, step s = .next t ∧ t.regs.opByte = v.setWidth 8 ∧ t.readReg .opByte = v &&& 0xFF#32) ∧
    (Loc.hits s.cfg loc 0x3C → ∃ t, step s = .next t ∧ t.regs.timeoutEn = v.setWidth 1 ∧ t.readReg .ctrl = v &&& 1#32)

/-- R222: while no operation runs, a write to an RW register stores the value (less the reserved bits) and changes nothing
else that any register read shows; a write to STATUS or OUT_LEN is ignored. -/
def Obligations.HostWriteStoresOneRegister : Prop :=
  ∀ (s : State) (r : RegName) (loc : Loc) (v : Word) (rest : List Input),
    s.inputs = .host (.regWrite loc 4 v) :: rest → Loc.hits s.cfg loc r.offset → s.op = none → r ≠ .cmd →
    ∃ t, step s = .next t ∧ t = { s with inputs := rest, regs := t.regs } ∧
      (∀ q, q ≠ r → t.readReg q = s.readReg q) ∧
      t.readReg r = match r with
        | .status => s.readReg .status
        | .outLen => s.readReg .outLen
        | .opByte => v &&& 0xFF#32
        | .ctrl => v &&& 1#32
        | _ => v

/-- R222: a register read is answered in every state, running or not, and changes nothing but the reply; CMD reads 0
(R101). -/
def Obligations.HostReadHasNoEffect : Prop :=
  ∀ (s : State) (r : RegName) (loc : Loc) (rest : List Input),
    s.inputs = .host (.regRead loc 4) :: rest → Loc.hits s.cfg loc r.offset →
    step s = .next { s with inputs := rest, replies := s.replies ++ [.reg r (s.readReg r)] } ∧ s.readReg .cmd = 0

/-- R221: an access that is not a whole word, is misaligned or lies above 0x40 is refused, in every state; a whole aligned
word at 0x00 .. 0x40 is a register. An address below BASE is not this block's (R220; log 12). -/
def Obligations.OddWindowAccessRefused : Prop :=
  (∀ (s : State) (loc : Loc) (n size : Nat) (v : Word) (rest : List Input), Loc.hits s.cfg loc n →
    (size ≠ 4 ∨ n % 4 ≠ 0 ∨ 0x40 < n) →
    (s.inputs = .host (.regRead loc size) :: rest → ∃ e, step s = .refused e) ∧
    (s.inputs = .host (.regWrite loc size v) :: rest → ∃ e, step s = .refused e)) ∧
  (∀ (s : State) (loc : Loc) (n : Nat) (rest : List Input), Loc.hits s.cfg loc n → n % 4 = 0 → n ≤ 0x40 →
    s.inputs = .host (.regRead loc 4) :: rest → ∃ t, step s = .next t) ∧
  (∀ (s : State) (a : Word) (size : Nat) (v : Word) (rest : List Input), a.toNat < s.cfg.base.toNat →
    (s.inputs = .host (.regRead (.address a) size) :: rest → step s = .refused (.outsideWindow a)) ∧
    (s.inputs = .host (.regWrite (.address a) size v) :: rest → step s = .refused (.outsideWindow a)))

/-- R710: while STATUS.RUN = 1 a write of any register is refused. -/
def Obligations.RegisterWriteWhileRunningRefused : Prop :=
  ∀ (s : State) (r : RegName) (loc : Loc) (v : Word) (rest : List Input),
    s.inputs = .host (.regWrite loc 4 v) :: rest → Loc.hits s.cfg loc r.offset → s.running = true →
    step s = .refused (.registerWriteWhileRunning r)

/-- R711: while an operation runs, a host write to its source or destination ranges and a host read of its destination
range are refused; an access to any other byte below MEM_SIZE is answered (log 15: the spec forbids no such access). -/
def Obligations.BuffersInUseRefused : Prop :=
  ∀ (s : State) (r : Running) (a : Word) (b : Byte) (rest : List Input),
    s.op = some r → a.toNat < s.cfg.memSize.val →
    (s.inputs = .host (.memWrite a b) :: rest →
      (step s = .refused (.bufferInUse a) ↔
        ∃ q ∈ sourceRanges r.op r.latch ++ destRanges r.op r.latch, q.1 ≤ a.toNat ∧ a.toNat < q.1 + q.2) ∧
      ((∀ q ∈ sourceRanges r.op r.latch ++ destRanges r.op r.latch, a.toNat < q.1 ∨ q.1 + q.2 ≤ a.toNat) →
        step s = .next ({ s with inputs := rest }.setByte a.toNat b))) ∧
    (s.inputs = .host (.memRead a) :: rest →
      (step s = .refused (.bufferInUse a) ↔
        ∃ q ∈ destRanges r.op r.latch, q.1 ≤ a.toNat ∧ a.toNat < q.1 + q.2) ∧
      ((∀ q ∈ destRanges r.op r.latch, a.toNat < q.1 ∨ q.1 + q.2 ≤ a.toNat) →
        step s = .next { s with inputs := rest, replies := s.replies ++ [.mem a (s.byteAt a.toNat)] }))

/-- R201, R203: buffer memory ends at MEM_SIZE. A host access at or above it is the model's fault (log 12). Below it, while
no operation runs: a byte read is answered with the byte and changes nothing else; a byte written is the byte read after,
and every other byte is as before. -/
def Obligations.HostMemoryAccess : Prop :=
  ∀ (s : State) (a : Word) (b : Byte) (rest : List Input),
    (s.cfg.memSize.val ≤ a.toNat →
      (s.inputs = .host (.memWrite a b) :: rest → step s = .fault (.noSuchByte a)) ∧
      (s.inputs = .host (.memRead a) :: rest → step s = .fault (.noSuchByte a))) ∧
    (a.toNat < s.cfg.memSize.val → s.op = none → s.inputs = .host (.memRead a) :: rest →
      step s = .next { s with inputs := rest, replies := s.replies ++ [.mem a (s.byteAt a.toNat)] }) ∧
    (a.toNat < s.cfg.memSize.val → s.op = none → Memory.wf s.fill s.mem = true →
      s.inputs = .host (.memWrite a b) :: rest →
      ∃ t, step s = .next t ∧ t = { s with inputs := rest, mem := t.mem } ∧ t.byteAt a.toNat = b ∧
        Memory.wf t.fill t.mem = true ∧ ∀ k, k ≠ a.toNat → t.byteAt k = s.byteAt k)

/-- The places of STATUS's fields (R102), the phase values (R120) and the result codes (R600), as one number. -/
def Obligations.StatusWordLayout : Prop :=
  ∀ s : State, s.status.toNat =
    (if s.op.isSome then 1 else 0) +
    16 * (match s.err with
      | .ok => 0 | .dimensionMismatch => 1 | .inconsistentPixelCount => 2 | .busyTimeout => 3 | .busBusy => 4
      | .initFailure => 5 | .transportIoError => 6 | .invalidState => 7 | .invalidArgument => 8 | .addressError => 9
      | .illegalOp => 10) +
    256 * (match s.phase with
      | .unopened => 0 | .reset => 1 | .initialized => 2 | .clearing => 3 | .displaying => 4 | .sleeping => 5
      | .closed => 6 | .failed => 7) +
    2048 * (if s.own then 1 else 0) + 4096 * s.orient.toNat

/-! ### Block reset -/

/-- R140: the state after reset, as the registers show it; no operation runs, every byte of memory is a free value of its
own (log 8), and no pin level is known (log 16). -/
def Obligations.ResetLeavesSpecState : Prop :=
  (∀ r, State.reset.readReg r = match r with
    | .status => 0x600#32
    | .pollMs => Config.defaultPollMs
    | .timeoutMs => Config.defaultTimeoutMs
    | .ctrl => 1
    | _ => 0) ∧
  State.reset.op = none ∧ (∀ a, State.reset.byteAt a = Config.powerOnByte 0 a) ∧
  ∀ pin, pinLevel State.reset.trace pin = none

/-- R700, R701: block reset abandons a running operation without a code and makes no event; the registers are those of
R140. A byte the abandoned operation has stored stands; every other byte of memory is a new free value (R140, R205; how
the two rules fit together is log 9). -/
def Obligations.BlockResetFromAnyState : Prop :=
  ∀ (s : State) (rest : List Input), s.inputs = .blockReset :: rest →
    ∃ t, step s = .next t ∧ t.op = none ∧ t.trace = s.trace ∧ t.answers = s.answers ∧ t.draws = s.draws ∧
      t.cfg = s.cfg ∧ t.inputs = rest ∧ t.replies = s.replies ∧
      (∀ a, s.storedByOperation a → t.byteAt a = s.byteAt a) ∧
      (∀ a, ¬ s.storedByOperation a → t.byteAt a = Config.powerOnByte (s.fill.epoch + 1) a) ∧
      ∀ r, t.readReg r = match r with
        | .status => 0x600#32
        | .pollMs => s.cfg.defaultPollMs
        | .timeoutMs => s.cfg.defaultTimeoutMs
        | .ctrl => 1
        | _ => 0

/-! ### ENCODE -/

/-- ENCODE completes for every accepted grid, in both orientations (a square panel is landscape, R402): bit `z` of pixel
(x, y) is 0 just when its sample is below THRESHOLD (R403, R405, R406), the bits no pixel maps to are 1, and the frame. -/
def Obligations.EncodeWritesFrameBuffer : Prop :=
  ∀ (s : State) (portrait : Bool), s.inputs = [] → Memory.wf s.fill s.mem = true →
    let src := s.regs.src.toNat
    let dst := s.regs.dst.toNat
    let w := s.regs.imgW.toNat
    let h := s.regs.imgH.toNat
    let tw := s.regs.tgtW.toNat
    let th := s.regs.tgtH.toNat
    let nOut := (tw * th + 7) / 8
    (if portrait then (w = th ∧ h = tw) ∧ ¬ (w = tw ∧ h = th) else w = tw ∧ h = th) →
    (w * h = 0 ∨ src + w * h ≤ s.cfg.memSize.val) → (nOut = 0 ∨ dst + nOut ≤ s.cfg.memSize.val) →
    ¬ (0 < w * h ∧ 0 < nOut ∧ src < dst + nOut ∧ dst < src + w * h) →
    ∃ t k u, exec .encode s = .next t ∧ Sys2Proof.core.run k t = .next u ∧
      u = { s with
        mem := u.mem
        op := none
        err := .ok
        orient := if portrait then 1 else 0
        outLen := BitVec.ofNat 32 nOut } ∧
      (∀ x y, x < w → y < h →
        bitAt (u.bytesAt dst nOut) (if portrait then y + (th - x - 1) * tw else x + y * tw) =
          !decide ((s.byteAt (src + y * w + x)).toNat < s.cfg.threshold.val)) ∧
      (∀ z, tw * th ≤ z → z < 8 * nOut → bitAt (u.bytesAt dst nOut) z = true) ∧
      ∀ a, (a < dst ∨ dst + nOut ≤ a) → u.byteAt a = s.byteAt a

/-- ENCODE's errors in their order: the size, then the ranges, then the overlap; only ERR changes (R400, R610, R615). -/
def Obligations.EncodeErrors : Prop :=
  ∀ s : State, s.op = none →
    let src := s.regs.src.toNat
    let dst := s.regs.dst.toNat
    let n := s.regs.imgW.toNat * s.regs.imgH.toNat
    let nOut := (s.regs.tgtW.toNat * s.regs.tgtH.toNat + 7) / 8
    let fits := (s.regs.imgW = s.regs.tgtW ∧ s.regs.imgH = s.regs.tgtH) ∨
      (s.regs.imgW = s.regs.tgtH ∧ s.regs.imgH = s.regs.tgtW)
    (¬ fits → exec .encode s = .next { s with err := .dimensionMismatch }) ∧
    (fits → ((0 < n ∧ s.cfg.memSize.val < src + n) ∨ (0 < nOut ∧ s.cfg.memSize.val < dst + nOut)) →
      exec .encode s = .next { s with err := .addressError }) ∧
    (fits → 0 < n → 0 < nOut → src < dst + nOut → dst < src + n →
      exec .encode s = .next { s with err := .addressError })

/-- R408: a portrait grid and its rotation as a landscape grid give the same FrameBuffer. -/
def Obligations.EncodeRotationEquivalence : Prop :=
  ∀ (threshold tw th : Nat) (p : Nat → Nat → Byte),
    encodeBuffer threshold 1 th tw tw th p = encodeBuffer threshold 0 tw th tw th (fun u v => p (th - 1 - v) u)

/-! ### ASSEMBLE -/

/-- ASSEMBLE completes for every accepted input: the 70 header bytes (R316, R317; the header's offsets and signature are
what the spec marks as general knowledge, log 18), every code bit of every stored row,
bottom row first (R318, R319), the pad bits 1, and the frame. -/
def Obligations.AssembleWritesContainer : Prop :=
  ∀ s : State, s.inputs = [] → Memory.wf s.fill s.mem = true →
    let src := s.regs.src.toNat
    let dst := s.regs.dst.toNat
    let w := s.regs.imgW.toNat
    let h := s.regs.imgH.toNat
    let bpp := s.regs.bpp.toNat
    let n := s.regs.len.toNat
    let row := 4 * ((w * bpp + 31) / 32)
    let total := 70 + row * h
    (bpp = 1 ∨ bpp = 2 ∨ bpp = 4) → n = w * h → total < 4294967296 →
    (n = 0 ∨ src + n ≤ s.cfg.memSize.val) → dst + total ≤ s.cfg.memSize.val →
    ¬ (0 < n ∧ src < dst + total ∧ dst < src + n) →
    (∀ i, i < n → (s.byteAt (src + i)).toNat < if bpp = 1 then 2 else 4) →
    ∃ t k u, exec .assemble s = .next t ∧ Sys2Proof.core.run k t = .next u ∧
      u = { s with mem := u.mem, op := none, err := .ok, outLen := BitVec.ofNat 32 total } ∧
      u.bytesAt dst 70 =
        [0x42, 0x4D] ++ le32 total ++ [0, 0, 0, 0] ++ [70, 0, 0, 0] ++ [40, 0, 0, 0] ++ le32 w ++ le32 h ++ [1, 0] ++
        [BitVec.ofNat 8 bpp, 0] ++ List.replicate 16 0 ++ [4, 0, 0, 0] ++ [0, 0, 0, 0] ++
        [0, 0, 0, 0, 0x55, 0x55, 0x55, 0, 0xAA, 0xAA, 0xAA, 0, 0xFF, 0xFF, 0xFF, 0] ∧
      (∀ j x b, j < h → x < w → b < bpp →
        bitAt (u.bytesAt (dst + 70) (row * h)) (8 * row * j + x * bpp + b) =
          (s.byteAt (src + (h - 1 - j) * w + x)).getLsbD (bpp - 1 - b)) ∧
      (∀ j q, j < h → w * bpp ≤ q → q < 8 * row →
        bitAt (u.bytesAt (dst + 70) (row * h)) (8 * row * j + q) = true) ∧
      ∀ a, (a < dst ∨ dst + total ≤ a) → u.byteAt a = s.byteAt a

/-- ASSEMBLE's errors in their order: BPP, the count, the total, the ranges and the overlap, the codes; only ERR changes
(R450, R610, R615). -/
def Obligations.AssembleErrors : Prop :=
  ∀ s : State, s.op = none →
    let src := s.regs.src.toNat
    let dst := s.regs.dst.toNat
    let n := s.regs.len.toNat
    let bpp := s.regs.bpp.toNat
    let total := 70 + 4 * ((s.regs.imgW.toNat * bpp + 31) / 32) * s.regs.imgH.toNat
    let bppFits := bpp = 1 ∨ bpp = 2 ∨ bpp = 4
    let rangesFit := (n = 0 ∨ src + n ≤ s.cfg.memSize.val) ∧ dst + total ≤ s.cfg.memSize.val ∧
      ¬ (0 < n ∧ src < dst + total ∧ dst < src + n)
    (¬ bppFits → exec .assemble s = .next { s with err := .invalidArgument }) ∧
    (bppFits → n ≠ s.regs.imgW.toNat * s.regs.imgH.toNat →
      exec .assemble s = .next { s with err := .inconsistentPixelCount }) ∧
    (bppFits → n = s.regs.imgW.toNat * s.regs.imgH.toNat → 4294967295 < total →
      exec .assemble s = .next { s with err := .invalidArgument }) ∧
    (bppFits → n = s.regs.imgW.toNat * s.regs.imgH.toNat → total ≤ 4294967295 → ¬ rangesFit →
      exec .assemble s = .next { s with err := .addressError }) ∧
    (bppFits → n = s.regs.imgW.toNat * s.regs.imgH.toNat → total ≤ 4294967295 → rangesFit →
      (∃ i, i < n ∧ (if bpp = 1 then 2 else 4) ≤ (s.byteAt (src + i)).toNat) →
      exec .assemble s = .next { s with err := .invalidArgument })

/-- R459: read back as little-endian numbers, the size field of every container ASSEMBLE writes is OUT_LEN, and its width
and height fields are IMG_W and IMG_H. (The offsets 2, 18 and 22 of these fields are what the spec marks as general
knowledge, log 18.) -/
def Obligations.ContainerFieldsReadBack : Prop :=
  ∀ s r : State, ∀ run : Running, exec .assemble s = .next r → r.op = some run →
    let field (k : Nat) : Nat :=
      ((container s).getD k 0).toNat + 256 * ((container s).getD (k + 1) 0).toNat +
        65536 * ((container s).getD (k + 2) 0).toNat + 16777216 * ((container s).getD (k + 3) 0).toNat
    run.todo = storeActs s.regs.dst.toNat (container s) ∧ run.fin.store = lastStore s.regs.dst.toNat (container s) ∧
    field 2 = (container s).length ∧ run.fin.outLen = some (BitVec.ofNat 32 (container s).length) ∧
    field 18 = s.regs.imgW.toNat ∧ field 22 = s.regs.imgH.toNat ∧
    (container s).length = 70 + rowBytes s.regs.imgW.toNat s.regs.bpp.toNat * s.regs.imgH.toNat

/-! ### Transport operations -/

/-- R500, R501: RESET completes, and its events are exactly the six of the reset sequence. -/
def Obligations.ResetRunsTheSequence : Prop :=
  ∀ (s : State) (rest : List BusAnswer), s.inputs = [] → s.own = true →
    (s.phase = .unopened ∨ s.phase = .reset ∨ s.phase = .initialized) →
    AnswersOk s [.set .rst 1 true, .sleep 200, .set .rst 0 true, .sleep 10, .set .rst 1 true, .sleep 200] rest →
    ∃ t k, exec .reset s = .next t ∧ Sys2Proof.core.run k t = .next { s with
      op := none
      err := .ok
      phase := .reset
      answers := rest
      trace := s.trace ++
        [.set .rst 1 true, .sleep 200, .set .rst 0 true, .sleep 10, .set .rst 1 true, .sleep 200] }

/-- R505, R506: SEND_COMMAND completes, and its events frame OPBYTE[7:0]. -/
def Obligations.SendCommandFramesOneByte : Prop :=
  ∀ (s : State) (rest : List BusAnswer), s.inputs = [] → s.own = true →
    (s.phase = .reset ∨ s.phase = .initialized) →
    let events : List BusEvent :=
      [.set .dc s.cfg.dcCmdLevel true, .set .cs s.cfg.csActiveLevel true, .write [s.regs.opByte] true,
       .set .cs (1 - s.cfg.csActiveLevel) true]
    AnswersOk s events rest →
    ∃ t k, exec .sendCommand s = .next t ∧ Sys2Proof.core.run k t = .next { s with
      op := none
      err := .ok
      answers := rest
      trace := s.trace ++ events }

/-- R510 to R512: SEND_DATA completes in both profiles, for every payload, and its events are those of the profile. -/
def Obligations.SendDataFramesPayload : Prop :=
  ∀ (s : State) (rest : List BusAnswer), s.inputs = [] → s.own = true →
    (s.phase = .reset ∨ s.phase = .initialized) →
    (s.regs.len.toNat = 0 ∨ s.regs.src.toNat + s.regs.len.toNat ≤ s.cfg.memSize.val) →
    let bytes := s.bytesAt s.regs.src.toNat s.regs.len.toNat
    let events := if s.cfg.batchWrites then batchEvents s.cfg bytes else perByteEvents s.cfg bytes
    AnswersOk s events rest →
    ∃ t k, exec .sendData s = .next t ∧ Sys2Proof.core.run k t = .next { s with
      op := none
      err := .ok
      answers := rest
      trace := s.trace ++ events }

/-- R510: with the session ready, a payload range that does not fit buffer memory is ADDRESS_ERROR and nothing else. -/
def Obligations.SendDataRangeChecked : Prop :=
  ∀ s : State, s.op = none → s.own = true → (s.phase = .reset ∨ s.phase = .initialized) →
    0 < s.regs.len.toNat → s.cfg.memSize.val < s.regs.src.toNat + s.regs.len.toNat →
    exec .sendData s = .next { s with err := .addressError }

/-- R513: when every answer is ok, SEND_DATA sends the panel its payload in order, each byte with DC at the data level,
and in both profiles the same. The premises name no profile: the answers listed are ok and enough for either. -/
def Obligations.ProfilesSendSameBytes : Prop :=
  ∀ s : State, s.inputs = [] → s.own = true → (s.phase = .reset ∨ s.phase = .initialized) →
    (s.regs.len.toNat = 0 ∨ s.regs.src.toNat + s.regs.len.toNat ≤ s.cfg.memSize.val) →
    (∀ a ∈ s.answers, answerOk a = true) → 4 * s.regs.len.toNat ≤ s.answers.length →
    ∀ batch : Bool, ∃ t k u new,
      exec .sendData { s with cfg := { s.cfg with batchWrites := batch } } = .next t ∧
      Sys2Proof.core.run k t = .next u ∧ u.running = false ∧ u.err = .ok ∧ u.trace = s.trace ++ new ∧
      ∀ dc, wireBytes dc new =
        (s.bytesAt s.regs.src.toNat s.regs.len.toNat).map (fun b => (some (1 - s.cfg.dcCmdLevel), b))

/-- R513 with spec/93_implementation_defined.md I11: in the batch profile, a write that answers fail ends SEND_DATA, and
the panel may have received any prefix of the payload, or none: `sent` is any number. -/
def Obligations.FailedWriteSendsAnyPrefix : Prop :=
  ∀ (s : State) (l m : Level) (sent : Nat) (rest : List BusAnswer), s.inputs = [] → s.own = true →
    (s.phase = .reset ∨ s.phase = .initialized) → s.cfg.batchWrites = true → 0 < s.regs.len.toNat →
    s.regs.src.toNat + s.regs.len.toNat ≤ s.cfg.memSize.val →
    s.answers = .ok l :: .ok m :: .fail sent :: rest →
    ∃ t k u new, exec .sendData s = .next t ∧ Sys2Proof.core.run k t = .next u ∧ u.running = false ∧
      u.err = .transportIoError ∧ u.phase = .failed ∧ u.answers = rest ∧ u.trace = s.trace ++ new ∧
      ∀ dc, wireBytes dc new =
        ((s.bytesAt s.regs.src.toNat s.regs.len.toNat).take sent).map (fun b => (some (1 - s.cfg.dcCmdLevel), b))

/-- R515, R516: WAIT_READY completes when the line reads idle after `n` busy polls, none of them made at or past the
timeout. -/
def Obligations.WaitReadyEndsWhenIdle : Prop :=
  ∀ (s : State) (n : Nat) (idle : Level) (rest : List BusAnswer), s.inputs = [] → s.own = true →
    (s.phase = .reset ∨ s.phase = .initialized) → idle ≠ s.cfg.busyLevel →
    (s.regs.timeoutEn = 1 → ∀ k, k < n → k * s.regs.pollMs.toNat < s.regs.timeoutMs.toNat) →
    s.answers = List.replicate n (.ok s.cfg.busyLevel) ++ .ok idle :: rest →
    ∃ t k, exec .waitReady s = .next t ∧ Sys2Proof.core.run k t = .next { s with
      op := none
      err := .ok
      answers := rest
      trace := s.trace ++ busyRounds s.cfg.busyLevel s.regs.pollMs.toNat n ++ [.read (some idle)] }

/-- R516, R521: WAIT_READY on a line that stays busy ends with BUSY_TIMEOUT at the first poll at which the elapsed sleeps
have reached the timeout; with TIMEOUT_MS = 0 that is the first poll, and there is no sleep. -/
def Obligations.WaitReadyTimesOut : Prop :=
  ∀ (s : State) (n : Nat) (rest : List BusAnswer), s.inputs = [] → s.own = true →
    (s.phase = .reset ∨ s.phase = .initialized) → s.regs.timeoutEn = 1 →
    (∀ k, k < n → k * s.regs.pollMs.toNat < s.regs.timeoutMs.toNat) →
    s.regs.timeoutMs.toNat ≤ n * s.regs.pollMs.toNat →
    s.answers = List.replicate (n + 1) (.ok s.cfg.busyLevel) ++ rest →
    ∃ t k, exec .waitReady s = .next t ∧ Sys2Proof.core.run k t = .next { s with
      op := none
      err := .busyTimeout
      phase := .failed
      answers := rest
      trace := s.trace ++ busyRounds s.cfg.busyLevel s.regs.pollMs.toNat n ++ [.read (some s.cfg.busyLevel)] }

/-- R519: a wait without a timeout, or with POLL_MS = 0 and a timeout not yet reached, goes on for as long as the line
reads busy: after any number of busy polls the operation still runs, ERR unchanged. -/
def Obligations.WaitMayNeverEnd : Prop :=
  ∀ (s : State) (r : Running) (w : Wait) (acts : List Act) (n : Nat) (rest : List BusAnswer), s.inputs = [] →
    s.op = some r → r.todo = .poll w :: acts →
    (w.timeout = none ∨ (w.poll = 0 ∧ ∃ t, w.timeout = some t ∧ w.elapsed < t)) →
    s.answers = List.replicate n (.ok s.cfg.busyLevel) ++ rest →
    ∀ j, j ≤ 2 * n → ∃ u, Sys2Proof.core.run j s = .next u ∧ u.running = true ∧ u.err = s.err ∧ u.phase = s.phase

/-- R112: every operation finishes, whatever the BusLine answers, but for those with a wait and either no timeout or
POLL_MS = 0 with TIMEOUT_MS > 0. -/
def Obligations.EveryOperationFinishes : Prop :=
  ∀ (i : Instr) (s : State), s.inputs = [] →
    (i = .waitReady ∨ i = .init ∨ i = .clear ∨ i = .display ∨ i = .sleep →
      s.regs.timeoutEn = 1 ∧ (s.regs.pollMs ≠ 0 ∨ s.regs.timeoutMs = 0)) →
    ∃ t k u, exec i s = .next t ∧ Sys2Proof.core.run k t = .next u ∧ u.running = false

/-- R520 and the checks of R555, R560, R565 and R570: an operation started with OWN = 0 or in a phase that does not accept
it is INVALID_STATE, whatever its operands, and changes ERR only. -/
def Obligations.WrongPhaseIsInvalidState : Prop :=
  ∀ (s : State) (i : Instr), s.op = none →
    (i = .reset ∧ ¬ (s.own = true ∧ (s.phase = .unopened ∨ s.phase = .reset ∨ s.phase = .initialized)) ∨
     (i = .sendCommand ∨ i = .sendData ∨ i = .waitReady) ∧
       ¬ (s.own = true ∧ (s.phase = .reset ∨ s.phase = .initialized)) ∨
     i = .init ∧ ¬ (s.own = true ∧ (s.phase = .unopened ∨ s.phase = .reset)) ∨
     (i = .clear ∨ i = .display ∨ i = .sleep) ∧ ¬ (s.own = true ∧ s.phase = .initialized)) →
    exec i s = .next { s with err := .invalidState }

/-- R521, R553, R616: a `set`, `write` or `read` of a running operation that answers fail is its last event. The operation
ends with INIT_FAILURE inside INIT, else TRANSPORT_IO_ERROR; PHASE is Failed and nothing else changes. (In how many
transitions is the model's choice, log 3: the statement leaves it open.) -/
def Obligations.FailedPrimitiveEndsOperation : Prop :=
  ∀ (s : State) (r : Running) (a : Act) (acts : List Act) (e : BusEvent) (sent : Nat) (rest : List BusAnswer),
    s.inputs = [] → s.op = some r → r.todo = a :: acts → s.answers = .fail sent :: rest →
    ((∃ pin l, a = .set pin l ∧ e = .set pin l false) ∨
      (∃ bs, a = .write bs ∧ e = .write bs false (min sent bs.length)) ∨ (∃ w, a = .poll w ∧ e = .read none)) →
    ∃ k, Sys2Proof.core.run k s = .next { s with
      op := none
      err := if r.op = .init then .initFailure else .transportIoError
      phase := .failed
      answers := rest
      trace := s.trace ++ [e] }

/-- R516, R553: in every operation, a busy poll made when the elapsed sleeps have reached the timeout is the operation's
last event, and the operation ends with BUSY_TIMEOUT in phase Failed, OWN unchanged. (In how many transitions is the
model's choice, log 3: the statement leaves it open.) -/
def Obligations.TimeoutEndsOperation : Prop :=
  ∀ (s : State) (r : Running) (w : Wait) (t : Nat) (acts : List Act) (rest : List BusAnswer), s.inputs = [] →
    s.op = some r → r.todo = .poll w :: acts → w.timeout = some t → t ≤ w.elapsed →
    s.answers = .ok s.cfg.busyLevel :: rest →
    ∃ k, Sys2Proof.core.run k s = .next { s with
      op := none
      err := .busyTimeout
      phase := .failed
      answers := rest
      trace := s.trace ++ [.read (some s.cfg.busyLevel)] }

/-! ### Session operations -/

/-- R550: OPEN tests and sets OWN in one transition; a second OPEN is BUS_BUSY and changes nothing else. -/
def Obligations.OpenTakesTheBusOnce : Prop :=
  ∀ s : State, s.op = none →
    (s.own = false → exec .openSession s = .next { s with own := true, phase := .unopened, err := .ok }) ∧
    (s.own = true → exec .openSession s = .next { s with err := .busBusy })

/-- R555, R556: INIT completes: the panel reset, the three power-up frames in order, one wait (idle after `n` busy polls),
then Initialized. -/
def Obligations.InitCompletes : Prop :=
  ∀ (s : State) (n : Nat) (idle : Level) (rest : List BusAnswer), s.inputs = [] → s.own = true →
    (s.phase = .unopened ∨ s.phase = .reset) → idle ≠ s.cfg.busyLevel → withinTimeout s.regs.wait n →
    AnswersOk s (initEvents s.cfg) (IdleAfter s.cfg n idle rest) →
    ∃ t k, exec .init s = .next t ∧ Sys2Proof.core.run k t = .next { s with
      op := none
      err := .ok
      phase := .initialized
      answers := rest
      trace := s.trace ++ initEvents s.cfg ++ busyRounds s.cfg.busyLevel s.regs.pollMs.toNat n ++
        [.read (some idle)] }

/-- R552: INIT's PHASE becomes Reset once its six reset events are made, and it stays Reset for as long as the operation
runs. (That the PHASE write is a transition of its own, the seventh, is the model's cut, log 1.) -/
def Obligations.InitEntersReset : Prop :=
  ∀ (s : State) (rest : List BusAnswer), s.inputs = [] → s.own = true →
    (s.phase = .unopened ∨ s.phase = .reset) → AnswersOk s resetEvents rest →
    ∃ t u, exec .init s = .next t ∧ t.phase = s.phase ∧ Sys2Proof.core.run 7 t = .next u ∧
      u.phase = .reset ∧ u.running = true ∧ u.trace = s.trace ++ resetEvents ∧
      ∀ j v, Sys2Proof.core.run j u = .next v → v.running = true → v.phase = .reset

/-- R560: CLEAR completes: two planes of `size` bytes 0xFF, the refresh trigger, one wait; PHASE is Clearing in every
state in which it runs, from the CMD write on (log 2: that the write of PHASE is part of that transition is the model's
choice), and Initialized at the end. -/
def Obligations.ClearCompletes : Prop :=
  ∀ (s : State) (n : Nat) (idle : Level) (rest : List BusAnswer), s.inputs = [] → s.own = true →
    s.phase = .initialized → idle ≠ s.cfg.busyLevel → withinTimeout s.regs.wait n →
    let plane : List Byte := List.replicate ((s.cfg.panelW.val * s.cfg.panelH.val + 7) / 8) 0xFF
    AnswersOk s (refreshEvents s.cfg plane plane) (IdleAfter s.cfg n idle rest) →
    ∃ t k, exec .clear s = .next t ∧ t.phase = .clearing ∧ t.running = true ∧
      (∀ j v, Sys2Proof.core.run j t = .next v → v.running = true → v.phase = .clearing) ∧
      Sys2Proof.core.run k t = .next { s with
        op := none
        err := .ok
        answers := rest
        trace := s.trace ++ refreshEvents s.cfg plane plane ++
          busyRounds s.cfg.busyLevel s.regs.pollMs.toNat n ++ [.read (some idle)] }

/-- R565: DISPLAY completes: the two planes as they stand in buffer memory, the refresh trigger, one wait; PHASE is
Displaying in every state in which it runs, from the CMD write on (log 2: the model's choice), and Initialized at the
end. -/
def Obligations.DisplayCompletes : Prop :=
  ∀ (s : State) (n : Nat) (idle : Level) (rest : List BusAnswer), s.inputs = [] → s.own = true →
    s.phase = .initialized → idle ≠ s.cfg.busyLevel → withinTimeout s.regs.wait n →
    let size := (s.cfg.panelW.val * s.cfg.panelH.val + 7) / 8
    s.regs.len.toNat = size → s.regs.len2.toNat = size →
    (size = 0 ∨ s.regs.src.toNat + size ≤ s.cfg.memSize.val) →
    (size = 0 ∨ s.regs.src2.toNat + size ≤ s.cfg.memSize.val) →
    let events := refreshEvents s.cfg (s.bytesAt s.regs.src.toNat size) (s.bytesAt s.regs.src2.toNat size)
    AnswersOk s events (IdleAfter s.cfg n idle rest) →
    ∃ t k, exec .display s = .next t ∧ t.phase = .displaying ∧ t.running = true ∧
      (∀ j v, Sys2Proof.core.run j t = .next v → v.running = true → v.phase = .displaying) ∧
      Sys2Proof.core.run k t = .next { s with
        op := none
        err := .ok
        answers := rest
        trace := s.trace ++ events ++ busyRounds s.cfg.busyLevel s.regs.pollMs.toNat n ++ [.read (some idle)] }

/-- R565: with the session ready, a plane of the wrong length is DIMENSION_MISMATCH, then a range outside buffer memory is
ADDRESS_ERROR; neither makes an event or changes PHASE. -/
def Obligations.DisplayErrors : Prop :=
  ∀ s : State, s.op = none → s.own = true → s.phase = .initialized →
    let size := (s.cfg.panelW.val * s.cfg.panelH.val + 7) / 8
    ((s.regs.len.toNat ≠ size ∨ s.regs.len2.toNat ≠ size) →
      exec .display s = .next { s with err := .dimensionMismatch }) ∧
    (s.regs.len.toNat = size → s.regs.len2.toNat = size → 0 < size →
      (s.cfg.memSize.val < s.regs.src.toNat + size ∨ s.cfg.memSize.val < s.regs.src2.toNat + size) →
      exec .display s = .next { s with err := .addressError })

/-- R570: SLEEP completes: the power-off frame, one wait, the deep-sleep frame; PHASE is Sleeping in every state in
which it runs, from the CMD write on (log 2: the model's choice), and Closed at the end, and OWN stays 1. -/
def Obligations.SleepCompletes : Prop :=
  ∀ (s : State) (n : Nat) (idle : Level) (mid rest : List BusAnswer), s.inputs = [] → s.own = true →
    s.phase = .initialized → idle ≠ s.cfg.busyLevel → withinTimeout s.regs.wait n →
    let off := frameEvents s.cfg s.cfg.opcPowerOff s.cfg.payPowerOff
    let deep := frameEvents s.cfg s.cfg.opcDeepSleep s.cfg.payDeepSleep
    AnswersOk s off (IdleAfter s.cfg n idle mid) → AnswersOk { s with answers := mid } deep rest →
    ∃ t k, exec .sleep s = .next t ∧ t.phase = .sleeping ∧ t.running = true ∧
      (∀ j v, Sys2Proof.core.run j t = .next v → v.running = true → v.phase = .sleeping) ∧
      Sys2Proof.core.run k t = .next { s with
        op := none
        err := .ok
        phase := .closed
        answers := rest
        trace := s.trace ++ off ++ busyRounds s.cfg.busyLevel s.regs.pollMs.toNat n ++ [.read (some idle)] ++ deep }

/-- R575: CLOSE completes in every phase and with every answer. With OWN = 1 it makes one `set` for each of SAFE_LEVELS, a
fail stopping nothing; with OWN = 0 it makes none. It ends with OWN = 0, PHASE Closed and OK. -/
def Obligations.CloseAlwaysCompletes : Prop :=
  ∀ s : State, s.inputs = [] →
    (s.own = false → ∃ t k, exec .close s = .next t ∧
      Sys2Proof.core.run k t = .next { s with op := none, err := .ok, phase := .closed }) ∧
    (∀ oks rest : List BusAnswer, s.own = true → s.answers = oks ++ rest →
      oks.length = s.cfg.safeLevels.length →
      ∃ t k, exec .close s = .next t ∧ Sys2Proof.core.run k t = .next { s with
        op := none
        err := .ok
        phase := .closed
        own := false
        answers := rest
        trace := s.trace ++ (s.cfg.safeLevels.zip oks).map (fun q => .set q.1.1 q.1.2 (answerOk q.2)) })

/-! ### Whole-machine rules -/

/-- The reset state is legal. -/
def Obligations.ResetIsLegal : Prop :=
  Legal State.reset

/-- R122, R120: from every legal state, every step leads to a legal state: memory stays canonical and inside MEM_SIZE,
OWN = 0 only with PHASE = Closed, the transient phases only while their operation runs, and a running operation holds only
the transitions its rule gives it. -/
def Obligations.StepKeepsLegal : Prop :=
  ∀ s t : State, Legal s → step s = .next t → Legal t

/-- The reset state's port is framed. -/
def Obligations.ResetIsFramed : Prop :=
  Framed State.reset

/-- R506, R511, R512: from every state whose port is framed, every step keeps it so: no byte is ever written to the BusLine
but directly after DC and chip-select were set for it. -/
def Obligations.StepKeepsFramed : Prop :=
  ∀ s t : State, Framed s → step s = .next t → Framed t

/-- R121: the BusLine is used only while OWN = 1. -/
def Obligations.BusEventsNeedOwnership : Prop :=
  ∀ s t : State, Legal s → step s = .next t → t.trace ≠ s.trace → s.own = true ∧ s.running = true

/-- R121: OPEN, by a host write of its word to CMD, sets OWN, CLOSE clears it, and no other operation changes it; a block reset clears it too. -/
def Obligations.OnlyOpenAndCloseChangeOwn : Prop :=
  ∀ s t : State, Legal s → step s = .next t → t.own ≠ s.own →
    (t.own = true ∧ t.phase = .unopened ∧ s.running = false ∧ t.running = false ∧
      ∃ loc v rest, s.inputs = .host (.regWrite loc 4 v) :: rest ∧ Loc.hits s.cfg loc 0 ∧
        decode v = .ok .openSession) ∨
    (t.own = false ∧ t.phase = .closed ∧ ∃ r, s.op = some r ∧ r.op = .close ∧ r.todo = []) ∨
    (t.own = false ∧ ∃ rest, s.inputs = .blockReset :: rest)

/-- R621: PHASE stays Failed until a CLOSE ends or the block is reset. -/
def Obligations.FailedUntilClose : Prop :=
  ∀ s t : State, Legal s → step s = .next t → s.phase = .failed → t.phase ≠ .failed →
    t.phase = .closed ∧
      ((∃ r, s.op = some r ∧ r.op = .close ∧ r.todo = []) ∨ ∃ rest, s.inputs = .blockReset :: rest)

/-- R582: from Closed or Failed no step leads anywhere but to Closed or Failed, or, with OWN = 0, to a fresh session. -/
def Obligations.ClosedOrFailedNeverInitialized : Prop :=
  ∀ s t : State, Legal s → step s = .next t → (s.phase = .closed ∨ s.phase = .failed) →
    t.phase = .closed ∨ t.phase = .failed ∨ (s.own = false ∧ t.own = true ∧ t.phase = .unopened)

/-- R130: a running operation reads only its latch. Changing the registers under it changes nothing it does. -/
def Obligations.OperationReadsOnlyItsLatch : Prop :=
  (∀ (i : Instr) (s t : State) (r : Running), exec i s = .next t → t.op = some r → r.latch = s.regs) ∧
  (∀ (s : State) (k : Nat) (regs : Regs) (u : State), s.inputs = [] → Sys2Proof.core.run k s = .next u →
    Sys2Proof.core.run k { s with regs := regs } = .next { u with regs := regs })

/-- R101: operations never write the RW registers, whatever they do: a step changes one only if it is a host write of a
register other than CMD with no operation running, or a block reset. -/
def Obligations.OperationsNeverWriteRegisters : Prop :=
  ∀ s t : State, step s = .next t → t.regs ≠ s.regs →
    s.running = false ∧ (∃ r loc v rest, s.inputs = .host (.regWrite loc 4 v) :: rest ∧ Loc.hits s.cfg loc r.offset ∧
      r ≠ .cmd ∧ t.regs = s.regs.write r v) ∨
    ∃ rest, s.inputs = .blockReset :: rest

/-- R111: while an operation goes on, ERR, OWN, ORIENT and OUT_LEN keep their values; they change with the end of RUN, and
ERR is then the finishing transition's code. (That the finishing transition makes no event is the model's choice,
log 3.) -/
def Obligations.ResultsChangeOnlyAtFinish : Prop :=
  ∀ (s t : State) (r : Running), s.inputs = [] → s.op = some r → step s = .next t →
    (t.running = true ∧ t.err = s.err ∧ t.own = s.own ∧ t.orient = s.orient ∧ t.outLen = s.outLen) ∨
    (t.running = false ∧ r.todo = [] ∧ t.err = r.fin.err ∧ t.trace = s.trace)

/-- R205, R401, R451: a transition of the block changes a byte of memory only inside the destination range of the ENCODE or
ASSEMBLE that runs; those two touch neither the BusLine nor PHASE nor OWN; every other operation leaves all of memory,
OUT_LEN and ORIENT alone. -/
def Obligations.BlockWritesOnlyItsDestination : Prop :=
  ∀ (s t : State) (r : Running), Legal s → s.inputs = [] → s.op = some r → step s = .next t →
    (r.op = .encode ∨ r.op = .assemble →
      t.trace = s.trace ∧ t.answers = s.answers ∧ t.draws = s.draws ∧ t.phase = s.phase ∧ t.own = s.own ∧
      ∀ a, (∀ q ∈ destRanges r.op r.latch, a < q.1 ∨ q.1 + q.2 ≤ a) → t.byteAt a = s.byteAt a) ∧
    (r.op ≠ .encode → r.op ≠ .assemble → t.mem = s.mem ∧ t.fill = s.fill ∧ t.outLen = s.outLen ∧
      t.orient = s.orient)

/-- R231: an accepted host access leaves a running operation, the BusLine, the session and every byte of the operation's
ranges as they were. -/
def Obligations.HostCannotDisturbOperation : Prop :=
  ∀ (s t : State) (r : Running) (x : Access) (rest : List Input), s.inputs = .host x :: rest → s.op = some r →
    step s = .next t →
    t = { s with inputs := rest, mem := t.mem, replies := t.replies } ∧
    ∀ q ∈ sourceRanges r.op r.latch ++ destRanges r.op r.latch, ∀ a, q.1 ≤ a → a < q.1 + q.2 →
      t.byteAt a = s.byteAt a

/-- R212: the events of a run, and what it does to memory and the session, depend on neither the events already made, nor
the values read so far, nor ERR, ORIENT and OUT_LEN. -/
def Obligations.EventsIgnoreResults : Prop :=
  ∀ (k : Nat) (s t : State) (tr : List BusEvent) (rp : List Reply) (e : ErrCode) (o : Level) (l : Word),
    Sys2Proof.core.run k s = .next t →
    ∃ t' new, Sys2Proof.core.run k { s with trace := tr, replies := rp, err := e, orient := o, outLen := l } = .next t' ∧
      t.trace = s.trace ++ new ∧ t'.trace = tr ++ new ∧ t'.mem = t.mem ∧ t'.fill = t.fill ∧ t'.phase = t.phase ∧ t'.own = t.own ∧
      t'.op = t.op ∧ t'.regs = t.regs ∧ t'.answers = t.answers ∧ t'.draws = t.draws
end

