-- ==== Sys2Proof/Laws/State.lean ====
section
/-! SUPPORT. What each state update leaves in each field: one lemma per field per update, so that no later proof
unfolds a record update. -/

namespace Sys2Proof.Machine

variable (s : State)


/-! ### One byte written -/

@[simp] theorem State.setByte_cfg (a : Nat) (b : Byte) : (s.setByte a b).cfg = s.cfg := rfl
@[simp] theorem State.setByte_fill (a : Nat) (b : Byte) : (s.setByte a b).fill = s.fill := rfl
@[simp] theorem State.setByte_regs (a : Nat) (b : Byte) : (s.setByte a b).regs = s.regs := rfl
@[simp] theorem State.setByte_outLen (a : Nat) (b : Byte) : (s.setByte a b).outLen = s.outLen := rfl
@[simp] theorem State.setByte_err (a : Nat) (b : Byte) : (s.setByte a b).err = s.err := rfl
@[simp] theorem State.setByte_phase (a : Nat) (b : Byte) : (s.setByte a b).phase = s.phase := rfl
@[simp] theorem State.setByte_own (a : Nat) (b : Byte) : (s.setByte a b).own = s.own := rfl
@[simp] theorem State.setByte_orient (a : Nat) (b : Byte) : (s.setByte a b).orient = s.orient := rfl
@[simp] theorem State.setByte_op (a : Nat) (b : Byte) : (s.setByte a b).op = s.op := rfl
@[simp] theorem State.setByte_mem (a : Nat) (b : Byte) : (s.setByte a b).mem = Memory.write s.fill s.mem a b := rfl
@[simp] theorem State.setByte_trace (a : Nat) (b : Byte) : (s.setByte a b).trace = s.trace := rfl
@[simp] theorem State.setByte_answers (a : Nat) (b : Byte) : (s.setByte a b).answers = s.answers := rfl
@[simp] theorem State.setByte_draws (a : Nat) (b : Byte) : (s.setByte a b).draws = s.draws := rfl
@[simp] theorem State.setByte_inputs (a : Nat) (b : Byte) : (s.setByte a b).inputs = s.inputs := rfl
@[simp] theorem State.setByte_replies (a : Nat) (b : Byte) : (s.setByte a b).replies = s.replies := rfl

/-! ### One event -/

@[simp] theorem State.emit_cfg (e : BusEvent) : (s.emit e).cfg = s.cfg := rfl
@[simp] theorem State.emit_fill (e : BusEvent) : (s.emit e).fill = s.fill := rfl
@[simp] theorem State.emit_regs (e : BusEvent) : (s.emit e).regs = s.regs := rfl
@[simp] theorem State.emit_outLen (e : BusEvent) : (s.emit e).outLen = s.outLen := rfl
@[simp] theorem State.emit_err (e : BusEvent) : (s.emit e).err = s.err := rfl
@[simp] theorem State.emit_phase (e : BusEvent) : (s.emit e).phase = s.phase := rfl
@[simp] theorem State.emit_own (e : BusEvent) : (s.emit e).own = s.own := rfl
@[simp] theorem State.emit_orient (e : BusEvent) : (s.emit e).orient = s.orient := rfl
@[simp] theorem State.emit_op (e : BusEvent) : (s.emit e).op = s.op := rfl
@[simp] theorem State.emit_mem (e : BusEvent) : (s.emit e).mem = s.mem := rfl
@[simp] theorem State.emit_trace (e : BusEvent) : (s.emit e).trace = s.trace ++ [e] := rfl
@[simp] theorem State.emit_answers (e : BusEvent) : (s.emit e).answers = s.answers := rfl
@[simp] theorem State.emit_draws (e : BusEvent) : (s.emit e).draws = s.draws := rfl
@[simp] theorem State.emit_inputs (e : BusEvent) : (s.emit e).inputs = s.inputs := rfl
@[simp] theorem State.emit_replies (e : BusEvent) : (s.emit e).replies = s.replies := rfl

/-! ### One answer taken -/

@[simp] theorem State.afterAnswer_cfg : s.afterAnswer.cfg = s.cfg := by
  unfold State.afterAnswer; split <;> simp_all
@[simp] theorem State.afterAnswer_fill : s.afterAnswer.fill = s.fill := by
  unfold State.afterAnswer; split <;> simp_all
@[simp] theorem State.afterAnswer_regs : s.afterAnswer.regs = s.regs := by
  unfold State.afterAnswer; split <;> simp_all
@[simp] theorem State.afterAnswer_outLen : s.afterAnswer.outLen = s.outLen := by
  unfold State.afterAnswer; split <;> simp_all
@[simp] theorem State.afterAnswer_err : s.afterAnswer.err = s.err := by
  unfold State.afterAnswer; split <;> simp_all
@[simp] theorem State.afterAnswer_phase : s.afterAnswer.phase = s.phase := by
  unfold State.afterAnswer; split <;> simp_all
@[simp] theorem State.afterAnswer_own : s.afterAnswer.own = s.own := by
  unfold State.afterAnswer; split <;> simp_all
@[simp] theorem State.afterAnswer_orient : s.afterAnswer.orient = s.orient := by
  unfold State.afterAnswer; split <;> simp_all
@[simp] theorem State.afterAnswer_op : s.afterAnswer.op = s.op := by
  unfold State.afterAnswer; split <;> simp_all
@[simp] theorem State.afterAnswer_mem : s.afterAnswer.mem = s.mem := by
  unfold State.afterAnswer; split <;> simp_all
@[simp] theorem State.afterAnswer_trace : s.afterAnswer.trace = s.trace := by
  unfold State.afterAnswer; split <;> simp_all
@[simp] theorem State.afterAnswer_answers : s.afterAnswer.answers = s.answers.tail := by
  unfold State.afterAnswer; split <;> simp_all
@[simp] theorem State.afterAnswer_inputs : s.afterAnswer.inputs = s.inputs := by
  unfold State.afterAnswer; split <;> simp_all
@[simp] theorem State.afterAnswer_replies : s.afterAnswer.replies = s.replies := by
  unfold State.afterAnswer; split <;> simp_all

theorem State.afterAnswer_draws_listed (h : s.answers ≠ []) : s.afterAnswer.draws = s.draws := by
  unfold State.afterAnswer; split <;> simp_all

theorem State.afterAnswer_of_cons {a : BusAnswer} {rest : List BusAnswer} (h : s.answers = a :: rest) :
    s.afterAnswer = { s with answers := rest } := by
  simp only [State.afterAnswer, h]

theorem State.nextAnswer_of_cons {a : BusAnswer} {rest : List BusAnswer} (h : s.answers = a :: rest) :
    s.nextAnswer = a := by
  simp only [State.nextAnswer, h]

/-- A write that answered ok has sent all its bytes. -/
theorem bytesSent_of_ok {a : BusAnswer} {bs : List Byte} (h : answerOk a = true) : bytesSent bs a = bs.length := by
  cases a with
  | ok _ => rfl
  | fail _ => simp [answerOk] at h

/-! ### `Bus.set` -/

@[simp] theorem State.busSet_cfg (pin : Pin) (l : Level) : (s.busSet pin l).cfg = s.cfg := by
  simp [State.busSet]
@[simp] theorem State.busSet_fill (pin : Pin) (l : Level) : (s.busSet pin l).fill = s.fill := by
  simp [State.busSet]
@[simp] theorem State.busSet_regs (pin : Pin) (l : Level) : (s.busSet pin l).regs = s.regs := by
  simp [State.busSet]
@[simp] theorem State.busSet_outLen (pin : Pin) (l : Level) : (s.busSet pin l).outLen = s.outLen := by
  simp [State.busSet]
@[simp] theorem State.busSet_err (pin : Pin) (l : Level) : (s.busSet pin l).err = s.err := by
  simp [State.busSet]
@[simp] theorem State.busSet_phase (pin : Pin) (l : Level) : (s.busSet pin l).phase = s.phase := by
  simp [State.busSet]
@[simp] theorem State.busSet_own (pin : Pin) (l : Level) : (s.busSet pin l).own = s.own := by
  simp [State.busSet]
@[simp] theorem State.busSet_orient (pin : Pin) (l : Level) : (s.busSet pin l).orient = s.orient := by
  simp [State.busSet]
@[simp] theorem State.busSet_op (pin : Pin) (l : Level) : (s.busSet pin l).op = s.op := by
  simp [State.busSet]
@[simp] theorem State.busSet_mem (pin : Pin) (l : Level) : (s.busSet pin l).mem = s.mem := by
  simp [State.busSet]
@[simp] theorem State.busSet_trace (pin : Pin) (l : Level) : (s.busSet pin l).trace = s.trace ++ [.set pin l (answerOk s.nextAnswer)] := by
  simp [State.busSet]
@[simp] theorem State.busSet_answers (pin : Pin) (l : Level) : (s.busSet pin l).answers = s.answers.tail := by
  simp [State.busSet]
@[simp] theorem State.busSet_draws (pin : Pin) (l : Level) : (s.busSet pin l).draws = s.afterAnswer.draws := by
  simp [State.busSet]
@[simp] theorem State.busSet_inputs (pin : Pin) (l : Level) : (s.busSet pin l).inputs = s.inputs := by
  simp [State.busSet]
@[simp] theorem State.busSet_replies (pin : Pin) (l : Level) : (s.busSet pin l).replies = s.replies := by
  simp [State.busSet]

/-! ### `Bus.write` -/

@[simp] theorem State.busWrite_cfg (bs : List Byte) : (s.busWrite bs).cfg = s.cfg := by
  simp [State.busWrite]
@[simp] theorem State.busWrite_fill (bs : List Byte) : (s.busWrite bs).fill = s.fill := by
  simp [State.busWrite]
@[simp] theorem State.busWrite_regs (bs : List Byte) : (s.busWrite bs).regs = s.regs := by
  simp [State.busWrite]
@[simp] theorem State.busWrite_outLen (bs : List Byte) : (s.busWrite bs).outLen = s.outLen := by
  simp [State.busWrite]
@[simp] theorem State.busWrite_err (bs : List Byte) : (s.busWrite bs).err = s.err := by
  simp [State.busWrite]
@[simp] theorem State.busWrite_phase (bs : List Byte) : (s.busWrite bs).phase = s.phase := by
  simp [State.busWrite]
@[simp] theorem State.busWrite_own (bs : List Byte) : (s.busWrite bs).own = s.own := by
  simp [State.busWrite]
@[simp] theorem State.busWrite_orient (bs : List Byte) : (s.busWrite bs).orient = s.orient := by
  simp [State.busWrite]
@[simp] theorem State.busWrite_op (bs : List Byte) : (s.busWrite bs).op = s.op := by
  simp [State.busWrite]
@[simp] theorem State.busWrite_mem (bs : List Byte) : (s.busWrite bs).mem = s.mem := by
  simp [State.busWrite]
@[simp] theorem State.busWrite_trace (bs : List Byte) : (s.busWrite bs).trace = s.trace ++ [.write bs (answerOk s.nextAnswer) (bytesSent bs s.nextAnswer)] := by
  simp [State.busWrite]
@[simp] theorem State.busWrite_answers (bs : List Byte) : (s.busWrite bs).answers = s.answers.tail := by
  simp [State.busWrite]
@[simp] theorem State.busWrite_draws (bs : List Byte) : (s.busWrite bs).draws = s.afterAnswer.draws := by
  simp [State.busWrite]
@[simp] theorem State.busWrite_inputs (bs : List Byte) : (s.busWrite bs).inputs = s.inputs := by
  simp [State.busWrite]
@[simp] theorem State.busWrite_replies (bs : List Byte) : (s.busWrite bs).replies = s.replies := by
  simp [State.busWrite]

/-! ### `Bus.read` -/

@[simp] theorem State.busRead_cfg : s.busRead.cfg = s.cfg := by
  simp [State.busRead]
@[simp] theorem State.busRead_fill : s.busRead.fill = s.fill := by
  simp [State.busRead]
@[simp] theorem State.busRead_regs : s.busRead.regs = s.regs := by
  simp [State.busRead]
@[simp] theorem State.busRead_outLen : s.busRead.outLen = s.outLen := by
  simp [State.busRead]
@[simp] theorem State.busRead_err : s.busRead.err = s.err := by
  simp [State.busRead]
@[simp] theorem State.busRead_phase : s.busRead.phase = s.phase := by
  simp [State.busRead]
@[simp] theorem State.busRead_own : s.busRead.own = s.own := by
  simp [State.busRead]
@[simp] theorem State.busRead_orient : s.busRead.orient = s.orient := by
  simp [State.busRead]
@[simp] theorem State.busRead_op : s.busRead.op = s.op := by
  simp [State.busRead]
@[simp] theorem State.busRead_mem : s.busRead.mem = s.mem := by
  simp [State.busRead]
@[simp] theorem State.busRead_trace : s.busRead.trace = s.trace ++ [.read (answerLevel s.nextAnswer)] := by
  simp [State.busRead]
@[simp] theorem State.busRead_answers : s.busRead.answers = s.answers.tail := by
  simp [State.busRead]
@[simp] theorem State.busRead_draws : s.busRead.draws = s.afterAnswer.draws := by
  simp [State.busRead]
@[simp] theorem State.busRead_inputs : s.busRead.inputs = s.inputs := by
  simp [State.busRead]
@[simp] theorem State.busRead_replies : s.busRead.replies = s.replies := by
  simp [State.busRead]

/-! ### `Bus.sleep` -/

@[simp] theorem State.busSleep_cfg (n : Nat) : (s.busSleep n).cfg = s.cfg := rfl
@[simp] theorem State.busSleep_fill (n : Nat) : (s.busSleep n).fill = s.fill := rfl
@[simp] theorem State.busSleep_regs (n : Nat) : (s.busSleep n).regs = s.regs := rfl
@[simp] theorem State.busSleep_outLen (n : Nat) : (s.busSleep n).outLen = s.outLen := rfl
@[simp] theorem State.busSleep_err (n : Nat) : (s.busSleep n).err = s.err := rfl
@[simp] theorem State.busSleep_phase (n : Nat) : (s.busSleep n).phase = s.phase := rfl
@[simp] theorem State.busSleep_own (n : Nat) : (s.busSleep n).own = s.own := rfl
@[simp] theorem State.busSleep_orient (n : Nat) : (s.busSleep n).orient = s.orient := rfl
@[simp] theorem State.busSleep_op (n : Nat) : (s.busSleep n).op = s.op := rfl
@[simp] theorem State.busSleep_mem (n : Nat) : (s.busSleep n).mem = s.mem := rfl
@[simp] theorem State.busSleep_trace (n : Nat) : (s.busSleep n).trace = s.trace ++ [.sleep n] := rfl
@[simp] theorem State.busSleep_answers (n : Nat) : (s.busSleep n).answers = s.answers := rfl
@[simp] theorem State.busSleep_draws (n : Nat) : (s.busSleep n).draws = s.draws := rfl
@[simp] theorem State.busSleep_inputs (n : Nat) : (s.busSleep n).inputs = s.inputs := rfl
@[simp] theorem State.busSleep_replies (n : Nat) : (s.busSleep n).replies = s.replies := rfl

/-! ### The operation goes on -/

@[simp] theorem State.goOn_cfg (r : Running) : (s.goOn r).cfg = s.cfg := rfl
@[simp] theorem State.goOn_fill (r : Running) : (s.goOn r).fill = s.fill := rfl
@[simp] theorem State.goOn_regs (r : Running) : (s.goOn r).regs = s.regs := rfl
@[simp] theorem State.goOn_outLen (r : Running) : (s.goOn r).outLen = s.outLen := rfl
@[simp] theorem State.goOn_err (r : Running) : (s.goOn r).err = s.err := rfl
@[simp] theorem State.goOn_phase (r : Running) : (s.goOn r).phase = s.phase := rfl
@[simp] theorem State.goOn_own (r : Running) : (s.goOn r).own = s.own := rfl
@[simp] theorem State.goOn_orient (r : Running) : (s.goOn r).orient = s.orient := rfl
@[simp] theorem State.goOn_op (r : Running) : (s.goOn r).op = some r := rfl
@[simp] theorem State.goOn_mem (r : Running) : (s.goOn r).mem = s.mem := rfl
@[simp] theorem State.goOn_trace (r : Running) : (s.goOn r).trace = s.trace := rfl
@[simp] theorem State.goOn_answers (r : Running) : (s.goOn r).answers = s.answers := rfl
@[simp] theorem State.goOn_draws (r : Running) : (s.goOn r).draws = s.draws := rfl
@[simp] theorem State.goOn_inputs (r : Running) : (s.goOn r).inputs = s.inputs := rfl
@[simp] theorem State.goOn_replies (r : Running) : (s.goOn r).replies = s.replies := rfl

/-! ### The operation is given up -/

@[simp] theorem State.abort_cfg (r : Running) (e : ErrCode) : (s.abort r e).cfg = s.cfg := rfl
@[simp] theorem State.abort_fill (r : Running) (e : ErrCode) : (s.abort r e).fill = s.fill := rfl
@[simp] theorem State.abort_regs (r : Running) (e : ErrCode) : (s.abort r e).regs = s.regs := rfl
@[simp] theorem State.abort_outLen (r : Running) (e : ErrCode) : (s.abort r e).outLen = s.outLen := rfl
@[simp] theorem State.abort_err (r : Running) (e : ErrCode) : (s.abort r e).err = s.err := rfl
@[simp] theorem State.abort_phase (r : Running) (e : ErrCode) : (s.abort r e).phase = s.phase := rfl
@[simp] theorem State.abort_own (r : Running) (e : ErrCode) : (s.abort r e).own = s.own := rfl
@[simp] theorem State.abort_orient (r : Running) (e : ErrCode) : (s.abort r e).orient = s.orient := rfl
@[simp] theorem State.abort_op (r : Running) (e : ErrCode) : (s.abort r e).op = some { r with todo := [], fin := { err := e, phase := some .failed } } := rfl
@[simp] theorem State.abort_mem (r : Running) (e : ErrCode) : (s.abort r e).mem = s.mem := rfl
@[simp] theorem State.abort_trace (r : Running) (e : ErrCode) : (s.abort r e).trace = s.trace := rfl
@[simp] theorem State.abort_answers (r : Running) (e : ErrCode) : (s.abort r e).answers = s.answers := rfl
@[simp] theorem State.abort_draws (r : Running) (e : ErrCode) : (s.abort r e).draws = s.draws := rfl
@[simp] theorem State.abort_inputs (r : Running) (e : ErrCode) : (s.abort r e).inputs = s.inputs := rfl
@[simp] theorem State.abort_replies (r : Running) (e : ErrCode) : (s.abort r e).replies = s.replies := rfl

/-! ### After a fallible primitive -/

@[simp] theorem State.checked_cfg (r : Running) (ans : BusAnswer) : (s.checked r ans).cfg = s.cfg := by unfold State.checked; split <;> rfl
@[simp] theorem State.checked_fill (r : Running) (ans : BusAnswer) : (s.checked r ans).fill = s.fill := by unfold State.checked; split <;> rfl
@[simp] theorem State.checked_regs (r : Running) (ans : BusAnswer) : (s.checked r ans).regs = s.regs := by unfold State.checked; split <;> rfl
@[simp] theorem State.checked_outLen (r : Running) (ans : BusAnswer) : (s.checked r ans).outLen = s.outLen := by unfold State.checked; split <;> rfl
@[simp] theorem State.checked_err (r : Running) (ans : BusAnswer) : (s.checked r ans).err = s.err := by unfold State.checked; split <;> rfl
@[simp] theorem State.checked_phase (r : Running) (ans : BusAnswer) : (s.checked r ans).phase = s.phase := by unfold State.checked; split <;> rfl
@[simp] theorem State.checked_own (r : Running) (ans : BusAnswer) : (s.checked r ans).own = s.own := by unfold State.checked; split <;> rfl
@[simp] theorem State.checked_orient (r : Running) (ans : BusAnswer) : (s.checked r ans).orient = s.orient := by unfold State.checked; split <;> rfl
@[simp] theorem State.checked_mem (r : Running) (ans : BusAnswer) : (s.checked r ans).mem = s.mem := by unfold State.checked; split <;> rfl
@[simp] theorem State.checked_trace (r : Running) (ans : BusAnswer) : (s.checked r ans).trace = s.trace := by unfold State.checked; split <;> rfl
@[simp] theorem State.checked_answers (r : Running) (ans : BusAnswer) : (s.checked r ans).answers = s.answers := by unfold State.checked; split <;> rfl
@[simp] theorem State.checked_draws (r : Running) (ans : BusAnswer) : (s.checked r ans).draws = s.draws := by unfold State.checked; split <;> rfl
@[simp] theorem State.checked_inputs (r : Running) (ans : BusAnswer) : (s.checked r ans).inputs = s.inputs := by unfold State.checked; split <;> rfl
@[simp] theorem State.checked_replies (r : Running) (ans : BusAnswer) : (s.checked r ans).replies = s.replies := by unfold State.checked; split <;> rfl

/-! ### After a poll -/

@[simp] theorem State.polled_cfg (r : Running) (w : Wait) (ans : BusAnswer) : (s.polled r w ans).cfg = s.cfg := by
  unfold State.polled; repeat' split
  all_goals rfl
@[simp] theorem State.polled_fill (r : Running) (w : Wait) (ans : BusAnswer) : (s.polled r w ans).fill = s.fill := by
  unfold State.polled; repeat' split
  all_goals rfl
@[simp] theorem State.polled_regs (r : Running) (w : Wait) (ans : BusAnswer) : (s.polled r w ans).regs = s.regs := by
  unfold State.polled; repeat' split
  all_goals rfl
@[simp] theorem State.polled_outLen (r : Running) (w : Wait) (ans : BusAnswer) : (s.polled r w ans).outLen = s.outLen := by
  unfold State.polled; repeat' split
  all_goals rfl
@[simp] theorem State.polled_err (r : Running) (w : Wait) (ans : BusAnswer) : (s.polled r w ans).err = s.err := by
  unfold State.polled; repeat' split
  all_goals rfl
@[simp] theorem State.polled_phase (r : Running) (w : Wait) (ans : BusAnswer) : (s.polled r w ans).phase = s.phase := by
  unfold State.polled; repeat' split
  all_goals rfl
@[simp] theorem State.polled_own (r : Running) (w : Wait) (ans : BusAnswer) : (s.polled r w ans).own = s.own := by
  unfold State.polled; repeat' split
  all_goals rfl
@[simp] theorem State.polled_orient (r : Running) (w : Wait) (ans : BusAnswer) : (s.polled r w ans).orient = s.orient := by
  unfold State.polled; repeat' split
  all_goals rfl
@[simp] theorem State.polled_mem (r : Running) (w : Wait) (ans : BusAnswer) : (s.polled r w ans).mem = s.mem := by
  unfold State.polled; repeat' split
  all_goals rfl
@[simp] theorem State.polled_trace (r : Running) (w : Wait) (ans : BusAnswer) : (s.polled r w ans).trace = s.trace := by
  unfold State.polled; repeat' split
  all_goals rfl
@[simp] theorem State.polled_answers (r : Running) (w : Wait) (ans : BusAnswer) : (s.polled r w ans).answers = s.answers := by
  unfold State.polled; repeat' split
  all_goals rfl
@[simp] theorem State.polled_draws (r : Running) (w : Wait) (ans : BusAnswer) : (s.polled r w ans).draws = s.draws := by
  unfold State.polled; repeat' split
  all_goals rfl
@[simp] theorem State.polled_inputs (r : Running) (w : Wait) (ans : BusAnswer) : (s.polled r w ans).inputs = s.inputs := by
  unfold State.polled; repeat' split
  all_goals rfl
@[simp] theorem State.polled_replies (r : Running) (w : Wait) (ans : BusAnswer) : (s.polled r w ans).replies = s.replies := by
  unfold State.polled; repeat' split
  all_goals rfl

/-! ### The finishing transition -/

@[simp] theorem State.finish_cfg (f : Finish) : (s.finish f).cfg = s.cfg := rfl
@[simp] theorem State.finish_fill (f : Finish) : (s.finish f).fill = s.fill := rfl
@[simp] theorem State.finish_regs (f : Finish) : (s.finish f).regs = s.regs := rfl
@[simp] theorem State.finish_outLen (f : Finish) : (s.finish f).outLen = f.outLen.getD s.outLen := rfl
@[simp] theorem State.finish_err (f : Finish) : (s.finish f).err = f.err := rfl
@[simp] theorem State.finish_phase (f : Finish) : (s.finish f).phase = f.phase.getD s.phase := rfl
@[simp] theorem State.finish_own (f : Finish) : (s.finish f).own = f.own.getD s.own := rfl
@[simp] theorem State.finish_orient (f : Finish) : (s.finish f).orient = f.orient.getD s.orient := rfl
@[simp] theorem State.finish_op (f : Finish) : (s.finish f).op = none := rfl
@[simp] theorem State.finish_trace (f : Finish) : (s.finish f).trace = s.trace := rfl
@[simp] theorem State.finish_answers (f : Finish) : (s.finish f).answers = s.answers := rfl
@[simp] theorem State.finish_draws (f : Finish) : (s.finish f).draws = s.draws := rfl
@[simp] theorem State.finish_inputs (f : Finish) : (s.finish f).inputs = s.inputs := rfl
@[simp] theorem State.finish_replies (f : Finish) : (s.finish f).replies = s.replies := rfl

theorem State.finish_mem_none {f : Finish} (h : f.store = none) : (s.finish f).mem = s.mem := by
  simp [State.finish, h]

theorem State.finish_mem_some {f : Finish} {a : Nat} {b : Byte} (h : f.store = some (a, b)) :
    (s.finish f).mem = Memory.write s.fill s.mem a b := by
  simp [State.finish, h]

/-! ### Block reset -/

@[simp] theorem blockReset_cfg : (blockReset s).cfg = s.cfg := rfl
@[simp] theorem blockReset_regs : (blockReset s).regs = Regs.reset s.cfg := rfl
@[simp] theorem blockReset_outLen : (blockReset s).outLen = 0 := rfl
@[simp] theorem blockReset_err : (blockReset s).err = .ok := rfl
@[simp] theorem blockReset_phase : (blockReset s).phase = .closed := rfl
@[simp] theorem blockReset_own : (blockReset s).own = false := rfl
@[simp] theorem blockReset_orient : (blockReset s).orient = 0 := rfl
@[simp] theorem blockReset_op : (blockReset s).op = none := rfl
@[simp] theorem blockReset_fill : (blockReset s).fill = { known := none, epoch := s.fill.epoch + 1 } := rfl
@[simp] theorem blockReset_mem :
    (blockReset s).mem = Memory.listed { known := none, epoch := s.fill.epoch + 1 } s.byteAt s.standing := rfl
@[simp] theorem blockReset_trace : (blockReset s).trace = s.trace := rfl
@[simp] theorem blockReset_answers : (blockReset s).answers = s.answers := rfl
@[simp] theorem blockReset_draws : (blockReset s).draws = s.draws := rfl
@[simp] theorem blockReset_inputs : (blockReset s).inputs = s.inputs := rfl
@[simp] theorem blockReset_replies : (blockReset s).replies = s.replies := rfl

/-! ### Bytes -/

@[simp] theorem State.byteAt_emit (e : BusEvent) (a : Nat) : (s.emit e).byteAt a = s.byteAt a := rfl

theorem State.byteAt_eq_of_mem {s t : State} (hf : t.fill = s.fill) (hm : t.mem = s.mem) (a : Nat) :
    t.byteAt a = s.byteAt a := by
  simp [State.byteAt, hf, hm]

@[simp] theorem State.length_bytesAt (a n : Nat) : (s.bytesAt a n).length = n := by
  simp [State.bytesAt, Memory.readList]

theorem State.getElem_bytesAt {a n i : Nat} (h : i < (s.bytesAt a n).length) : (s.bytesAt a n)[i] = s.byteAt (a + i) := by
  simp [State.bytesAt, State.byteAt, Memory.readList]

end Sys2Proof.Machine
end

