-- ==== Sys2Proof/Laws/Bytes.lean ====
section
/-! SUPPORT. Lengths and bits of the byte lists: the FrameBuffer, the container and the sequence of stores. -/

namespace Sys2Proof.Machine

/-! ### Arithmetic -/

theorem le_mul_ceilDiv (n : Nat) {k : Nat} (hk : 0 < k) : n ≤ k * ceilDiv n k := by
  unfold ceilDiv
  have := Nat.lt_mul_div_succ (n + k - 1) hk
  have h2 : k * ((n + k - 1) / k + 1) = k * ((n + k - 1) / k) + k := by ring
  omega

theorem ceilDiv_le_iff {n k c : Nat} (hk : 0 < k) : ceilDiv n k ≤ c ↔ n ≤ k * c := by
  unfold ceilDiv
  rw [← Nat.lt_succ_iff, Nat.div_lt_iff_lt_mul hk]
  have : c.succ * k = k * c + k := by rw [Nat.succ_mul, Nat.mul_comm]
  omega

@[simp] theorem ceilDiv_zero {k : Nat} (hk : 0 < k) : ceilDiv 0 k = 0 :=
  Nat.le_zero.1 ((ceilDiv_le_iff hk).2 (by simp))

/-! ### The FrameBuffer -/

@[simp] theorem length_clearPixel (buf : List Byte) (z : Nat) : (clearPixel buf z).length = buf.length := by
  simp [clearPixel]

theorem length_encodeBuffer (threshold : Nat) (portrait : Level) (imgW imgH tgtW tgtH : Nat)
    (sample : Nat → Nat → Byte) :
    (encodeBuffer threshold portrait imgW imgH tgtW tgtH sample).length = ceilDiv (tgtW * tgtH) 8 := by
  unfold encodeBuffer
  generalize hs : List.replicate (ceilDiv (tgtW * tgtH) 8) whiteByte = start
  have hl : start.length = ceilDiv (tgtW * tgtH) 8 := by simp [← hs]
  rw [← hl]
  clear hs hl
  induction gridPixels imgW imgH generalizing start with
  | nil => rfl
  | cons px rest ih =>
    rw [List.foldl_cons, ih]
    split
    · exact length_clearPixel ..
    · rfl

theorem length_frameBuffer (portrait : Level) (s : State) :
    (frameBuffer portrait s).length = s.regs.frameSize := by
  simp only [frameBuffer, Regs.frameSize, length_encodeBuffer]

/-- The mask of bit `k` of a byte, counted from the most significant. -/
theorem getLsbD_mask (k i : Nat) (hk : k < 8) (hi : i < 8) :
    (0x80#8 >>> k).getLsbD i = decide (i = 7 - k) := by
  have h : ∀ k : Fin 8, ∀ i : Fin 8, (0x80#8 >>> k.val).getLsbD i.val = decide (i.val = 7 - k.val) := by decide
  exact h ⟨k, hk⟩ ⟨i, hi⟩

/-- Clearing pixel `z` clears that bit and no other. -/
theorem bitAt_clearPixel (buf : List Byte) (z y : Nat) :
    bitAt (clearPixel buf z) y = (bitAt buf y && decide (y ≠ z)) := by
  unfold bitAt clearPixel
  rw [List.getD_eq_getElem?_getD, List.getD_eq_getElem?_getD, List.getElem?_modify]
  by_cases hb : z / 8 = y / 8
  · simp only [hb, if_true]
    cases hy : buf[y / 8]? with
    | none => simp
    | some b =>
      simp only [Option.map_eq_map, Option.map_some, Option.getD_some, BitVec.getLsbD_and, BitVec.getLsbD_not]
      have h7 : 7 - y % 8 < 8 := by omega
      rw [getLsbD_mask _ _ (Nat.mod_lt _ (by omega)) h7]
      have : (7 - y % 8 = 7 - z % 8) ↔ y = z := by omega
      simp [h7, this]
  · have hne : y ≠ z := fun h => hb (by rw [h])
    cases hy : buf[y / 8]? <;> simp [hb, hne]

theorem mem_gridPixels {w h : Nat} {p : Nat × Nat} : p ∈ gridPixels w h ↔ p.1 < w ∧ p.2 < h := by
  simp only [gridPixels, List.mem_flatMap, List.mem_range, List.mem_map]
  constructor
  · rintro ⟨y, hy, x, hx, rfl⟩
    exact ⟨hx, hy⟩
  · rintro ⟨h1, h2⟩
    exact ⟨p.2, h2, p.1, h1, rfl⟩

/-- Packing the pixels of a list clears the bits the black ones map to, and no other. -/
theorem bitAt_pack (pixels : List (Nat × Nat)) (black : Nat × Nat → Bool) (index : Nat × Nat → Nat) (buf : List Byte)
    (z : Nat) :
    bitAt (pixels.foldl (fun buf p => if black p then clearPixel buf (index p) else buf) buf) z =
      (bitAt buf z && !pixels.any (fun p => black p && decide (index p = z))) := by
  induction pixels generalizing buf with
  | nil => simp
  | cons p ps ih =>
    rw [List.foldl_cons, ih]
    cases hb : black p
    · simp [hb]
    · simp only [if_true, bitAt_clearPixel, List.any_cons, hb, Bool.true_and]
      by_cases h : index p = z
      · simp [h]
      · simp [h, Ne.symm h]

theorem bitAt_white {n z : Nat} (h : z < 8 * n) : bitAt (List.replicate n whiteByte) z = true := by
  unfold bitAt
  rw [List.getD_eq_getElem?_getD, List.getElem?_replicate, if_pos (by omega)]
  have : ∀ k : Fin 8, whiteByte.getLsbD (7 - k.val) = true := by decide
  exact this ⟨z % 8, Nat.mod_lt _ (by omega)⟩

/-- A bit of a FrameBuffer is 0 just when some black pixel maps to it. -/
theorem bitAt_encodeBuffer (threshold : Nat) (portrait : Level) (imgW imgH tgtW tgtH : Nat)
    (sample : Nat → Nat → Byte) {z : Nat} (hz : z < 8 * ceilDiv (tgtW * tgtH) 8) :
    bitAt (encodeBuffer threshold portrait imgW imgH tgtW tgtH sample) z =
      !(gridPixels imgW imgH).any (fun p =>
        isBlack threshold (sample p.1 p.2) && decide (panelIndex portrait tgtW tgtH p.1 p.2 = z)) := by
  unfold encodeBuffer
  rw [bitAt_pack _ (fun p => isBlack threshold (sample p.1 p.2)) (fun p => panelIndex portrait tgtW tgtH p.1 p.2),
    bitAt_white hz, Bool.true_and]

/-- Two byte lists of one length with the same bits are equal. -/
theorem eq_of_bitAt {a b : List Byte} (hl : a.length = b.length) (h : ∀ z, z < 8 * a.length → bitAt a z = bitAt b z) :
    a = b := by
  apply List.ext_getElem hl
  intro i h1 h2
  apply BitVec.eq_of_getLsbD_eq
  intro j hj
  have := h (8 * i + (7 - j)) (by omega)
  unfold bitAt at this
  rw [show (8 * i + (7 - j)) / 8 = i by omega, show 7 - (8 * i + (7 - j)) % 8 = j by omega] at this
  simpa [List.getD_eq_getElem?_getD, h1, h2] using this

/-! ### Bits eight at a time -/

theorem length_bytesMsbFirst (l : List Bool) : (bytesMsbFirst l).length = l.length / 8 := by
  induction l using bytesMsbFirst.induct with
  | case1 a b c d e f g h rest ih =>
    simp only [bytesMsbFirst, List.length_cons, ih]
    omega
  | case2 l hl =>
    have hlt : l.length < 8 := by
      rcases l with _ | ⟨a, _ | ⟨b, _ | ⟨c, _ | ⟨d, _ | ⟨e, _ | ⟨f, _ | ⟨g, _ | ⟨h, t⟩⟩⟩⟩⟩⟩⟩⟩ <;>
        first
        | exact absurd rfl (hl a b c d e f g h t)
        | simp [List.length_cons]
    have h0 : bytesMsbFirst l = [] := by
      unfold bytesMsbFirst
      split
      · simp only [List.length_cons] at hlt
        omega
      · rfl
    rw [h0, List.length_nil, Nat.div_eq_of_lt hlt]

theorem getLsbD_byteMsbFirst (a b c d e f g h : Bool) (k : Nat) (hk : k < 8) :
    (byteMsbFirst a b c d e f g h).getLsbD (7 - k) = [a, b, c, d, e, f, g, h].getD k false := by
  have hs : k = 0 ∨ k = 1 ∨ k = 2 ∨ k = 3 ∨ k = 4 ∨ k = 5 ∨ k = 6 ∨ k = 7 := by omega
  rcases hs with rfl | rfl | rfl | rfl | rfl | rfl | rfl | rfl <;>
    simp only [byteMsbFirst, BitVec.getLsbD_append, BitVec.getLsbD_ofBool] <;> simp

/-- The bits of the bytes are the bits they were made of. -/
theorem bitAt_bytesMsbFirst (l : List Bool) (z : Nat) (hz : z < 8 * (l.length / 8)) :
    bitAt (bytesMsbFirst l) z = l.getD z false := by
  induction l using bytesMsbFirst.induct generalizing z with
  | case1 a b c d e f g h rest ih =>
    simp only [bytesMsbFirst]
    by_cases h8 : z < 8
    · have hz0 : z / 8 = 0 := by omega
      have hz1 : z % 8 = z := by omega
      unfold bitAt
      rw [hz0, hz1]
      simp only [List.getD_cons_zero]
      rw [getLsbD_byteMsbFirst _ _ _ _ _ _ _ _ _ h8]
      have hs : z = 0 ∨ z = 1 ∨ z = 2 ∨ z = 3 ∨ z = 4 ∨ z = 5 ∨ z = 6 ∨ z = 7 := by omega
      rcases hs with rfl | rfl | rfl | rfl | rfl | rfl | rfl | rfl <;> rfl
    · obtain ⟨y, rfl⟩ : ∃ y, z = y + 8 := ⟨z - 8, by omega⟩
      have hy : y < 8 * (rest.length / 8) := by
        simp only [List.length_cons] at hz
        omega
      have := ih y hy
      unfold bitAt at this ⊢
      rw [show (y + 8) / 8 = y / 8 + 1 by omega, show (y + 8) % 8 = y % 8 by omega, List.getD_cons_succ, this]
      rfl
  | case2 l hl =>
    exfalso
    have hlen : l.length < 8 := by
      rcases l with _ | ⟨a, _ | ⟨b, _ | ⟨c, _ | ⟨d, _ | ⟨e, _ | ⟨f, _ | ⟨g, _ | ⟨h, t⟩⟩⟩⟩⟩⟩⟩⟩ <;>
        first
        | exact absurd rfl (hl a b c d e f g h t)
        | simp [List.length_cons]
    omega

/-! ### The container -/

@[simp] theorem length_le32 (n : Nat) : (le32 n).length = 4 := rfl

@[simp] theorem length_le16 (n : Nat) : (le16 n).length = 2 := rfl

theorem length_containerHeader (total w h bpp : Nat) : (containerHeader total w h bpp).length = headerSize := by
  simp [containerHeader, signature, paletteBytes, palette, headerSize]

@[simp] theorem length_codeBits (bpp : Nat) (c : Byte) : (codeBits bpp c).length = bpp := by
  simp [codeBits]

theorem length_flatMap_codeBits (bpp : Nat) (codes : List Byte) :
    (codes.flatMap (codeBits bpp)).length = codes.length * bpp := by
  induction codes with
  | nil => simp
  | cons c cs ih =>
    simp only [List.flatMap_cons, List.length_append, ih, length_codeBits, List.length_cons]
    ring

/-- The row's bits fit its padded length. -/
theorem rowBits_le (w bpp : Nat) : w * bpp ≤ 8 * rowBytes w bpp := by
  have := le_mul_ceilDiv (w * bpp) (k := 32) (by omega)
  unfold rowBytes
  omega

theorem length_storedRow {w bpp : Nat} {codes : List Byte} (h : codes.length = w) :
    (storedRow w bpp codes).length = rowBytes w bpp := by
  have := rowBits_le w bpp
  simp only [storedRow, length_bytesMsbFirst, List.length_append, length_flatMap_codeBits, List.length_replicate, h]
  omega

theorem length_rowCodes {w h j : Nat} {codes : List Byte} (hc : codes.length = w * h) (hj : j < h) :
    ((codes.drop ((h - 1 - j) * w)).take w).length = w := by
  rw [List.length_take, List.length_drop, hc]
  have h1 : (h - 1 - j) * w + w ≤ w * h := by
    calc (h - 1 - j) * w + w = (h - 1 - j + 1) * w := by ring
      _ ≤ h * w := Nat.mul_le_mul_right w (by omega)
      _ = w * h := Nat.mul_comm ..
  omega

theorem length_pixelData {w h bpp : Nat} {codes : List Byte} (hc : codes.length = w * h) :
    (pixelData w h bpp codes).length = rowBytes w bpp * h := by
  have key : ∀ l : List Nat, (∀ j ∈ l, j < h) →
      (l.flatMap (fun j => storedRow w bpp ((codes.drop ((h - 1 - j) * w)).take w))).length =
        rowBytes w bpp * l.length := by
    intro l
    induction l with
    | nil => simp
    | cons j js ih =>
      intro hl
      rw [List.flatMap_cons, List.length_append, ih (fun i hi => hl i (List.mem_cons_of_mem _ hi)),
        length_storedRow (length_rowCodes hc (hl j (List.mem_cons_self ..))), List.length_cons]
      ring
  have := key (List.range h) (fun j hj => List.mem_range.1 hj)
  rwa [List.length_range] at this

theorem length_container {s : State} (h : s.regs.len.toNat = s.regs.imgW.toNat * s.regs.imgH.toNat) :
    (container s).length = s.regs.containerSize := by
  unfold container
  rw [List.length_append, length_containerHeader, length_pixelData (by rw [State.length_bytesAt, h])]
  rfl

/-! ### Stores -/

/-- Every transition of a `MemWrite` stores inside its range. -/
theorem mem_storeActs {a : Nat} {bs : List Byte} {x : Act} (h : x ∈ storeActs a bs) :
    ∃ i b, x = .store (a + i) b ∧ i < bs.length := by
  induction bs generalizing a with
  | nil => simp [storeActs] at h
  | cons b bs ih =>
    cases bs with
    | nil => simp [storeActs] at h
    | cons c cs =>
      rw [storeActs, List.mem_cons] at h
      rcases h with rfl | h
      · exact ⟨0, b, rfl, by simp⟩
      · obtain ⟨i, b', rfl, hi⟩ := ih h
        exact ⟨i + 1, b', by rw [Nat.add_assoc, Nat.add_comm 1 i], by simpa using hi⟩

theorem mem_lastStore {a k : Nat} {bs : List Byte} {b : Byte} (h : lastStore a bs = some (k, b)) :
    ∃ i, k = a + i ∧ i < bs.length := by
  induction bs generalizing a with
  | nil => simp [lastStore] at h
  | cons c cs ih =>
    cases cs with
    | nil =>
      simp only [lastStore, Option.some.injEq, Prod.mk.injEq] at h
      exact ⟨0, by omega, by simp⟩
    | cons d ds =>
      obtain ⟨i, rfl, hi⟩ := ih h
      exact ⟨i + 1, by omega, by simpa using hi⟩

end Sys2Proof.Machine
end

