-- ==== Sys2Proof/Laws/Memory.lean ====
section
/-! SUPPORT. Buffer memory: what a write lists, read after write, and that every operation keeps the canonical
form. -/

namespace Sys2Proof.Machine

variable {fill : Fill} {m : Memory} {a b k : Nat} {v w : Byte}

@[simp] theorem Memory.find_nil : Memory.find [] a = none := rfl

theorem Memory.find_put_same : Memory.find (Memory.put m a v) a = some v := by
  induction m with
  | nil => simp [Memory.put, Memory.find]
  | cons c m ih =>
    obtain ⟨k, w⟩ := c
    unfold Memory.put
    split
    · simp [Memory.find]
    · split
      · simp [Memory.find]
      · rename_i h1 h2
        have hk : ¬ k = a := fun h => h2 h.symm
        simp [Memory.find, hk, ih]

theorem Memory.find_put_other (h : b ≠ a) : Memory.find (Memory.put m a v) b = Memory.find m b := by
  have hab : ¬ a = b := fun e => h e.symm
  induction m with
  | nil => simp [Memory.put, Memory.find, hab]
  | cons c m ih =>
    obtain ⟨k, w⟩ := c
    unfold Memory.put
    split
    · simp [Memory.find, hab]
    · split
      · rename_i _ hak
        subst hak
        simp [Memory.find, hab]
      · simp [Memory.find, ih]

theorem Memory.find_drop_other (h : b ≠ a) : Memory.find (Memory.drop m a) b = Memory.find m b := by
  have hab : ¬ a = b := fun e => h e.symm
  induction m with
  | nil => rfl
  | cons c m ih =>
    obtain ⟨k, w⟩ := c
    unfold Memory.drop
    split
    · rename_i hka
      subst hka
      simp [Memory.find, hab]
    · simp [Memory.find, ih]

/-- Every address listed in `m` is above `k`. -/
def Memory.above (k : Nat) (m : Memory) : Prop :=
  ∀ c ∈ m, k < c.1

theorem Memory.sorted_cons : Memory.sorted ((k, v) :: m) = true ↔ Memory.above k m ∧ Memory.sorted m = true := by
  induction m generalizing k v with
  | nil => simp [Memory.sorted, Memory.above]
  | cons c m ih =>
    obtain ⟨k', v'⟩ := c
    simp only [Memory.sorted, Bool.and_eq_true, decide_eq_true_eq]
    rw [ih]
    simp only [Memory.above, List.mem_cons]
    constructor
    · rintro ⟨hk, h, hs⟩
      refine ⟨?_, h, hs⟩
      rintro c (rfl | hc)
      · exact hk
      · exact Nat.lt_trans hk (h c hc)
    · rintro ⟨h, h', hs⟩
      exact ⟨h (k', v') (Or.inl rfl), h', hs⟩

theorem Memory.find_of_above (h : Memory.above k m) (ha : a ≤ k) : Memory.find m a = none := by
  induction m with
  | nil => rfl
  | cons c m ih =>
    obtain ⟨k', v'⟩ := c
    have hk : k < k' := h (k', v') (List.mem_cons_self ..)
    have : ¬ k' = a := by omega
    simp only [Memory.find, this, if_false]
    exact ih (fun c hc => h c (List.mem_cons_of_mem _ hc))

theorem Memory.find_drop_same (h : Memory.sorted m = true) : Memory.find (Memory.drop m a) a = none := by
  induction m with
  | nil => rfl
  | cons c m ih =>
    obtain ⟨k, v⟩ := c
    obtain ⟨hab, hs⟩ := Memory.sorted_cons.1 h
    unfold Memory.drop
    split
    · rename_i hka
      exact Memory.find_of_above hab (Nat.le_of_eq hka.symm)
    · rename_i hka
      simp [Memory.find, hka, ih hs]

theorem Memory.mem_put {c : Host.Cell} (h : c ∈ Memory.put m a v) : c = (a, v) ∨ c ∈ m := by
  induction m with
  | nil => simpa [Memory.put] using h
  | cons d m ih =>
    obtain ⟨k, w⟩ := d
    unfold Memory.put at h
    split at h
    · simpa using h
    · split at h
      · rcases List.mem_cons.1 h with h | h
        · exact Or.inl h
        · exact Or.inr (List.mem_cons_of_mem _ h)
      · rcases List.mem_cons.1 h with h | h
        · exact Or.inr (h ▸ List.mem_cons_self ..)
        · exact (ih h).imp id (List.mem_cons_of_mem _)

theorem Memory.mem_drop {c : Host.Cell} (h : c ∈ Memory.drop m a) : c ∈ m := by
  induction m with
  | nil => exact h
  | cons d m ih =>
    obtain ⟨k, w⟩ := d
    unfold Memory.drop at h
    split at h
    · exact List.mem_cons_of_mem _ h
    · rcases List.mem_cons.1 h with h | h
      · exact h ▸ List.mem_cons_self ..
      · exact List.mem_cons_of_mem _ (ih h)

theorem Memory.sorted_put (h : Memory.sorted m = true) : Memory.sorted (Memory.put m a v) = true := by
  induction m with
  | nil => rfl
  | cons d m ih =>
    obtain ⟨k, w⟩ := d
    obtain ⟨hab, hs⟩ := Memory.sorted_cons.1 h
    unfold Memory.put
    split
    · rename_i hlt
      refine Memory.sorted_cons.2 ⟨?_, h⟩
      rintro c hc
      rcases List.mem_cons.1 hc with rfl | hc
      · exact hlt
      · exact Nat.lt_trans hlt (hab c hc)
    · split
      · rename_i hak
        subst hak
        exact Memory.sorted_cons.2 ⟨hab, hs⟩
      · rename_i hlt hne
        refine Memory.sorted_cons.2 ⟨?_, ih hs⟩
        rintro c hc
        rcases Memory.mem_put hc with rfl | hc
        · show k < a
          omega
        · exact hab c hc

theorem Memory.sorted_drop (h : Memory.sorted m = true) : Memory.sorted (Memory.drop m a) = true := by
  induction m with
  | nil => rfl
  | cons d m ih =>
    obtain ⟨k, w⟩ := d
    obtain ⟨hab, hs⟩ := Memory.sorted_cons.1 h
    unfold Memory.drop
    split
    · exact hs
    · exact Memory.sorted_cons.2 ⟨fun c hc => hab c (Memory.mem_drop hc), ih hs⟩

theorem Memory.wf_sorted (h : Memory.wf fill m = true) : Memory.sorted m = true := by
  simp only [Memory.wf, Bool.and_eq_true] at h
  exact h.1

/-- A write lists nothing but the byte written and what was listed. -/
theorem Memory.mem_write {c : Host.Cell} (h : c ∈ Memory.write fill m a v) : c = (a, v) ∨ c ∈ m := by
  unfold Memory.write at h
  split at h
  · exact Or.inr (Memory.mem_drop h)
  · exact Memory.mem_put h

/-- A write keeps the canonical form. -/
theorem Memory.wf_write (h : Memory.wf fill m = true) : Memory.wf fill (Memory.write fill m a v) = true := by
  simp only [Memory.wf, Bool.and_eq_true, List.all_eq_true, decide_eq_true_eq] at h ⊢
  obtain ⟨hs, hf⟩ := h
  unfold Memory.write
  split
  · exact ⟨Memory.sorted_drop hs, fun c hc => hf c (Memory.mem_drop hc)⟩
  · rename_i hv
    refine ⟨Memory.sorted_put hs, fun c hc => ?_⟩
    rcases Memory.mem_put hc with rfl | hc
    · exact hv
    · exact hf c hc

/-- A read at another address is as before the write. -/
theorem Memory.read_write_other (h : b ≠ a) :
    Memory.read fill (Memory.write fill m a v) b = Memory.read fill m b := by
  unfold Memory.read Memory.write
  split
  · rw [Memory.find_drop_other h]
  · rw [Memory.find_put_other h]

/-- A read at the address written gives the byte written. -/
theorem Memory.read_write_same (hs : Memory.sorted m = true) :
    Memory.read fill (Memory.write fill m a v) a = v := by
  unfold Memory.read Memory.write
  split
  · rename_i hv
    rw [Memory.find_drop_same hs, hv]
    rfl
  · rw [Memory.find_put_same]
    rfl

@[simp] theorem Memory.length_readList {n : Nat} : (Memory.readList fill m a n).length = n := by
  simp [Memory.readList]

theorem Memory.getElem_readList {n i : Nat} (h : i < (Memory.readList fill m a n).length) :
    (Memory.readList fill m a n)[i] = Memory.read fill m (a + i) := by
  simp [Memory.readList]

theorem Memory.wf_nil : Memory.wf fill [] = true := rfl

/-! ### A memory built from the bytes it lists -/

/-- The same memory, with the last address written last. -/
theorem Memory.listed_snoc {byte : Nat → Byte} {as : List Nat} :
    Memory.listed fill byte (as ++ [a]) = Memory.write fill (Memory.listed fill byte as) a (byte a) := by
  simp [Memory.listed, List.foldl_append]

theorem Memory.wf_listed {byte : Nat → Byte} {as : List Nat} : Memory.wf fill (Memory.listed fill byte as) = true := by
  induction as using List.reverseRecOn with
  | nil => exact Memory.wf_nil
  | append_singleton as a ih => rw [Memory.listed_snoc]; exact Memory.wf_write ih

theorem Memory.mem_listed {byte : Nat → Byte} {as : List Nat} {c : Host.Cell} (h : c ∈ Memory.listed fill byte as) :
    c.1 ∈ as := by
  induction as using List.reverseRecOn with
  | nil => simp [Memory.listed] at h
  | append_singleton as a ih =>
    rw [Memory.listed_snoc] at h
    rcases Memory.mem_write h with rfl | h
    · simp
    · exact List.mem_append_left _ (ih h)

/-- A listed address reads its byte; every other address reads as unwritten. -/
theorem Memory.read_listed {byte : Nat → Byte} {as : List Nat} :
    Memory.read fill (Memory.listed fill byte as) k = if k ∈ as then byte k else powerOn fill k := by
  induction as using List.reverseRecOn with
  | nil => simp [Memory.listed, Memory.read]
  | append_singleton as a ih =>
    rw [Memory.listed_snoc]
    by_cases h : k = a
    · subst h
      rw [Memory.read_write_same (Memory.wf_sorted Memory.wf_listed)]
      simp
    · rw [Memory.read_write_other h, ih]
      simp [h]

end Sys2Proof.Machine
end

