-- ==== Sys2Proof/Laws/Run.lean ====
section
/-! SUPPORT. What one transition of the block can do, and what a sequence of transitions comes to: the frames of
`perform` and `blockStep`, runs of the machine, and the three sequences every operation is made of (plain events, a wait,
a `MemWrite`). -/

namespace Sys2Proof.Machine

/-! ### One transition -/

theorem blockStep_idle {s : State} (h : s.op = none) : blockStep s = s := by
  simp [blockStep, h]

theorem blockStep_finish {s : State} {r : Running} (h : s.op = some r) (ht : r.todo = []) :
    blockStep s = s.finish r.fin := by
  simp [blockStep, h, ht]

theorem blockStep_act {s : State} {r : Running} {a : Act} {rest : List Act} (h : s.op = some r)
    (ht : r.todo = a :: rest) : blockStep s = perform { r with todo := rest } a s := by
  simp [blockStep, h, ht]

/-- What a transition of the block can be: idling, finishing, or one act of the sequence. -/
theorem blockStep_cases (s : State) :
    (s.op = none ∧ blockStep s = s) ∨
    (∃ r, s.op = some r ∧ r.todo = [] ∧ blockStep s = s.finish r.fin) ∨
    (∃ r a rest, s.op = some r ∧ r.todo = a :: rest ∧ blockStep s = perform { r with todo := rest } a s) := by
  cases ho : s.op with
  | none => exact .inl ⟨rfl, blockStep_idle ho⟩
  | some r =>
    cases ht : r.todo with
    | nil => exact .inr (.inl ⟨r, rfl, ht, blockStep_finish ho ht⟩)
    | cons a rest => exact .inr (.inr ⟨r, a, rest, rfl, ht, blockStep_act ho ht⟩)

variable (r : Running) (a : Act) (s : State)

@[simp] theorem perform_cfg : (perform r a s).cfg = s.cfg := by cases a <;> simp [perform]
@[simp] theorem perform_fill : (perform r a s).fill = s.fill := by cases a <;> simp [perform]
@[simp] theorem perform_regs : (perform r a s).regs = s.regs := by cases a <;> simp [perform]
@[simp] theorem perform_inputs : (perform r a s).inputs = s.inputs := by cases a <;> simp [perform]
@[simp] theorem perform_replies : (perform r a s).replies = s.replies := by cases a <;> simp [perform]
@[simp] theorem perform_outLen : (perform r a s).outLen = s.outLen := by cases a <;> simp [perform]
@[simp] theorem perform_orient : (perform r a s).orient = s.orient := by cases a <;> simp [perform]
@[simp] theorem perform_err : (perform r a s).err = s.err := by cases a <;> simp [perform]
@[simp] theorem perform_own : (perform r a s).own = s.own := by cases a <;> simp [perform]

/-- A transition writes PHASE only where the sequence says so. -/
theorem perform_phase : (perform r a s).phase = match a with
    | .enter ph => ph
    | _ => s.phase := by
  cases a <;> simp [perform]

/-- A transition writes memory only where the sequence stores. -/
theorem perform_mem : (perform r a s).mem = match a with
    | .store k b => Memory.write s.fill s.mem k b
    | _ => s.mem := by
  cases a <;> simp [perform]

/-- What a transition leaves of the operation: it goes on with the rest, or with one more round of a wait, or it gives
up, after an act of the BusLine, with nothing left to do and the failure as its end. -/
theorem perform_op (r : Running) (a : Act) (s : State) : ∃ r', (perform r a s).op = some r' ∧ r'.op = r.op ∧
    r'.latch = r.latch ∧
    ((r'.fin = r.fin ∧ (r'.todo = r.todo ∨
        (∃ w, a = .poll w ∧ r'.todo = .pause w :: r.todo) ∨
        (∃ w, a = .pause w ∧ r'.todo = .poll { w with elapsed := w.elapsed + w.poll } :: r.todo))) ∨
      (r'.todo = [] ∧
        ((r'.fin = { err := ioFailCode r.op, phase := some .failed } ∧
            ((∃ p l, a = .set p l) ∨ (∃ b, a = .write b) ∨ ∃ w, a = .poll w)) ∨
          (r'.fin = { err := .busyTimeout, phase := some .failed } ∧ ∃ w, a = .poll w)))) := by
  cases a <;> simp only [perform]
  case set =>
    unfold State.checked
    split
    · exact ⟨_, rfl, rfl, rfl, .inl ⟨rfl, .inl rfl⟩⟩
    · exact ⟨_, rfl, rfl, rfl, .inr ⟨rfl, .inl ⟨rfl, .inl ⟨_, _, rfl⟩⟩⟩⟩
  case write =>
    unfold State.checked
    split
    · exact ⟨_, rfl, rfl, rfl, .inl ⟨rfl, .inl rfl⟩⟩
    · exact ⟨_, rfl, rfl, rfl, .inr ⟨rfl, .inl ⟨rfl, .inr (.inl ⟨_, rfl⟩)⟩⟩⟩
  case poll =>
    unfold State.polled
    repeat' split
    all_goals first
      | exact ⟨_, rfl, rfl, rfl, .inl ⟨rfl, .inl rfl⟩⟩
      | exact ⟨_, rfl, rfl, rfl, .inl ⟨rfl, .inr (.inl ⟨_, rfl, rfl⟩)⟩⟩
      | exact ⟨_, rfl, rfl, rfl, .inr ⟨rfl, .inl ⟨rfl, .inr (.inr ⟨_, rfl⟩)⟩⟩⟩
      | exact ⟨_, rfl, rfl, rfl, .inr ⟨rfl, .inr ⟨rfl, _, rfl⟩⟩⟩
  case pause => exact ⟨_, rfl, rfl, rfl, .inl ⟨rfl, .inr (.inr ⟨_, rfl, rfl⟩)⟩⟩
  all_goals exact ⟨_, rfl, rfl, rfl, .inl ⟨rfl, .inl rfl⟩⟩

@[simp] theorem blockStep_cfg : (blockStep s).cfg = s.cfg := by
  rcases blockStep_cases s with ⟨-, h⟩ | ⟨r, -, -, h⟩ | ⟨r, a, rest, -, -, h⟩ <;> simp [h]
@[simp] theorem blockStep_fill : (blockStep s).fill = s.fill := by
  rcases blockStep_cases s with ⟨-, h⟩ | ⟨r, -, -, h⟩ | ⟨r, a, rest, -, -, h⟩ <;> simp [h]
@[simp] theorem blockStep_regs : (blockStep s).regs = s.regs := by
  rcases blockStep_cases s with ⟨-, h⟩ | ⟨r, -, -, h⟩ | ⟨r, a, rest, -, -, h⟩ <;> simp [h]
@[simp] theorem blockStep_inputs : (blockStep s).inputs = s.inputs := by
  rcases blockStep_cases s with ⟨-, h⟩ | ⟨r, -, -, h⟩ | ⟨r, a, rest, -, -, h⟩ <;> simp [h]
@[simp] theorem blockStep_replies : (blockStep s).replies = s.replies := by
  rcases blockStep_cases s with ⟨-, h⟩ | ⟨r, -, -, h⟩ | ⟨r, a, rest, -, -, h⟩ <;> simp [h]

/-! ### PHASE while an operation runs -/

/-- A transition of an operation whose sequence writes no PHASE keeps PHASE, and leaves such an operation, unless it ends
it. -/
theorem blockStep_keeps_phase {s : State} {r : Running} (ho : s.op = some r) (he : ∀ ph, Act.enter ph ∉ r.todo) :
    (blockStep s).op = none ∨
      ((blockStep s).phase = s.phase ∧ ∃ r', (blockStep s).op = some r' ∧ ∀ ph, Act.enter ph ∉ r'.todo) := by
  cases ht : r.todo with
  | nil => exact .inl (by rw [blockStep_finish ho ht, State.finish_op])
  | cons a rest =>
    rw [ht] at he
    rw [blockStep_act ho ht]
    have hr : ∀ ph, Act.enter ph ∉ rest := fun ph h => he ph (List.mem_cons_of_mem _ h)
    refine .inr ⟨?_, ?_⟩
    · rw [perform_phase]
      cases a with
      | enter ph => exact absurd (List.mem_cons_self ..) (he ph)
      | set _ _ | drive _ _ | write _ | sleep _ | poll _ | pause _ | store _ _ => rfl
    · obtain ⟨r', hop, -, -, ⟨-, h | ⟨w, -, h⟩ | ⟨w, -, h⟩⟩ | ⟨h, -⟩⟩ := perform_op { r with todo := rest } a s <;>
        refine ⟨r', hop, fun ph => ?_⟩ <;> rw [h] <;> simp [hr ph]

/-! ### Runs -/

theorem step_of_nil {s : State} (h : s.inputs = []) : step s = .next (blockStep s) := by
  simp [step, h]

theorem step_of_cons {s : State} {i : Input} {rest : List Input} (h : s.inputs = i :: rest) :
    step s = takeInput i { s with inputs := rest } := by
  simp [step, h]

/-- `k` transitions of the block. -/
def blockRun : Nat → State → State
  | 0, s => s
  | k + 1, s => blockRun k (blockStep s)

@[simp] theorem blockRun_zero : blockRun 0 s = s := rfl

theorem blockRun_succ (k : Nat) : blockRun (k + 1) s = blockRun k (blockStep s) := rfl

theorem blockRun_add (m n : Nat) (s : State) : blockRun (m + n) s = blockRun n (blockRun m s) := by
  induction m generalizing s with
  | zero => simp
  | succ m ih => rw [Nat.add_right_comm, blockRun_succ, ih, blockRun_succ]

theorem blockRun_idle {s : State} (h : s.op = none) (k : Nat) : blockRun k s = s := by
  induction k with
  | zero => rfl
  | succ k ih => rw [blockRun_succ, blockStep_idle h, ih]

/-- An operation whose sequence writes no PHASE keeps PHASE for as long as it runs. -/
theorem blockRun_keeps_phase {s : State} {r : Running} (ho : s.op = some r) (he : ∀ ph, Act.enter ph ∉ r.todo) (k : Nat)
    (h : (blockRun k s).running = true) : (blockRun k s).phase = s.phase := by
  induction k generalizing s r with
  | zero => rfl
  | succ k ih =>
    rw [blockRun_succ] at h ⊢
    rcases blockStep_keeps_phase ho he with hn | ⟨hp, r', ho', he'⟩
    · rw [blockRun_idle hn, State.running, hn] at h
      cases h
    · rw [ih ho' he' h, hp]

/-- With no input listed, the machine's run is the block's. -/
theorem core_run_block {s : State} (h : s.inputs = []) (k : Nat) : Sys2Proof.core.run k s = .next (blockRun k s) := by
  induction k generalizing s with
  | zero => rfl
  | succ k ih =>
    have hs : Sys2Proof.core.step s = .next (blockStep s) := step_of_nil h
    simp only [Host.Core.run, hs]
    exact ih (by simpa using h)

/-- The same, from a block run to the interface's run. -/
theorem core_run_of_blockRun {s u : State} {k : Nat} (h : s.inputs = []) (hb : blockRun k s = u) :
    Sys2Proof.core.run k s = .next u := by
  subst hb
  exact core_run_block h k

/-! ### Plain events -/

/-- The acts that make one event and go on. -/
def isPlain : Act → Bool
  | .set _ _ | .write _ | .sleep _ => true
  | .drive _ _ | .poll _ | .pause _ | .enter _ | .store _ _ => false

/-- The events of plain acts that all answered ok. -/
def okEvents : Act → List BusEvent
  | .set pin l => [.set pin l true]
  | .write bs => [.write bs true]
  | .sleep n => [.sleep n]
  | .drive _ _ | .poll _ | .pause _ | .enter _ | .store _ _ => []

theorem answersOk_nil {s : State} {rest : List BusAnswer} : AnswersOk s [] rest ↔ s.answers = rest := by
  constructor
  · rintro ⟨oks, h, hl, -⟩
    have : oks = [] := List.length_eq_zero_iff.1 (by simpa using hl)
    simpa [this] using h
  · intro h
    exact ⟨[], by simp [h]⟩

theorem answersOk_cons_ask {s : State} {e : BusEvent} {es : List BusEvent} {rest : List BusAnswer} (he : asks e = true)
    (h : AnswersOk s (e :: es) rest) :
    ∃ a more, s.answers = a :: more ∧ answerOk a = true ∧ ∀ t : State, t.answers = more → AnswersOk t es rest := by
  obtain ⟨oks, h, hl, hall⟩ := h
  cases oks with
  | nil => simp [he] at hl
  | cons a oks =>
    refine ⟨a, oks ++ rest, by simpa using h, hall a (List.mem_cons_self ..), fun t ht => ⟨oks, ht, ?_, ?_⟩⟩
    · simpa [he] using hl
    · exact fun b hb => hall b (List.mem_cons_of_mem _ hb)

theorem answersOk_cons_free {s : State} {e : BusEvent} {es : List BusEvent} {rest : List BusAnswer}
    (he : asks e = false) (h : AnswersOk s (e :: es) rest) : ∀ t : State, t.answers = s.answers → AnswersOk t es rest := by
  obtain ⟨oks, h, hl, hall⟩ := h
  exact fun t ht => ⟨oks, by rw [ht, h], by simpa [he] using hl, hall⟩

/-- The answers for two event lists in a row. -/
theorem answersOk_append {s : State} {es fs : List BusEvent} {rest : List BusAnswer} (h : AnswersOk s (es ++ fs) rest) :
    ∃ mid, AnswersOk s es mid ∧ ∀ t : State, t.answers = mid → AnswersOk t fs rest := by
  obtain ⟨oks, h, hl, hall⟩ := h
  rw [List.countP_append] at hl
  refine ⟨oks.drop (es.countP asks) ++ rest, ⟨oks.take (es.countP asks), ?_, ?_, ?_⟩, fun t ht => ⟨oks.drop (es.countP asks), ht, ?_, ?_⟩⟩
  · rw [← List.append_assoc, List.take_append_drop, h]
  · rw [List.length_take]; omega
  · exact fun a ha => hall a (List.mem_of_mem_take ha)
  · rw [List.length_drop]; omega
  · exact fun a ha => hall a (List.mem_of_mem_drop ha)

/-- A run of plain acts whose answers are all ok makes their events and nothing else. -/
theorem blockRun_plain {pre rest : List Act} (hp : ∀ a ∈ pre, isPlain a = true) {s : State} {r : Running}
    {more : List BusAnswer} (ho : s.op = some r) (ht : r.todo = pre ++ rest)
    (ha : AnswersOk s (pre.flatMap okEvents) more) :
    blockRun pre.length s =
      { s with
        op := some { r with todo := rest }
        trace := s.trace ++ pre.flatMap okEvents
        answers := more } := by
  induction pre generalizing s r with
  | nil =>
    have hm := answersOk_nil.1 ha
    have hr : { r with todo := rest } = r := by cases r; simp_all
    rw [hr]
    cases s
    simp_all
  | cons a pre ih =>
    have hp' : ∀ b ∈ pre, isPlain b = true := fun b hb => hp b (List.mem_cons_of_mem _ hb)
    rw [List.length_cons, blockRun_succ, blockStep_act ho (by simpa using ht)]
    have ha1 := hp a (List.mem_cons_self ..)
    cases a with
    | set pin l =>
      obtain ⟨x, more', hx, hok, hnext⟩ := answersOk_cons_ask rfl ha
      rw [ih (r := { r with todo := pre ++ rest }) hp' (by simp [perform, State.checked, State.nextAnswer_of_cons _ hx, hok]) rfl
        (hnext _ (by simp [perform, hx]))]
      simp [perform, State.checked, State.nextAnswer_of_cons _ hx, State.afterAnswer_of_cons _ hx, hok, State.busSet,
        State.emit, State.goOn, okEvents]
    | write bs =>
      obtain ⟨x, more', hx, hok, hnext⟩ := answersOk_cons_ask rfl ha
      rw [ih (r := { r with todo := pre ++ rest }) hp' (by simp [perform, State.checked, State.nextAnswer_of_cons _ hx, hok]) rfl
        (hnext _ (by simp [perform, hx]))]
      simp [perform, State.checked, State.nextAnswer_of_cons _ hx, State.afterAnswer_of_cons _ hx, hok, State.busWrite,
        bytesSent_of_ok hok, State.emit, State.goOn, okEvents]
    | sleep n =>
      have hnext := answersOk_cons_free rfl ha
      rw [ih (r := { r with todo := pre ++ rest }) hp' (by simp [perform]) rfl (hnext _ (by simp [perform]))]
      simp [perform, State.busSleep, State.emit, State.goOn, okEvents]
    | drive _ _ => simp [isPlain] at ha1
    | poll _ => simp [isPlain] at ha1
    | pause _ => simp [isPlain] at ha1
    | enter _ => simp [isPlain] at ha1
    | store _ _ => simp [isPlain] at ha1

/-! ### A wait -/

/-- A poll that reads idle ends the wait. -/
theorem blockStep_poll_idle {s : State} {r : Running} {w : Wait} {rest : List Act} {l : Level} {more : List BusAnswer}
    (ho : s.op = some r) (ht : r.todo = .poll w :: rest) (hl : l ≠ s.cfg.busyLevel) (ha : s.answers = .ok l :: more) :
    blockStep s = { s with
      op := some { r with todo := rest }
      trace := s.trace ++ [.read (some l)]
      answers := more } := by
  rw [blockStep_act ho ht]
  simp [perform, State.busRead, State.polled, State.nextAnswer_of_cons _ ha, State.afterAnswer_of_cons _ ha, hl,
    State.emit, State.goOn, answerLevel]

/-- A poll that reads busy before the timeout is followed by its pause, which counts the sleep. -/
theorem blockRun_poll_busy {s : State} {r : Running} {w : Wait} {rest : List Act} {more : List BusAnswer}
    (ho : s.op = some r) (ht : r.todo = .poll w :: rest) (hw : ∀ t, w.timeout = some t → w.elapsed < t)
    (ha : s.answers = .ok s.cfg.busyLevel :: more) :
    blockRun 2 s = { s with
      op := some { r with todo := .poll { w with elapsed := w.elapsed + w.poll } :: rest }
      trace := s.trace ++ [.read (some s.cfg.busyLevel), .sleep w.poll]
      answers := more } := by
  have h1 : blockStep s = { s with
      op := some { r with todo := .pause w :: rest }
      trace := s.trace ++ [.read (some s.cfg.busyLevel)]
      answers := more } := by
    rw [blockStep_act ho ht]
    cases hwt : w.timeout with
    | none =>
      simp [perform, State.busRead, State.polled, State.nextAnswer_of_cons _ ha, State.afterAnswer_of_cons _ ha, hwt,
        State.emit, State.goOn, answerLevel]
    | some t =>
      have : ¬ t ≤ w.elapsed := Nat.not_le.2 (hw t hwt)
      simp [perform, State.busRead, State.polled, State.nextAnswer_of_cons _ ha, State.afterAnswer_of_cons _ ha, hwt,
        State.emit, State.goOn, answerLevel, this]
  rw [blockRun_succ, h1, blockRun_succ, blockRun_zero, blockStep_act rfl rfl]
  simp [perform, State.busSleep, State.emit, State.goOn]

/-- `n` polls of a busy line, none of them at or past the timeout. -/
theorem blockRun_busy {n : Nat} {s : State} {r : Running} {w : Wait} {rest : List Act} {more : List BusAnswer}
    (ho : s.op = some r) (ht : r.todo = .poll w :: rest) (hw : withinTimeout w n)
    (ha : s.answers = List.replicate n (.ok s.cfg.busyLevel) ++ more) :
    blockRun (2 * n) s = { s with
      op := some { r with todo := .poll { w with elapsed := w.elapsed + n * w.poll } :: rest }
      trace := s.trace ++ busyRounds s.cfg.busyLevel w.poll n
      answers := more } := by
  induction n generalizing s r w with
  | zero =>
    have hr : { r with todo := .poll w :: rest } = r := by cases r; simp_all
    cases s
    simp_all [busyRounds]
  | succ n ih =>
    have h0 : ∀ t, w.timeout = some t → w.elapsed < t := fun t h => by simpa using hw 0 (by omega) t h
    rw [show 2 * (n + 1) = 2 + 2 * n by omega, blockRun_add,
      blockRun_poll_busy ho ht h0 (by simpa [List.replicate_succ] using ha)]
    rw [ih (w := { w with elapsed := w.elapsed + w.poll }) rfl rfl ?_ rfl]
    · have he : w.elapsed + w.poll + n * w.poll = w.elapsed + (n + 1) * w.poll := by ring
      simp [busyRounds, he]
    · intro k hk t h
      have := hw (k + 1) (by omega) t h
      simp only [Nat.add_mul] at this
      show w.elapsed + w.poll + k * w.poll < t
      omega

/-- A wait whose line reads busy `n` times and then idle. -/
theorem blockRun_wait {n : Nat} {s : State} {r : Running} {w : Wait} {rest : List Act} {l : Level}
    {more : List BusAnswer} (ho : s.op = some r) (ht : r.todo = .poll w :: rest) (hw : withinTimeout w n)
    (hl : l ≠ s.cfg.busyLevel) (ha : s.answers = IdleAfter s.cfg n l more) :
    blockRun (2 * n + 1) s = { s with
      op := some { r with todo := rest }
      trace := s.trace ++ busyRounds s.cfg.busyLevel w.poll n ++ [.read (some l)]
      answers := more } := by
  rw [blockRun_add, blockRun_busy ho ht hw ha, blockRun_succ, blockRun_zero]
  exact blockStep_poll_idle
    (r := { r with todo := .poll { w with elapsed := w.elapsed + n * w.poll } :: rest }) rfl rfl hl rfl

/-! ### A `MemWrite` -/

/-- The bytes `bs` written from `a` on, in ascending order. -/
def Memory.writeList (fill : Fill) : Memory → Nat → List Byte → Memory
  | m, _, [] => m
  | m, a, b :: bs => Memory.writeList fill (Memory.write fill m a b) (a + 1) bs

theorem Memory.wf_writeList {fill : Fill} {m : Memory} {a : Nat} {bs : List Byte} (h : Memory.wf fill m = true) :
    Memory.wf fill (Memory.writeList fill m a bs) = true := by
  induction bs generalizing m a with
  | nil => exact h
  | cons b bs ih => exact ih (Memory.wf_write h)

theorem Memory.read_writeList_outside {fill : Fill} {m : Memory} {a k : Nat} {bs : List Byte}
    (h : k < a ∨ a + bs.length ≤ k) :
    Memory.read fill (Memory.writeList fill m a bs) k = Memory.read fill m k := by
  induction bs generalizing m a with
  | nil => rfl
  | cons b bs ih =>
    simp only [List.length_cons] at h
    rw [Memory.writeList, ih (by omega), Memory.read_write_other (by omega)]

theorem Memory.read_writeList_inside {fill : Fill} {m : Memory} {a i : Nat} {bs : List Byte}
    (hm : Memory.wf fill m = true) (h : i < bs.length) :
    Memory.read fill (Memory.writeList fill m a bs) (a + i) = bs[i] := by
  induction bs generalizing m a i with
  | nil => simp at h
  | cons b bs ih =>
    cases i with
    | zero =>
      rw [Memory.writeList, Memory.read_writeList_outside (by omega), Nat.add_zero,
        Memory.read_write_same (Memory.wf_sorted hm), List.getElem_cons_zero]
    | succ i =>
      rw [Memory.writeList, show a + (i + 1) = a + 1 + i by omega, ih (Memory.wf_write hm) (by simpa using h),
        List.getElem_cons_succ]

/-- Reading the range back gives the bytes written. -/
theorem State.bytesAt_of_writeList {s u : State} {a : Nat} {bs : List Byte}
    (hm : Memory.wf s.fill s.mem = true) (hc : u.fill = s.fill)
    (hu : u.mem = Memory.writeList s.fill s.mem a bs) : u.bytesAt a bs.length = bs := by
  apply List.ext_getElem
  · simp
  · intro i h1 h2
    rw [State.getElem_bytesAt, State.byteAt, hc, hu, Memory.read_writeList_inside hm h2]

/-- The transitions of a `MemWrite` and the finishing one write the whole list. -/
theorem blockRun_stores {bs : List Byte} {a : Nat} {s : State} {r : Running} (ho : s.op = some r)
    (ht : r.todo = storeActs a bs) (hf : r.fin.store = lastStore a bs) :
    blockRun ((storeActs a bs).length + 1) s =
      { s.finish { r.fin with store := none } with mem := Memory.writeList s.fill s.mem a bs } := by
  induction bs generalizing a s r with
  | nil =>
    rw [show (storeActs a []).length + 1 = 1 from rfl, blockRun_succ, blockRun_zero,
      blockStep_finish ho (by simpa [storeActs] using ht)]
    simp [State.finish, hf, lastStore, Memory.writeList]
  | cons b bs ih =>
    cases bs with
    | nil =>
      rw [show (storeActs a [b]).length + 1 = 1 from rfl, blockRun_succ, blockRun_zero,
        blockStep_finish ho (by simpa [storeActs] using ht)]
      simp [State.finish, hf, lastStore, Memory.writeList]
    | cons c cs =>
      rw [storeActs, List.length_cons, blockRun_succ, blockStep_act ho (by simpa [storeActs] using ht)]
      simp only [perform]
      rw [ih (r := { r with todo := storeActs (a + 1) (c :: cs) }) rfl rfl (by simpa [lastStore] using hf)]
      simp [State.goOn, State.setByte, State.finish, Memory.writeList]

end Sys2Proof.Machine
end

