-- ==== Sys2Proof/Laws/Sequences.lean ====
section
/-! SUPPORT. The sequences the meanings set up: each is made of plain acts, and the events of those acts are the lists of
Safety.lean. Then what `raise`, `launch` and the checks come to. -/

namespace Sys2Proof.Machine

@[simp] theorem raise_eq (e : ErrCode) (s : State) : raise e s = .next { s with err := e, op := none } := rfl

@[simp] theorem launch_eq (i : Instr) (acts : List Act) (fin : Finish) (s : State) :
    launch i acts fin s = .next { s with op := some ⟨i, s.regs, acts, fin⟩ } := rfl

theorem sessionIn_iff {s : State} {ps : List Phase} : s.sessionIn ps = true ↔ s.own = true ∧ s.phase ∈ ps := by
  simp [State.sessionIn]

theorem sessionIn_eq_false {s : State} {ps : List Phase} : s.sessionIn ps = false ↔ ¬ (s.own = true ∧ s.phase ∈ ps) := by
  rw [← Bool.not_eq_true, sessionIn_iff]

theorem validRange_iff {n : Nat} {q : Nat × Nat} : validRange n q = true ↔ q.2 = 0 ∨ q.1 + q.2 ≤ n := by
  simp [validRange]

theorem overlaps_iff {r q : Nat × Nat} :
    overlaps r q = true ↔ 0 < r.2 ∧ 0 < q.2 ∧ r.1 < q.1 + q.2 ∧ q.1 < r.1 + r.2 := by
  simp [overlaps, and_assoc]

theorem inRange_iff {a : Nat} {q : Nat × Nat} : inRange a q = true ↔ q.1 ≤ a ∧ a < q.1 + q.2 := by
  simp [inRange]

/-! ### Plain sequences -/

theorem plain_resetSeq : ∀ a ∈ resetSeq, isPlain a = true := by
  simp [resetSeq, isPlain]

theorem plain_transfer (p : Params) (l : Level) (bs : List Byte) : ∀ a ∈ transfer p l bs, isPlain a = true := by
  simp [transfer, isPlain]

theorem plain_sendData (p : Params) (bs : List Byte) : ∀ a ∈ sendData p bs, isPlain a = true := by
  intro a ha
  unfold sendData at ha
  split at ha
  · split at ha
    · simp at ha
    · exact plain_transfer _ _ _ a ha
  · obtain ⟨b, -, hb⟩ := List.mem_flatMap.1 ha
    exact plain_transfer _ _ _ a hb

theorem plain_frame (p : Params) (f : Byte × List Byte) : ∀ a ∈ frame p f, isPlain a = true := by
  intro a ha
  rcases List.mem_append.1 ha with h | h
  · exact plain_transfer _ _ _ a h
  · exact plain_sendData _ _ a h

theorem plain_frames (p : Params) (fs : List (Byte × List Byte)) : ∀ a ∈ fs.flatMap (frame p), isPlain a = true := by
  intro a ha
  obtain ⟨f, -, hf⟩ := List.mem_flatMap.1 ha
  exact plain_frame p f a hf

@[simp] theorem okEvents_resetSeq : resetSeq.flatMap okEvents = resetEvents := rfl

@[simp] theorem okEvents_transfer (p : Params) (l : Level) (bs : List Byte) :
    (transfer p l bs).flatMap okEvents = transferEvents p l bs := rfl

@[simp] theorem okEvents_sendCommand (p : Params) (b : Byte) : (sendCommand p b).flatMap okEvents = commandEvents p b := rfl

@[simp] theorem okEvents_sendData (p : Params) (bs : List Byte) : (sendData p bs).flatMap okEvents = dataEvents p bs := by
  unfold sendData dataEvents
  split
  · cases bs with
    | nil => rfl
    | cons b bs => simp [batchEvents, dcDataLevel]
  · induction bs with
    | nil => rfl
    | cons b bs ih => simp only [List.flatMap_cons, List.flatMap_append, okEvents_transfer, ih]; rfl

@[simp] theorem okEvents_frame (p : Params) (f : Byte × List Byte) :
    (frame p f).flatMap okEvents = frameEvents p f.1 f.2 := by
  simp [frame, frameEvents, List.flatMap_append]

theorem okEvents_frames (p : Params) (fs : List (Byte × List Byte)) :
    (fs.flatMap (frame p)).flatMap okEvents = fs.flatMap (fun f => frameEvents p f.1 f.2) := by
  induction fs with
  | nil => rfl
  | cons f fs ih => simp only [List.flatMap_cons, List.flatMap_append, okEvents_frame, ih]

theorem AnswersOk.of_answers_eq {s t : State} {es : List BusEvent} {rest : List BusAnswer} (h : AnswersOk s es rest)
    (ht : t.answers = s.answers) : AnswersOk t es rest := by
  obtain ⟨oks, ha, hl⟩ := h
  exact ⟨oks, ht.trans ha, hl⟩

/-- A launched sequence of plain acts whose answers are all ok runs to its finishing transition. -/
theorem run_plain {s : State} {r : Running} {rest : List BusAnswer} (hi : s.inputs = []) (ho : s.op = some r)
    (hp : ∀ a ∈ r.todo, isPlain a = true) (ha : AnswersOk s (r.todo.flatMap okEvents) rest) :
    Sys2Proof.core.run (r.todo.length + 1) s = .next (State.finish
      { s with op := none, trace := s.trace ++ r.todo.flatMap okEvents, answers := rest } r.fin) := by
  apply core_run_of_blockRun hi
  rw [blockRun_add, blockRun_plain (rest := []) hp ho (by simp) ha, blockRun_succ, blockRun_zero,
    blockStep_finish rfl rfl]
  rfl

/-- A launched sequence of plain acts around one wait, the line idle after `n` busy polls, runs to its finishing
transition. -/
theorem run_wait {s : State} {r : Running} {before after : List Act} {w : Wait} {n : Nat} {idle : Level}
    {mid rest : List BusAnswer} (hi : s.inputs = []) (ho : s.op = some r) (ht : r.todo = before ++ .poll w :: after)
    (hp : ∀ a ∈ before, isPlain a = true) (hq : ∀ a ∈ after, isPlain a = true) (hw : withinTimeout w n)
    (hl : idle ≠ s.cfg.busyLevel) (ha : AnswersOk s (before.flatMap okEvents) (IdleAfter s.cfg n idle mid))
    (hb : AnswersOk { s with answers := mid } (after.flatMap okEvents) rest) :
    Sys2Proof.core.run (before.length + (2 * n + 1) + after.length + 1) s = .next (State.finish
      { s with
        op := none
        trace := s.trace ++ before.flatMap okEvents ++ busyRounds s.cfg.busyLevel w.poll n ++
          [BusEvent.read (some idle)] ++ after.flatMap okEvents
        answers := rest } r.fin) := by
  apply core_run_of_blockRun hi
  rw [blockRun_add, blockRun_add, blockRun_add, blockRun_plain hp ho ht ha,
    blockRun_wait (rest := after) rfl rfl hw (by exact hl) rfl,
    blockRun_plain (pre := after) (rest := []) hq rfl (by simp) (by exact hb.of_answers_eq rfl), blockRun_succ, blockRun_zero,
    blockStep_finish rfl rfl]
  simp [List.append_assoc, State.finish]

/-- CLOSE's drives: each answer is taken and ignored. -/
theorem blockRun_drives {pls : List (Pin × Level)} {s : State} {r : Running} {more oks : List BusAnswer}
    (ho : s.op = some r) (ht : r.todo = pls.map (fun pl => .drive pl.1 pl.2)) (hl : oks.length = pls.length)
    (ha : s.answers = oks ++ more) :
    blockRun pls.length s = { s with
      op := some { r with todo := [] }
      trace := s.trace ++ (pls.zip oks).map (fun q => .set q.1.1 q.1.2 (answerOk q.2))
      answers := more } := by
  induction pls generalizing s r oks with
  | nil =>
    have h0 : oks = [] := List.length_eq_zero_iff.1 hl
    have hr : { r with todo := [] } = r := by cases r; simp_all
    cases s
    simp_all
  | cons pl pls ih =>
    cases oks with
    | nil => simp at hl
    | cons x oks =>
      have hx : s.answers = x :: (oks ++ more) := by simpa using ha
      rw [List.length_cons, blockRun_succ, blockStep_act ho (by simpa using ht)]
      simp only [perform]
      rw [ih (r := { r with todo := pls.map (fun pl => .drive pl.1 pl.2) }) (oks := oks) rfl rfl (by simpa using hl)
        (by simp [hx])]
      simp [State.goOn, State.busSet, State.emit, State.nextAnswer_of_cons _ hx, State.afterAnswer_of_cons _ hx]

end Sys2Proof.Machine
end

