-- ==== Sys2Proof/Laws/Containers.lean ====
section
/-! SUPPORT. The bits of a container: rows of equal length, the codes and the pad bits of a stored row, and the header's
bytes. -/

namespace Sys2Proof.Machine

theorem bitAt_append_left {a b : List Byte} {z : Nat} (h : z < 8 * a.length) : bitAt (a ++ b) z = bitAt a z := by
  unfold bitAt
  rw [List.getD_eq_getElem?_getD, List.getD_eq_getElem?_getD, List.getElem?_append_left (by omega)]

theorem bitAt_append_right {a b : List Byte} {z : Nat} : bitAt (a ++ b) (8 * a.length + z) = bitAt b z := by
  unfold bitAt
  rw [List.getD_eq_getElem?_getD, List.getD_eq_getElem?_getD, show (8 * a.length + z) / 8 = a.length + z / 8 by omega,
    show (8 * a.length + z) % 8 = z % 8 by omega, List.getElem?_append_right (by omega)]
  simp

/-- Row `j` of equal-length rows. -/
theorem bitAt_rows {row : Nat} {f : Nat → List Byte} {h j q : Nat} (hf : ∀ j, j < h → (f j).length = row)
    (hj : j < h) (hq : q < 8 * row) :
    bitAt ((List.range h).flatMap f) (8 * row * j + q) = bitAt (f j) q := by
  induction h with
  | zero => omega
  | succ h ih =>
    rw [List.range_succ, List.flatMap_append]
    have hlen : ((List.range h).flatMap f).length = row * h := by
      rw [List.length_flatMap]
      have : (List.range h).map (fun a => (f a).length) = (List.range h).map (fun _ => row) :=
        List.map_congr_left (fun a ha => hf a (by have := List.mem_range.1 ha; omega))
      rw [this]; simp [mul_comm]
    by_cases h' : j < h
    · rw [bitAt_append_left, ih (fun j hj => hf j (by omega)) h']
      rw [hlen]
      calc 8 * row * j + q < 8 * row * j + 8 * row := by omega
        _ = 8 * row * (j + 1) := by ring
        _ ≤ 8 * row * h := Nat.mul_le_mul_left _ (by omega)
        _ = 8 * (row * h) := by ring
    · have : j = h := by omega
      subst this
      rw [show 8 * row * j + q = 8 * ((List.range j).flatMap f).length + q by rw [hlen]; ring, bitAt_append_right]
      simp

/-- Bit `b` of code `x` among the bits of a row's codes. -/
theorem getElem?_codes {bpp : Nat} {codes : List Byte} {x b : Nat} (hx : x < codes.length) (hb : b < bpp) :
    (codes.flatMap (codeBits bpp))[x * bpp + b]? = some (codes[x].getLsbD (bpp - 1 - b)) := by
  induction codes generalizing x with
  | nil => simp at hx
  | cons c cs ih =>
    rw [List.flatMap_cons]
    cases x with
    | zero => 
      rw [Nat.zero_mul, Nat.zero_add, List.getElem?_append_left (by simpa using hb)]
      simp [codeBits, hb]
    | succ x =>
      rw [List.getElem?_append_right (by rw [length_codeBits]; nlinarith), length_codeBits,
        show (x + 1) * bpp + b - bpp = x * bpp + b by rw [Nat.add_mul]; omega,
        ih (by simpa using hx)]
      rfl

theorem length_storedRow_bits {w bpp : Nat} {codes : List Byte} (hc : codes.length = w) :
    (codes.flatMap (codeBits bpp) ++ List.replicate (8 * rowBytes w bpp - w * bpp) true).length =
      8 * rowBytes w bpp := by
  have := rowBits_le w bpp
  rw [List.length_append, length_flatMap_codeBits, List.length_replicate, hc]; omega

/-- A code bit of a stored row. -/
theorem bitAt_storedRow_code {w bpp : Nat} {codes : List Byte} {x b : Nat} (hc : codes.length = w) (hx : x < w)
    (hb : b < bpp) :
    bitAt (storedRow w bpp codes) (x * bpp + b) = (codes.getD x 0).getLsbD (bpp - 1 - b) := by
  have h1 : x * bpp + b < w * bpp := by
    calc x * bpp + b < x * bpp + bpp := by omega
      _ = (x + 1) * bpp := by ring
      _ ≤ w * bpp := Nat.mul_le_mul_right _ (by omega)
  have h2 := rowBits_le w bpp
  unfold storedRow
  rw [bitAt_bytesMsbFirst _ _ (by rw [length_storedRow_bits hc]; omega), List.getD_eq_getElem?_getD,
    List.getElem?_append_left (by rw [length_flatMap_codeBits, hc]; omega), getElem?_codes (by omega) hb]
  simp [List.getD_eq_getElem?_getD, hc, hx]

/-- A pad bit of a stored row. -/
theorem bitAt_storedRow_pad {w bpp : Nat} {codes : List Byte} {q : Nat} (hc : codes.length = w) (h1 : w * bpp ≤ q)
    (h2 : q < 8 * rowBytes w bpp) :
    bitAt (storedRow w bpp codes) q = true := by
  unfold storedRow
  rw [bitAt_bytesMsbFirst _ _ (by rw [length_storedRow_bits hc]; omega), List.getD_eq_getElem?_getD,
    List.getElem?_append_right (by rw [length_flatMap_codeBits, hc]; omega), List.getElem?_replicate,
    if_pos (by rw [length_flatMap_codeBits, hc]; omega)]
  rfl

theorem legalBpp_iff {b : Word} : legalBpp b = true ↔ (b.toNat = 1 ∨ b.toNat = 2 ∨ b.toNat = 4) := by
  have e : ∀ k : Word, b = k ↔ b.toNat = k.toNat := fun k => ⟨fun h => by rw [h], BitVec.eq_of_toNat_eq⟩
  simp [legalBpp, e]

theorem State.bytesAt_append {s : State} {a m n : Nat} : s.bytesAt a (m + n) = s.bytesAt a m ++ s.bytesAt (a + m) n := by
  apply List.ext_getElem
  · simp
  · intro i h1 h2
    rw [State.getElem_bytesAt]
    by_cases h : i < m
    · rw [List.getElem_append_left (by simpa using h), State.getElem_bytesAt]
    · rw [List.getElem_append_right (by simpa using h), State.getElem_bytesAt]
      congr 1; simp; omega

/-- Some code of the list is too large just when some byte of the range is. -/
theorem State.any_bytesAt {s : State} {a n k : Nat} :
    (s.bytesAt a n).any (fun c => decide (k ≤ c.toNat)) = true ↔
      ∃ i, i < n ∧ k ≤ (s.byteAt (a + i)).toNat := by
  rw [List.any_eq_true]
  constructor
  · rintro ⟨c, hc, h⟩
    obtain ⟨i, hi, rfl⟩ := List.getElem_of_mem hc
    rw [State.getElem_bytesAt] at h
    exact ⟨i, by simpa using hi, by simpa using h⟩
  · rintro ⟨i, hi, h⟩
    have hl : i < (s.bytesAt a n).length := by simpa using hi
    refine ⟨(s.bytesAt a n)[i], List.getElem_mem hl, ?_⟩
    rw [State.getElem_bytesAt]; simpa using h

/-- The header of a legal bit depth, byte by byte. -/
theorem containerHeader_eq (total w h bpp : Nat) (hb : bpp = 1 ∨ bpp = 2 ∨ bpp = 4) : containerHeader total w h bpp =
        [0x42, 0x4D] ++ le32 total ++ [0, 0, 0, 0] ++ [70, 0, 0, 0] ++ [40, 0, 0, 0] ++ le32 w ++ le32 h ++ [1, 0] ++
        [BitVec.ofNat 8 bpp, 0] ++ List.replicate 16 0 ++ [4, 0, 0, 0] ++ [0, 0, 0, 0] ++
        [0, 0, 0, 0, 0x55, 0x55, 0x55, 0, 0xAA, 0xAA, 0xAA, 0, 0xFF, 0xFF, 0xFF, 0] := by
  rcases hb with rfl | rfl | rfl <;> rfl

/-- Four little-endian bytes read back. -/
theorem le32_back {n : Nat} (h : n < 4294967296) :
    (BitVec.ofNat 8 n).toNat + 256 * (BitVec.ofNat 8 (n / 256)).toNat +
      65536 * (BitVec.ofNat 8 (n / 65536)).toNat +
      16777216 * (BitVec.ofNat 8 (n / 16777216)).toNat = n := by
  simp only [BitVec.toNat_ofNat]; omega

end Sys2Proof.Machine
end

