-- ==== Sys2Proof/Laws/Meanings.lean ====
section
/-! SUPPORT. What each meaning answers: one lemma per way it can go, with the checks that lead there. -/

namespace Sys2Proof.Machine
variable (s : State)

/-- ENCODE: an error code, or both ranges valid and apart, and the packing started. -/
theorem execEncode_cases : (∃ e, execEncode s = raise e s) ∨
    (∃ portrait, orientation s.regs = some portrait ∧
      validRange s.cfg.memSize.val s.regs.gridRange = true ∧ validRange s.cfg.memSize.val s.regs.frameRange = true ∧
      overlaps s.regs.gridRange s.regs.frameRange = false ∧
      execEncode s = launch .encode (storeActs s.regs.dst.toNat (frameBuffer portrait s))
        { err := .ok
          orient := some portrait
          outLen := some (BitVec.ofNat 32 s.regs.frameSize)
          store := lastStore s.regs.dst.toNat (frameBuffer portrait s) } s) := by
  unfold execEncode
  dsimp only
  split
  · exact .inl ⟨_, rfl⟩
  · rename_i portrait hp
    split
    · rename_i hv
      split
      · exact .inl ⟨_, rfl⟩
      · rename_i ho
        rw [Bool.and_eq_true] at hv
        exact .inr ⟨portrait, hp, hv.1, hv.2, by simpa using ho, rfl⟩
    · exact .inl ⟨_, rfl⟩

/-- ASSEMBLE: an error code, or every check passed and the container started. -/
theorem execAssemble_cases : (∃ e, execAssemble s = raise e s) ∨
    (legalBpp s.regs.bpp = true ∧ s.regs.len.toNat = s.regs.imgW.toNat * s.regs.imgH.toNat ∧
      s.regs.containerSize ≤ maxTotal ∧
      validRange s.cfg.memSize.val s.regs.srcRange = true ∧ validRange s.cfg.memSize.val s.regs.containerRange = true ∧
      overlaps s.regs.srcRange s.regs.containerRange = false ∧
      (s.bytesAt s.regs.src.toNat s.regs.len.toNat).any (fun c => decide (ncodes s.regs.bpp.toNat ≤ c.toNat)) = false ∧
      execAssemble s = launch .assemble (storeActs s.regs.dst.toNat (container s))
        { err := .ok
          outLen := some (BitVec.ofNat 32 s.regs.containerSize)
          store := lastStore s.regs.dst.toNat (container s) } s) := by
  unfold execAssemble
  dsimp only
  by_cases h1 : legalBpp s.regs.bpp = true
  case neg => exact .inl ⟨_, by rw [if_pos (by simpa using h1)]⟩
  rw [if_neg (by simpa using h1)]
  by_cases h2 : s.regs.len.toNat = s.regs.imgW.toNat * s.regs.imgH.toNat
  case neg => exact .inl ⟨_, by rw [if_pos h2]⟩
  rw [if_neg (by simpa using h2)]
  by_cases h3 : maxTotal < s.regs.containerSize
  case pos => exact .inl ⟨_, by rw [if_pos h3]⟩
  rw [if_neg h3]
  by_cases h4 : (validRange s.cfg.memSize.val s.regs.srcRange && validRange s.cfg.memSize.val s.regs.containerRange) = true
  case neg => exact .inl ⟨_, by rw [if_pos (by simp only [h4]; rfl)]⟩
  rw [if_neg (by simp only [h4]; decide)]
  by_cases h5 : overlaps s.regs.srcRange s.regs.containerRange = true
  case pos => exact .inl ⟨_, by rw [if_pos h5]⟩
  rw [if_neg h5]
  by_cases h6 : (s.bytesAt s.regs.src.toNat s.regs.len.toNat).any
      (fun c => decide (ncodes s.regs.bpp.toNat ≤ c.toNat)) = true
  case pos => exact .inl ⟨_, by rw [if_pos h6]⟩
  rw [if_neg h6]
  rw [Bool.and_eq_true] at h4
  exact .inr ⟨h1, h2, Nat.le_of_not_lt h3, h4.1, h4.2, by simpa using h5, by simpa using h6, rfl⟩

variable {s}

/-- RESET in an open session starts the reset sequence. -/
theorem execReset_accepted (ho : s.own = true) (hp : s.phase ∈ [.unopened, .reset, .initialized]) :
    execReset s = launch .reset resetSeq { err := .ok, phase := some .reset } s :=
  if_pos (sessionIn_iff.2 ⟨ho, hp⟩)

theorem execReset_rejected (h : ¬ (s.own = true ∧ s.phase ∈ [.unopened, .reset, .initialized])) :
    execReset s = raise .invalidState s :=
  if_neg (by rwa [sessionIn_iff])

theorem execSendCommand_accepted (ho : s.own = true) (hp : s.phase ∈ [.reset, .initialized]) :
    execSendCommand s = launch .sendCommand (sendCommand s.cfg s.regs.opByte) { err := .ok } s :=
  if_pos (sessionIn_iff.2 ⟨ho, hp⟩)

theorem execSendCommand_rejected (h : ¬ (s.own = true ∧ s.phase ∈ [.reset, .initialized])) :
    execSendCommand s = raise .invalidState s :=
  if_neg (by rwa [sessionIn_iff])

theorem execSendData_accepted (ho : s.own = true) (hp : s.phase ∈ [.reset, .initialized])
    (hv : validRange s.cfg.memSize.val s.regs.srcRange = true) :
    execSendData s = launch .sendData (sendData s.cfg (s.bytesAt s.regs.src.toNat s.regs.len.toNat)) { err := .ok } s :=
  (if_pos (sessionIn_iff.2 ⟨ho, hp⟩)).trans (if_pos hv)

theorem execSendData_badRange (ho : s.own = true) (hp : s.phase ∈ [.reset, .initialized])
    (hv : validRange s.cfg.memSize.val s.regs.srcRange = false) : execSendData s = raise .addressError s :=
  (if_pos (sessionIn_iff.2 ⟨ho, hp⟩)).trans (if_neg (by simp [hv]))

theorem execSendData_rejected (h : ¬ (s.own = true ∧ s.phase ∈ [.reset, .initialized])) :
    execSendData s = raise .invalidState s :=
  if_neg (by rwa [sessionIn_iff])

theorem execWaitReady_accepted (ho : s.own = true) (hp : s.phase ∈ [.reset, .initialized]) :
    execWaitReady s = launch .waitReady (waitReady s.regs) { err := .ok } s :=
  if_pos (sessionIn_iff.2 ⟨ho, hp⟩)

theorem execWaitReady_rejected (h : ¬ (s.own = true ∧ s.phase ∈ [.reset, .initialized])) :
    execWaitReady s = raise .invalidState s :=
  if_neg (by rwa [sessionIn_iff])

theorem execInit_accepted (ho : s.own = true) (hp : s.phase ∈ [.unopened, .reset]) :
    execInit s = launch .init
      (resetSeq ++ [.enter .reset] ++ (initFrames s.cfg).flatMap (frame s.cfg) ++ waitReady s.regs)
      { err := .ok, phase := some .initialized } s :=
  if_pos (sessionIn_iff.2 ⟨ho, hp⟩)

theorem execInit_rejected (h : ¬ (s.own = true ∧ s.phase ∈ [.unopened, .reset])) : execInit s = raise .invalidState s :=
  if_neg (by rwa [sessionIn_iff])

theorem execClear_accepted (ho : s.own = true) (hp : s.phase = .initialized) :
    execClear s = launch .clear
      (refresh s.cfg s.regs (List.replicate (planeSize s.cfg) clearByte) (List.replicate (planeSize s.cfg) clearByte))
      { err := .ok, phase := some .initialized } { s with phase := .clearing } :=
  if_pos (sessionIn_iff.2 ⟨ho, by simp [hp]⟩)

theorem execClear_rejected (h : ¬ (s.own = true ∧ s.phase = .initialized)) : execClear s = raise .invalidState s :=
  if_neg (by simpa [sessionIn_iff] using h)

theorem execDisplay_accepted (ho : s.own = true) (hp : s.phase = .initialized)
    (hn : s.regs.len.toNat = planeSize s.cfg ∧ s.regs.len2.toNat = planeSize s.cfg)
    (hv : validRange s.cfg.memSize.val s.regs.srcRange = true ∧ validRange s.cfg.memSize.val s.regs.src2Range = true) :
    execDisplay s = launch .display
      (refresh s.cfg s.regs (s.bytesAt s.regs.src.toNat s.regs.len.toNat) (s.bytesAt s.regs.src2.toNat s.regs.len2.toNat))
      { err := .ok, phase := some .initialized } { s with phase := .displaying } :=
  (if_pos (sessionIn_iff.2 ⟨ho, by simp [hp]⟩)).trans
    ((if_pos hn).trans (if_pos (by rw [Bool.and_eq_true]; exact hv)))

theorem execDisplay_badLength (ho : s.own = true) (hp : s.phase = .initialized)
    (hn : ¬ (s.regs.len.toNat = planeSize s.cfg ∧ s.regs.len2.toNat = planeSize s.cfg)) :
    execDisplay s = raise .dimensionMismatch s :=
  (if_pos (sessionIn_iff.2 ⟨ho, by simp [hp]⟩)).trans (if_neg hn)

theorem execDisplay_badRange (ho : s.own = true) (hp : s.phase = .initialized)
    (hn : s.regs.len.toNat = planeSize s.cfg ∧ s.regs.len2.toNat = planeSize s.cfg)
    (hv : ¬ (validRange s.cfg.memSize.val s.regs.srcRange = true ∧
      validRange s.cfg.memSize.val s.regs.src2Range = true)) : execDisplay s = raise .addressError s :=
  (if_pos (sessionIn_iff.2 ⟨ho, by simp [hp]⟩)).trans ((if_pos hn).trans (if_neg (by rwa [Bool.and_eq_true])))

theorem execDisplay_rejected (h : ¬ (s.own = true ∧ s.phase = .initialized)) : execDisplay s = raise .invalidState s :=
  if_neg (by simpa [sessionIn_iff] using h)

theorem execSleep_accepted (ho : s.own = true) (hp : s.phase = .initialized) :
    execSleep s = launch .sleep
      (frame s.cfg (s.cfg.opcPowerOff, s.cfg.payPowerOff) ++ waitReady s.regs ++
        frame s.cfg (s.cfg.opcDeepSleep, s.cfg.payDeepSleep))
      { err := .ok, phase := some .closed } { s with phase := .sleeping } :=
  if_pos (sessionIn_iff.2 ⟨ho, by simp [hp]⟩)

theorem execSleep_rejected (h : ¬ (s.own = true ∧ s.phase = .initialized)) : execSleep s = raise .invalidState s :=
  if_neg (by simpa [sessionIn_iff] using h)

end Sys2Proof.Machine
end

