-- ==== Sys2Proof/Laws/PerInstr.lean ====
section
/-! SUPPORT. One lemma per constructor of `Instr`: its encoding has exactly one row in the opcode map
(spec/30_encoding.md R302). -/

namespace Sys2Proof

/-- No word hits two rows of the opcode map: the rows compare every bit, and their patterns differ. -/
theorem opcodeMap_disjoint :
    opcodeMap.Pairwise (fun r q => r.mask = 0xFFFFFFFF ∧ q.mask = 0xFFFFFFFF ∧ r.pattern ≠ q.pattern) := by
  decide

/-- The instruction is well formed, its word is a well-formed CMD word, and the rows of the map that hold the word are
exactly the one row of the instruction. -/
def Laws.Encodes.Statement (i : Instr) : Prop :=
  i.wf = true ∧ CmdWord.wf (Sys2Proof.encode i) = true ∧
    opcodeMap.filter (fun r => r.hits (Sys2Proof.encode i)) = [⟨0xFFFFFFFF, Sys2Proof.encode i, i⟩]

theorem Laws.Encodes.encode : Laws.Encodes.Statement .encode := by unfold Laws.Encodes.Statement; decide
theorem Laws.Encodes.assemble : Laws.Encodes.Statement .assemble := by unfold Laws.Encodes.Statement; decide
theorem Laws.Encodes.reset : Laws.Encodes.Statement .reset := by unfold Laws.Encodes.Statement; decide
theorem Laws.Encodes.sendCommand : Laws.Encodes.Statement .sendCommand := by unfold Laws.Encodes.Statement; decide
theorem Laws.Encodes.sendData : Laws.Encodes.Statement .sendData := by unfold Laws.Encodes.Statement; decide
theorem Laws.Encodes.waitReady : Laws.Encodes.Statement .waitReady := by unfold Laws.Encodes.Statement; decide
theorem Laws.Encodes.openSession : Laws.Encodes.Statement .openSession := by unfold Laws.Encodes.Statement; decide
theorem Laws.Encodes.init : Laws.Encodes.Statement .init := by unfold Laws.Encodes.Statement; decide
theorem Laws.Encodes.clear : Laws.Encodes.Statement .clear := by unfold Laws.Encodes.Statement; decide
theorem Laws.Encodes.display : Laws.Encodes.Statement .display := by unfold Laws.Encodes.Statement; decide
theorem Laws.Encodes.sleep : Laws.Encodes.Statement .sleep := by unfold Laws.Encodes.Statement; decide
theorem Laws.Encodes.close : Laws.Encodes.Statement .close := by unfold Laws.Encodes.Statement; decide

end Sys2Proof
end

