-- ==== Sys2Proof/Laws/Step.lean ====
section
/-! SUPPORT. What a step is for each kind of input, and what each meaning can answer. -/

namespace Sys2Proof.Machine

/-- An end that writes the code and nothing else. -/
@[simp] theorem State.finish_code (s : State) (e : ErrCode) :
    s.finish { err := e } = { s with err := e, op := none } := rfl

@[simp] theorem registerAt_offset (p : Params) (r : RegName) : registerAt p (.offset r.offset) 4 = .ok r := by
  cases r <;> rfl

/-- Both ways of naming a register name it. -/
theorem registerAt_hits {p : Params} {loc : Loc} {r : RegName} (h : Loc.hits p loc r.offset) :
    registerAt p loc 4 = .ok r := by
  rcases h with rfl | ⟨a, rfl, ha⟩
  · exact registerAt_offset p r
  · have h1 := registerAt_offset p r
    simp only [registerAt] at h1 ⊢
    rw [if_neg (by omega), show a.toNat - p.base.toNat = r.offset by omega]
    exact h1

/-- A window access is a register's only if it is a whole word at that register's place. -/
theorem registerAt_ok {p : Params} {loc : Loc} {size : Nat} {r : RegName} (h : registerAt p loc size = .ok r) :
    size = 4 ∧ Loc.hits p loc r.offset := by
  have ofOffset {n : Nat} {q : RegName} (hq : RegName.ofOffset n = some q) : n = q.offset := by
    have := List.find?_some hq
    simp only [beq_iff_eq] at this
    exact this.symm
  unfold registerAt at h
  cases loc with
  | offset n =>
    dsimp only at h
    repeat' split at h
    all_goals cases h
    rename_i hs _ _ hq
    exact ⟨by simpa using hs, .inl (by rw [ofOffset hq])⟩
  | address a =>
    dsimp only at h
    repeat' split at h
    all_goals cases h
    rename_i hb hs _ _ hq
    exact ⟨by simpa using hs, .inr ⟨a, rfl, by have := ofOffset hq; omega⟩⟩

theorem step_regWrite {s : State} {loc : Loc} {r : RegName} {v : Word} {rest : List Input}
    (h : s.inputs = .host (.regWrite loc 4 v) :: rest) (hl : Loc.hits s.cfg loc r.offset) :
    step s = writeReg r v { s with inputs := rest } := by
  rw [step_of_cons h]
  simp only [takeInput, hostAccess, registerAt_hits hl]

theorem step_regRead {s : State} {loc : Loc} {r : RegName} {rest : List Input}
    (h : s.inputs = .host (.regRead loc 4) :: rest) (hl : Loc.hits s.cfg loc r.offset) :
    step s = readReg r { s with inputs := rest } := by
  rw [step_of_cons h]
  simp only [takeInput, hostAccess, registerAt_hits hl]

theorem step_wr {s : State} {r : RegName} {v : Word} {rest : List Input} (h : s.inputs = wr r v :: rest) :
    step s = writeReg r v { s with inputs := rest } :=
  step_regWrite h (.inl rfl)

theorem step_rd {s : State} {r : RegName} {rest : List Input} (h : s.inputs = rd r :: rest) :
    step s = readReg r { s with inputs := rest } :=
  step_regRead h (.inl rfl)

theorem step_tick {s : State} {rest : List Input} (h : s.inputs = .tick :: rest) :
    step s = .next (blockStep { s with inputs := rest }) := by
  rw [step_of_cons h]
  rfl

theorem step_blockReset {s : State} {rest : List Input} (h : s.inputs = .blockReset :: rest) :
    step s = .next (blockReset { s with inputs := rest }) := by
  rw [step_of_cons h]
  rfl

/-- A register write with no operation running: CMD starts an operation, the others store. -/
theorem writeReg_idle {s : State} (h : s.op = none) (r : RegName) (v : Word) :
    writeReg r v s = if r = .cmd then writeCmd v s else .next { s with regs := s.regs.write r v } := by
  cases r <;> simp [writeReg, State.running, h]

theorem writeReg_running {s : State} (h : s.running = true) (r : RegName) (v : Word) :
    writeReg r v s = .refused (.registerWriteWhileRunning r) := by
  simp [writeReg, h]

/-! ### Block reset -/

theorem Act.storeAddr_eq_some {a : Act} {k : Nat} : a.storeAddr = some k ↔ ∃ b, a = .store k b := by
  cases a <;> simp [Act.storeAddr]

/-- The bytes that stand are those the running operation has stored: in its destination, with no store to come. -/
theorem mem_standing {s : State} {a : Nat} : a ∈ s.standing ↔ s.storedByOperation a := by
  unfold State.standing State.storedByOperation
  cases s.op with
  | none => simp
  | some r =>
    simp only [Running.stored, Running.pending, List.mem_filter, List.mem_flatMap, List.mem_map, List.mem_range,
      Bool.not_eq_true', List.contains_eq_mem, decide_eq_false_iff_not, List.mem_append, List.mem_filterMap,
      Act.storeAddr_eq_some, Option.mem_toList, Option.map_eq_some_iff, Option.some.injEq, exists_eq_left', not_or]
    constructor
    · rintro ⟨⟨q, hq, i, hi, rfl⟩, h1, h2⟩
      exact ⟨⟨q, hq, by omega, by omega⟩, fun b hb => h1 ⟨_, hb, b, rfl⟩, fun b hb => h2 ⟨(_, b), hb, rfl⟩⟩
    · rintro ⟨⟨q, hq, h3, h4⟩, h1, h2⟩
      refine ⟨⟨q, hq, a - q.1, by omega, by omega⟩, ?_, ?_⟩
      · rintro ⟨_, hb, b, rfl⟩
        exact h1 b hb
      · rintro ⟨⟨k, b⟩, hb, rfl⟩
        exact h2 b hb

/-- What a byte reads after a block reset: as before where the abandoned operation has stored it, else a new draw. -/
theorem blockReset_byteAt (s : State) (a : Nat) : (s.storedByOperation a → (blockReset s).byteAt a = s.byteAt a) ∧
    (¬ s.storedByOperation a → (blockReset s).byteAt a = Config.powerOnByte (s.fill.epoch + 1) a) := by
  rw [← mem_standing]
  constructor <;> intro h <;> simp [State.byteAt, Memory.read_listed, h, powerOn]

/-- A meaning answers a code, or takes the bus (OPEN), or starts a sequence under the latch; a transient phase may be
written with the start. -/
theorem exec_cases (i : Instr) (s : State) :
    (∃ e, exec i s = .next { s with err := e, op := none }) ∨
    (i = .openSession ∧ s.own = false ∧
      exec i s = .next { s with err := .ok, phase := .unopened, own := true, op := none }) ∨
    (∃ acts fin, exec i s = .next { s with op := some ⟨i, s.regs, acts, fin⟩ }) ∨
    (∃ acts fin ph, (i = .clear ∧ ph = .clearing ∨ i = .display ∧ ph = .displaying ∨ i = .sleep ∧ ph = .sleeping) ∧
      exec i s = .next { s with phase := ph, op := some ⟨i, s.regs, acts, fin⟩ }) := by
  cases i <;> unfold exec <;> dsimp only
  case encode =>
    unfold execEncode
    dsimp only
    repeat' split
    all_goals first
      | exact .inl ⟨_, rfl⟩
      | exact .inr (.inr (.inl ⟨_, _, rfl⟩))
  case assemble =>
    unfold execAssemble
    dsimp only
    repeat' split
    all_goals first
      | exact .inl ⟨_, rfl⟩
      | exact .inr (.inr (.inl ⟨_, _, rfl⟩))
  case reset =>
    unfold execReset
    split
    · exact .inr (.inr (.inl ⟨_, _, rfl⟩))
    · exact .inl ⟨_, rfl⟩
  case sendCommand =>
    unfold execSendCommand
    split
    · exact .inr (.inr (.inl ⟨_, _, rfl⟩))
    · exact .inl ⟨_, rfl⟩
  case sendData =>
    unfold execSendData
    repeat' split
    all_goals first
      | exact .inl ⟨_, rfl⟩
      | exact .inr (.inr (.inl ⟨_, _, rfl⟩))
  case waitReady =>
    unfold execWaitReady
    split
    · exact .inr (.inr (.inl ⟨_, _, rfl⟩))
    · exact .inl ⟨_, rfl⟩
  case openSession =>
    unfold execOpen
    split
    · exact .inl ⟨_, rfl⟩
    · rename_i h
      exact .inr (.inl ⟨rfl, by simpa using h, rfl⟩)
  case init =>
    unfold execInit
    split
    · exact .inr (.inr (.inl ⟨_, _, rfl⟩))
    · exact .inl ⟨_, rfl⟩
  case clear =>
    unfold execClear
    dsimp only
    split
    · exact .inr (.inr (.inr ⟨_, _, _, .inl ⟨rfl, rfl⟩, rfl⟩))
    · exact .inl ⟨_, rfl⟩
  case display =>
    unfold execDisplay
    dsimp only
    repeat' split
    all_goals first
      | exact .inl ⟨_, rfl⟩
      | exact .inr (.inr (.inr ⟨_, _, _, .inr (.inl ⟨rfl, rfl⟩), rfl⟩))
  case sleep =>
    unfold execSleep
    split
    · exact .inr (.inr (.inr ⟨_, _, _, .inr (.inr ⟨rfl, rfl⟩), rfl⟩))
    · exact .inl ⟨_, rfl⟩
  case close => exact .inr (.inr (.inl ⟨_, _, rfl⟩))

/-- Every way a step can answer a next state: a transition of the block, a host access, or a block reset. -/
theorem step_cases {s t : State} (h : step s = .next t) :
    (s.inputs = [] ∧ t = blockStep s) ∨
    (∃ rest, s.inputs = .tick :: rest ∧ t = blockStep { s with inputs := rest }) ∨
    (∃ x rest, s.inputs = .host x :: rest ∧ hostAccess x { s with inputs := rest } = .next t) ∨
    (∃ rest, s.inputs = .blockReset :: rest ∧ t = blockReset { s with inputs := rest }) := by
  cases hi : s.inputs with
  | nil =>
    rw [step_of_nil hi] at h
    cases h
    exact .inl ⟨rfl, rfl⟩
  | cons i rest =>
    rw [step_of_cons hi] at h
    cases i with
    | host x => exact .inr (.inr (.inl ⟨x, rest, rfl, h⟩))
    | tick =>
      cases h
      exact .inr (.inl ⟨rest, rfl, rfl⟩)
    | blockReset =>
      cases h
      exact .inr (.inr (.inr ⟨rest, rfl, rfl⟩))

/-- Every way a host access can answer a next state: a reply, a register stored, an operation or ILLEGAL_OP, or a byte
written outside the locked ranges. -/
theorem hostAccess_cases {x : Access} {s t : State} (h : hostAccess x s = .next t) :
    (∃ y, t = { s with replies := s.replies ++ [y] }) ∨
    (∃ r v loc, x = .regWrite loc 4 v ∧ Loc.hits s.cfg loc r.offset ∧ r ≠ .cmd ∧ s.running = false ∧
      t = { s with regs := s.regs.write r v }) ∨
    (∃ v loc, x = .regWrite loc 4 v ∧ Loc.hits s.cfg loc 0 ∧ s.running = false ∧ writeCmd v s = .next t) ∨
    (∃ a b, x = .memWrite a b ∧ a.toNat < s.cfg.memSize.val ∧ s.writeLocked a.toNat = false ∧
      t = s.setByte a.toNat b) := by
  cases x with
  | regRead loc size =>
    simp only [hostAccess] at h
    split at h
    · cases h
      exact .inl ⟨_, rfl⟩
    · cases h
  | regWrite loc size v =>
    simp only [hostAccess] at h
    split at h
    · rename_i r hreg
      obtain ⟨rfl, hl⟩ := registerAt_ok hreg
      simp only [writeReg] at h
      split at h
      · cases h
      · rename_i hr
        have hr : s.running = false := by simpa using hr
        split at h
        · exact .inr (.inr (.inl ⟨v, loc, rfl, hl, hr, h⟩))
        · rename_i hc
          cases h
          exact .inr (.inl ⟨r, v, loc, rfl, hl, hc, hr, rfl⟩)
    · cases h
  | memRead a =>
    simp only [hostAccess] at h
    split at h
    · cases h
    · split at h
      · cases h
      · cases h
        exact .inl ⟨_, rfl⟩
  | memWrite a b =>
    simp only [hostAccess] at h
    split at h
    · cases h
    · rename_i ha
      split at h
      · cases h
      · rename_i hl
        cases h
        exact .inr (.inr (.inr ⟨a, b, rfl, by omega, by simpa using hl, rfl⟩))

/-- A CMD write with no operation running: an operation's meaning, or ILLEGAL_OP. -/
theorem writeCmd_cases {v : Word} {s t : State} (h : writeCmd v s = .next t) :
    (∃ i, decode v = .ok i ∧ exec i s = .next t) ∨ t = { s with err := .illegalOp, op := none } := by
  unfold writeCmd at h
  split at h
  · rename_i i hd
    exact .inl ⟨i, hd, h⟩
  · cases h
    exact .inr rfl

end Sys2Proof.Machine
end

