-- ==== Sys2Proof/Tests/Slice0.lean ====
section
/-! SUPPORT. The model's own tests: small states of the test instance T of spec/95_test_vectors.md, expected values from
that file's vectors; then one witness per statement, a concrete state and operands that meet its hypotheses. -/

namespace Sys2Proof.Tests

open Sys2Proof Sys2Proof.Machine

/-! ### The test instance and small states -/

/-- Instance T (95 section 0). -/
def T : Params where
  base := 0x40000000
  memSize := 0x1000
  panelW := 8
  panelH := 2
  threshold := 128
  busyLevel := 0
  dcCmdLevel := 0
  csActiveLevel := 0
  batchWrites := false
  opcDtm1 := 0x10
  opcDtm2 := 0x13
  opcRefresh := 0x12
  opcBooster := 0x06
  opcPowerOn := 0x04
  opcPowerOff := 0x02
  opcPanelSetting := 0x00
  opcDeepSleep := 0x07
  payBooster := [0x17, 0x17, 0x17]
  payPowerOn := []
  payPanelSetting := [0x1F]
  payRefresh := []
  payPowerOff := []
  payDeepSleep := [0xA5]
  safeLevels := [(.dc, 0), (.cs, 0), (.rst, 0)]
  defaultPollMs := 5
  defaultTimeoutMs := 100

/-- The block after reset, as T, with a memory that reads 0 where nothing has written. -/
def idle : State := { State.resetOf T with fill := { known := some 0, epoch := 0 } }
/-- (1, Unopened). -/
def opened : State := { idle with own := true, phase := .unopened }
/-- (1, Initialized). -/
def ready : State := { idle with own := true, phase := .initialized }
/-- (1, Failed). -/
def failed : State := { idle with own := true, phase := .failed }

/-- The same state with T in the batch profile. -/
def batch (s : State) : State := { s with cfg := { T with batchWrites := true } }

/-- A running operation with `acts` to come. -/
def running (s : State) (i : Instr) (acts : List Act) (fin : Finish) : State :=
  { s with op := some ⟨i, s.regs, acts, fin⟩ }

/-- The acts an answer leaves to come. -/
def actsOf : Out → Option (List Act)
  | .next s => s.op.map (fun r => r.todo)
  | .fault _ | .refused _ => none

/-- STATUS after an answer. -/
def statusOf : Out → Option Word
  | .next s => some s.status
  | .fault _ | .refused _ => none

/-- `CMD(b)` of 95 section 0, as acts. -/
def cmd (b : Byte) : List Act := [.set .dc 0, .set .cs 0, .write [b], .set .cs 1]
/-- `DAT(b)` of 95 section 0, as acts. -/
def dat (b : Byte) : List Act := [.set .dc 1, .set .cs 0, .write [b], .set .cs 1]
/-- `n` answers `ok`. -/
def oks (n : Nat) : List BusAnswer := List.replicate n (.ok 1)

/-! ### Words (30 R301, R302, R303): MBZ[31:4] beside OP[3:0] -/

theorem test_decode_encode : decode (0x0000000#28 ++ 0b0001#4) = .ok .encode := by decide
theorem test_decode_assemble : decode (0x0000000#28 ++ 0b0010#4) = .ok .assemble := by decide
theorem test_decode_reset : decode (0x0000000#28 ++ 0b0011#4) = .ok .reset := by decide
theorem test_decode_send_command : decode (0x0000000#28 ++ 0b0100#4) = .ok .sendCommand := by decide
theorem test_decode_send_data : decode (0x0000000#28 ++ 0b0101#4) = .ok .sendData := by decide
theorem test_decode_wait_ready : decode (0x0000000#28 ++ 0b0110#4) = .ok .waitReady := by decide
theorem test_decode_open : decode (0x0000000#28 ++ 0b1000#4) = .ok .openSession := by decide
theorem test_decode_init : decode (0x0000000#28 ++ 0b1001#4) = .ok .init := by decide
theorem test_decode_clear : decode (0x0000000#28 ++ 0b1010#4) = .ok .clear := by decide
theorem test_decode_display : decode (0x0000000#28 ++ 0b1011#4) = .ok .display := by decide
theorem test_decode_sleep : decode (0x0000000#28 ++ 0b1100#4) = .ok .sleep := by decide
theorem test_decode_close : decode (0x0000000#28 ++ 0b1101#4) = .ok .close := by decide

/-- V-D1 to V-D3. -/
theorem test_decode_reserved : decode 0x0 = .error .reservedOp ∧ decode 0x7 = .error .reservedOp ∧
    decode 0xE = .error .reservedOp ∧ decode 0xF = .error .reservedOp := by decide
/-- V-D4, V-D5. -/
theorem test_decode_mbz : decode 0x101 = .error .mustBeZero ∧ decode 0x80000008 = .error .mustBeZero := by decide

/-- Well-formedness smoke: an ill-formed word for each check. -/
theorem test_wf_mbz : CmdWord.mbzClear 0x101 = false ∧ CmdWord.opMapped 0x101 = true ∧ CmdWord.wf 0x101 = false := by
  decide
theorem test_wf_op : CmdWord.opMapped 0x7 = false ∧ CmdWord.mbzClear 0x7 = true ∧ CmdWord.wf 0x7 = false := by decide

/-- The table's bit numbering, and the placed word runs as the first operation after reset. -/
theorem test_table_word : decodeTableWord 32 8 = some .openSession ∧ decodeTableWord 32 7 = none := by decide
theorem test_placed_word : statusOf (step (State.reset.withFetchWord 32 8)) = some 0x0800 := by decide

/-! ### The register window (10 R101, R102, R104; 20 R221, R222) -/

theorem test_status_reset : State.reset.status = 0x600 := by decide
/-- V-T6: OPBYTE written as 0x1234 reads back 0x34. -/
theorem test_opbyte_stores_low_byte :
    (idle.regs.write .opByte 0x1234).opByte = 0x34 ∧ (idle.regs.write .ctrl 0xFFFFFFFE).timeoutEn = 0 := by decide
theorem test_window_offset_44 : registerAt T (.offset 0x44) 4 = .error (.unmapped 0x44) := by decide
theorem test_window_address_40 : registerAt T (.address 0x40000040) 4 = .ok .outLen := by decide

/-! ### Memory -/

theorem test_write_lists_in_order :
    Memory.write idle.fill (Memory.write idle.fill [] 7 1) 3 2 = [(3, 2), (7, 1)] := by decide
theorem test_write_fill_removes : Memory.write idle.fill [(3, 2), (7, 1)] 3 0 = [(7, 1)] := by decide
/-- Range corners of 20 R202. -/
theorem test_valid_range : validRange 0x1000 (0xFFF, 1) = true ∧ validRange 0x1000 (0xFFF, 2) = false ∧
    validRange 0x1000 (0xFFFFFFFF, 0) = true := by decide

/-! ### ENCODE (95 section 2.1) -/

/-- A grid given row by row. -/
def grid (w : Nat) (samples : List Byte) : Nat → Nat → Byte := fun x y => samples.getD (y * w + x) 0

/-- V-E7. -/
theorem test_encode_portrait :
    encodeBuffer 128 1 2 3 3 2 (grid 2 [0x00, 0xFF, 0xFF, 0x00, 0x00, 0x00]) = [0x8B] := by decide
/-- V-E8: rows are not padded. -/
theorem test_encode_rows_packed : encodeBuffer 128 0 5 2 5 2 (fun _ _ => 0) = [0x00, 0x3F] := by decide
/-- V-E17: a sample equal to THRESHOLD is white. -/
theorem test_encode_threshold :
    encodeBuffer 128 0 8 1 8 1 (grid 8 [0x7F, 0x80, 0x00, 0xFF, 0x7F, 0x80, 0x00, 0xFF]) = [0x55] := by decide
/-- V-E16: the shape check comes before the range check. -/
theorem test_encode_error_order :
    statusOf (exec .encode { idle with regs := { idle.regs with
      imgW := 4, imgH := 4, tgtW := 3, tgtH := 2, dst := 0x1000 } }) = some 0x0610 := by decide

/-! ### ASSEMBLE (95 section 2.2) -/

/-- V-A1, the offsets 0 to 69. -/
theorem test_assemble_header : containerHeader 74 8 1 1 =
    [0x42, 0x4D, 0x4A, 0x00, 0x00, 0x00, 0x00, 0x00, 0x00, 0x00, 0x46, 0x00, 0x00, 0x00, 0x28, 0x00,
     0x00, 0x00, 0x08, 0x00, 0x00, 0x00, 0x01, 0x00, 0x00, 0x00, 0x01, 0x00, 0x01, 0x00, 0x00, 0x00,
     0x00, 0x00, 0x00, 0x00, 0x00, 0x00, 0x00, 0x00, 0x00, 0x00, 0x00, 0x00, 0x00, 0x00, 0x04, 0x00,
     0x00, 0x00, 0x00, 0x00, 0x00, 0x00, 0x00, 0x00, 0x00, 0x00, 0x55, 0x55, 0x55, 0x00, 0xAA, 0xAA,
     0xAA, 0x00, 0xFF, 0xFF, 0xFF, 0x00] := by decide
/-- V-A2: row 1 first, four bits a pixel, the pad whole nibbles. -/
theorem test_assemble_rows : pixelData 3 2 4 [0, 1, 2, 3, 3, 0] =
    [0x33, 0x0F, 0xFF, 0xFF, 0x01, 0x2F, 0xFF, 0xFF] := by decide
/-- V-A7: 33 pixels take two words a row. -/
theorem test_assemble_long_row : pixelData 33 1 1 (List.replicate 33 0) = [0, 0, 0, 0, 0x7F, 0xFF, 0xFF, 0xFF] := by decide
/-- V-A14: the bit depth check comes first. -/
theorem test_assemble_error_order :
    statusOf (exec .assemble { idle with regs := { idle.regs with imgW := 8, imgH := 1, bpp := 3, len := 7 } }) =
      some 0x0680 := by decide

/-! ### Transport (95 section 2.3) -/

/-- V-T1. -/
theorem test_reset_acts : actsOf (exec .reset ready) =
    some [.set .rst 1, .sleep 200, .set .rst 0, .sleep 10, .set .rst 1, .sleep 200] := by decide
/-- V-T4. -/
theorem test_reset_needs_session : statusOf (exec .reset idle) = some 0x0670 := by decide
/-- V-T5. -/
theorem test_send_command_acts :
    actsOf (exec .sendCommand { ready with regs := { ready.regs with opByte := 0x12 } }) = some (cmd 0x12) := by decide
/-- V-T8. -/
theorem test_send_command_unopened : statusOf (exec .sendCommand opened) = some 0x0870 := by decide
/-- V-T9. -/
theorem test_send_data_acts :
    actsOf (exec .sendData { ready with
      mem := [(0x100, 0xAA), (0x101, 0xBB)]
      regs := { ready.regs with src := 0x100, len := 2 } }) = some (dat 0xAA ++ dat 0xBB) := by decide
/-- V-T13. -/
theorem test_send_data_range :
    statusOf (exec .sendData { ready with regs := { ready.regs with src := 0xFFF, len := 2 } }) = some 0x0A90 := by decide
/-- V-T17: with a timeout of 7, 5 ms elapsed goes on and 10 ms times out. -/
theorem test_wait_ready_goes_on :
    (blockStep { running ready .waitReady [.poll ⟨5, some 7, 5⟩] { err := .ok } with answers := [.ok 0] }).op.map
      (fun r => r.todo) = some [.pause ⟨5, some 7, 5⟩] := by decide
theorem test_wait_ready_times_out :
    (blockStep { running ready .waitReady [.poll ⟨5, some 7, 10⟩] { err := .ok } with answers := [.ok 0] }).op.map
      (fun r => (r.todo, r.fin)) = some ([], { err := .busyTimeout, phase := some .failed }) := by decide

/-! ### Session (95 section 2.4, P2) -/

/-- P5: OPEN, then a second OPEN. -/
theorem test_open : statusOf (exec .openSession idle) = some 0x0800 := by decide
theorem test_open_twice : statusOf (exec .openSession opened) = some 0x0840 := by decide
/-- P2, INIT. -/
theorem test_init_acts : actsOf (exec .init opened) = some
    ([.set .rst 1, .sleep 200, .set .rst 0, .sleep 10, .set .rst 1, .sleep 200, .enter .reset] ++
      cmd 0x06 ++ dat 0x17 ++ dat 0x17 ++ dat 0x17 ++ cmd 0x04 ++ cmd 0x00 ++ dat 0x1F ++
      [.poll ⟨5, some 100, 0⟩]) := by decide
/-- V-S8. -/
theorem test_init_first_set_fails :
    (blockStep { running opened .init resetSeq { err := .ok, phase := some .initialized } with answers := [.fail 0] }).op.map
      (fun r => (r.todo, r.fin)) = some ([], { err := .initFailure, phase := some .failed }) := by decide
/-- V-S12. -/
theorem test_clear_acts : actsOf (exec .clear ready) = some
    (cmd 0x10 ++ dat 0xFF ++ dat 0xFF ++ cmd 0x13 ++ dat 0xFF ++ dat 0xFF ++ cmd 0x12 ++
      [.poll ⟨5, some 100, 0⟩]) := by decide
/-- V-S13. -/
theorem test_clear_batch_acts : actsOf (exec .clear (batch ready)) = some
    (cmd 0x10 ++ [.set .dc 1, .set .cs 0, .write [0xFF, 0xFF], .set .cs 1] ++
      cmd 0x13 ++ [.set .dc 1, .set .cs 0, .write [0xFF, 0xFF], .set .cs 1] ++ cmd 0x12 ++
      [.poll ⟨5, some 100, 0⟩]) := by decide
/-- V-S17. -/
theorem test_display_acts :
    actsOf (exec .display { ready with
      mem := [(0x200, 0xFF), (0x201, 0x7F), (0x300, 0xFF), (0x301, 0xFF)]
      regs := { ready.regs with src := 0x200, len := 2, src2 := 0x300, len2 := 2 } }) = some
    (cmd 0x10 ++ dat 0xFF ++ dat 0x7F ++ cmd 0x13 ++ dat 0xFF ++ dat 0xFF ++ cmd 0x12 ++
      [.poll ⟨5, some 100, 0⟩]) := by decide
/-- V-S15. -/
theorem test_display_length :
    statusOf (exec .display { ready with regs := { ready.regs with len := 2, len2 := 3 } }) = some 0x0A10 := by decide
/-- V-S19. -/
theorem test_sleep_acts : actsOf (exec .sleep ready) = some
    (cmd 0x02 ++ [.poll ⟨5, some 100, 0⟩] ++ cmd 0x07 ++ dat 0xA5) := by decide
/-- V-S21. -/
theorem test_sleep_closed : statusOf (exec .sleep { ready with phase := .closed }) = some 0x0E70 := by decide
/-- V-S22. -/
theorem test_close_acts : actsOf (exec .close { ready with phase := .closed }) = some
    [.drive .dc 0, .drive .cs 0, .drive .rst 0] := by decide
/-- V-S23: a failed set of CLOSE stops nothing. -/
theorem test_close_ignores_fail :
    (blockStep { running failed .close [.drive .cs 0, .drive .rst 0] { err := .ok } with answers := [.fail 0] }).op.map
      (fun r => r.todo) = some [.drive .rst 0] := by decide

/-! ### Failed writes and block reset (43 R513, 93 I11; 70 R700) -/

/-- A batch write of three bytes fails after the panel has received two. -/
theorem test_failed_write_prefix :
    wireBytes (some 1)
      (blockStep { running (batch ready) .sendData [.write [1, 2, 3]] { err := .ok } with answers := [.fail 2] }).trace =
      [(some 1, 1), (some 1, 2)] := by decide
/-- A block reset after the first of an ENCODE's two stores: the first byte is the one that stands. -/
theorem test_reset_stands :
    (blockStep (running { idle with regs := { idle.regs with dst := 0x200, imgW := 8, imgH := 2, tgtW := 8, tgtH := 2 } }
      .encode [.store 0x200 0xFF] { err := .ok, store := some (0x201, 0xFF) })).standing = [0x200] := by decide

/-! ### Witnesses: for each statement with hypotheses, states and operands that meet them together -/

theorem witness_decode : decode 0x0000000D = .ok .close ∧ Instr.wf .close = true := by decide

/-- The four reserved OP values and the least and greatest upper field. -/
theorem witness_illegal_word :
    ({ idle with inputs := [wr .cmd 0x7] } : State).inputs = .host (.regWrite (.offset 0) 4 0x7) :: [] ∧
    Loc.hits idle.cfg (.offset 0) 0 ∧ idle.op = none ∧
    ∀ w ∈ [0x0#32, 0x7#32, 0xE#32, 0xF#32, 0x10#32, 0xFFFFFFFF#32],
      w.toNat / 16 ≠ 0 ∨ w.toNat % 16 = 0 ∨ w.toNat % 16 = 7 ∨ w.toNat % 16 = 14 ∨ w.toNat % 16 = 15 :=
  ⟨rfl, .inl rfl, rfl, by simp⟩

theorem witness_step_runs :
    Loc.hits T (.offset 0) 0 ∧ Loc.hits T (.address 0x40000000) 0 ∧ decode 0x8 = .ok .openSession ∧ idle.op = none ∧
    idle.inputs = [] ∧ ({ idle with inputs := [.tick] } : State).inputs = .tick :: [] :=
  ⟨.inl rfl, .inr ⟨_, rfl, by decide⟩, by decide, rfl, rfl, rfl⟩

theorem witness_starting : ∃ t r, exec .reset ready = .next t ∧ t.op = some r := ⟨_, _, rfl, rfl⟩

theorem witness_reserved_bits :
    idle.op = none ∧ Loc.hits T (.offset 0x30) 0x30 ∧ Loc.hits T (.address 0x4000003C) 0x3C :=
  ⟨rfl, .inl rfl, .inr ⟨_, rfl, by decide⟩⟩

/-- The first and the last register that a write may store to or ignore. -/
theorem witness_host_write :
    idle.op = none ∧ Loc.hits T (.offset 4) RegName.status.offset ∧ Loc.hits T (.offset 8) RegName.src.offset ∧
    Loc.hits T (.address 0x40000040) RegName.outLen.offset ∧ RegName.status ≠ .cmd ∧ RegName.src ≠ .cmd ∧
    RegName.outLen ≠ .cmd :=
  ⟨rfl, .inl rfl, .inl rfl, .inr ⟨_, rfl, by decide⟩, by decide, by decide, by decide⟩

theorem witness_host_read :
    ({ idle with inputs := [rd .outLen] } : State).inputs = .host (.regRead (.offset 0x40) 4) :: [] ∧
    Loc.hits T (.offset 0x40) RegName.outLen.offset := ⟨rfl, .inl rfl⟩

/-- A narrow access, a misaligned one, the first offset past the window, the last inside, the last address below BASE. -/
theorem witness_odd_access :
    Loc.hits T (.offset 0) 0 ∧ ((2 : Nat) ≠ 4 ∨ 0 % 4 ≠ 0 ∨ 0x40 < 0) ∧
    Loc.hits T (.offset 2) 2 ∧ ((4 : Nat) ≠ 4 ∨ 2 % 4 ≠ 0 ∨ 0x40 < 2) ∧
    Loc.hits T (.address 0x40000044) 0x44 ∧ ((4 : Nat) ≠ 4 ∨ 0x44 % 4 ≠ 0 ∨ 0x40 < 0x44) ∧
    Loc.hits T (.offset 0x40) 0x40 ∧ 0x40 % 4 = 0 ∧ 0x40 ≤ 0x40 ∧ (0x3FFFFFFF#32).toNat < T.base.toNat :=
  ⟨.inl rfl, by decide, .inl rfl, by decide, .inr ⟨_, rfl, by decide⟩, by decide, .inl rfl, rfl, by decide, by decide⟩

/-- A state whose SEND_DATA runs on the two bytes from 0x100. -/
def sending : State :=
  running { ready with regs := { ready.regs with src := 0x100, len := 2 } } .sendData (dat 0xAA) { err := .ok }

/-- A state whose ENCODE runs from 0x100 (8 bytes) to 0x200 (1 byte), with its finishing transition to come. -/
def encoding : State :=
  running { idle with regs := { idle.regs with src := 0x100, dst := 0x200, imgW := 8, imgH := 1, tgtW := 8, tgtH := 1 } }
    .encode [] { err := .ok, orient := some 0, outLen := some 1, store := some (0x200, 0xFF) }

theorem witness_register_write_running :
    ({ sending with inputs := [wr .pollMs 1] } : State).inputs = .host (.regWrite (.offset 0x34) 4 1) :: [] ∧
    Loc.hits T (.offset 0x34) RegName.pollMs.offset ∧ sending.running = true := ⟨rfl, .inl rfl, rfl⟩

/-- The last byte inside a source range, the first past it; the destination byte, and the one below it. -/
theorem witness_buffers :
    (∃ r, sending.op = some r ∧
      (∃ q ∈ sourceRanges r.op r.latch ++ destRanges r.op r.latch, q.1 ≤ 0x101 ∧ 0x101 < q.1 + q.2) ∧
      ∀ q ∈ sourceRanges r.op r.latch ++ destRanges r.op r.latch, 0x102 < q.1 ∨ q.1 + q.2 ≤ 0x102) ∧
    (∃ r, encoding.op = some r ∧ (∃ q ∈ destRanges r.op r.latch, q.1 ≤ 0x200 ∧ 0x200 < q.1 + q.2) ∧
      ∀ q ∈ destRanges r.op r.latch, 0x1FF < q.1 ∨ q.1 + q.2 ≤ 0x1FF) ∧
    0x200 < T.memSize.val :=
  ⟨⟨_, rfl, by decide, by decide⟩, ⟨_, rfl, by decide, by decide⟩, by decide⟩

/-- The first address past buffer memory and the last inside. -/
theorem witness_host_memory :
    T.memSize.val ≤ (0x1000#32).toNat ∧ (0xFFF#32).toNat < T.memSize.val ∧ idle.op = none ∧
    Memory.wf idle.fill idle.mem = true := by decide

/-- An ENCODE that has stored its first byte of two: that byte stands through a block reset, the other and a byte
the operation never writes are draws. -/
def halfEncoded : State :=
  running { idle with regs := { idle.regs with src := 0x100, dst := 0x200, imgW := 8, imgH := 2, tgtW := 8, tgtH := 2 } }
    .encode [] { err := .ok, orient := some 0, outLen := some 2, store := some (0x201, 0xFF) }

theorem witness_block_reset :
    ({ halfEncoded with inputs := [.blockReset] } : State).inputs = .blockReset :: [] ∧
    halfEncoded.storedByOperation 0x200 ∧ ¬ halfEncoded.storedByOperation 0x201 ∧
    ¬ halfEncoded.storedByOperation 0x100 := by
  refine ⟨rfl, ?_, ?_, ?_⟩ <;> rw [← mem_standing] <;> decide

/-- Registers of an ENCODE from 0x100 to 0x200. -/
def encodeRegs (imgW imgH tgtW tgtH : Word) : Regs :=
  { idle.regs with src := 0x100, dst := 0x200, imgW := imgW, imgH := imgH, tgtW := tgtW, tgtH := tgtH }

/-- The hypotheses of `EncodeWritesFrameBuffer`. -/
def encodeAccepted (r : Regs) (portrait : Bool) : Prop :=
  (if portrait then (r.imgW.toNat = r.tgtH.toNat ∧ r.imgH.toNat = r.tgtW.toNat) ∧
      ¬ (r.imgW.toNat = r.tgtW.toNat ∧ r.imgH.toNat = r.tgtH.toNat)
    else r.imgW.toNat = r.tgtW.toNat ∧ r.imgH.toNat = r.tgtH.toNat) ∧
  (r.imgW.toNat * r.imgH.toNat = 0 ∨ r.src.toNat + r.imgW.toNat * r.imgH.toNat ≤ T.memSize.val) ∧
  ((r.tgtW.toNat * r.tgtH.toNat + 7) / 8 = 0 ∨
    r.dst.toNat + (r.tgtW.toNat * r.tgtH.toNat + 7) / 8 ≤ T.memSize.val) ∧
  ¬ (0 < r.imgW.toNat * r.imgH.toNat ∧ 0 < (r.tgtW.toNat * r.tgtH.toNat + 7) / 8 ∧
    r.src.toNat < r.dst.toNat + (r.tgtW.toNat * r.tgtH.toNat + 7) / 8 ∧
    r.dst.toNat < r.src.toNat + r.imgW.toNat * r.imgH.toNat)

/-- Landscape, a square panel, an empty grid, portrait. -/
theorem witness_encode :
    encodeAccepted (encodeRegs 5 2 5 2) false ∧ encodeAccepted (encodeRegs 2 2 2 2) false ∧
    encodeAccepted (encodeRegs 0 5 0 5) false ∧ encodeAccepted (encodeRegs 2 4 4 2) true ∧
    idle.inputs = [] ∧ Memory.wf idle.fill idle.mem = true := by
  unfold encodeAccepted
  decide

/-- V-E11; V-E15; V-E14. -/
theorem witness_encode_errors :
    idle.op = none ∧
    ¬ ((3#32 = 4#32 ∧ 2#32 = 2#32) ∨ (3#32 = 2#32 ∧ 2#32 = 4#32)) ∧
    ((8#32 = 8#32 ∧ 1#32 = 1#32) ∨ (8#32 = 1#32 ∧ 1#32 = 8#32)) ∧
    (0 < (8 * 1 + 7) / 8 ∧ T.memSize.val < 0x1000 + (8 * 1 + 7) / 8) ∧
    (0 < 8 * 1 ∧ 0 < (8 * 1 + 7) / 8 ∧ 0x100 < 0x100 + (8 * 1 + 7) / 8 ∧ 0x100 < 0x100 + 8 * 1) := by decide

/-- Registers of an ASSEMBLE from 0x100. -/
def assembleRegs (dst imgW imgH bpp len : Word) : Regs :=
  { idle.regs with src := 0x100, dst := dst, imgW := imgW, imgH := imgH, bpp := bpp, len := len }

/-- The container's length, as the statements write it. -/
def totalOf (r : Regs) : Nat :=
  70 + 4 * ((r.imgW.toNat * r.bpp.toNat + 31) / 32) * r.imgH.toNat

/-- The range hypotheses of the ASSEMBLE statements. -/
def rangesFit (r : Regs) : Prop :=
  (r.len.toNat = 0 ∨ r.src.toNat + r.len.toNat ≤ T.memSize.val) ∧ r.dst.toNat + totalOf r ≤ T.memSize.val ∧
  ¬ (0 < r.len.toNat ∧ r.src.toNat < r.dst.toNat + totalOf r ∧ r.dst.toNat < r.src.toNat + r.len.toNat)

/-- A legal bit depth and the right count. -/
def countFits (r : Regs) : Prop :=
  (r.bpp.toNat = 1 ∨ r.bpp.toNat = 2 ∨ r.bpp.toNat = 4) ∧ r.len.toNat = r.imgW.toNat * r.imgH.toNat

/-- V-A1, V-A2's shape (every byte of `idle` reads 0) and the empty V-A8. -/
theorem witness_assemble :
    (∀ r ∈ [assembleRegs 0x400 8 1 1 8, assembleRegs 0x400 3 2 4 6, assembleRegs 0x400 0 5 1 0],
      countFits r ∧ totalOf r < 4294967296 ∧ rangesFit r) ∧
    (∀ i, i < 8 → (idle.byteAt (0x100 + i)).toNat < 2) ∧ idle.inputs = [] ∧
    Memory.wf idle.fill idle.mem = true := by
  unfold countFits rangesFit
  decide

/-- V-A10; V-A13; V-A15; V-A16; V-A12 (a code 2 at one bit per pixel). -/
theorem witness_assemble_errors :
    idle.op = none ∧
    ¬ ((assembleRegs 0x400 1 1 3 1).bpp.toNat = 1 ∨ (assembleRegs 0x400 1 1 3 1).bpp.toNat = 2 ∨
      (assembleRegs 0x400 1 1 3 1).bpp.toNat = 4) ∧
    (assembleRegs 0x400 8 1 1 7).len.toNat ≠ 8 * 1 ∧
    (countFits (assembleRegs 0x400 1 0xFFFFFFFF 1 0xFFFFFFFF) ∧
      4294967295 < totalOf (assembleRegs 0x400 1 0xFFFFFFFF 1 0xFFFFFFFF)) ∧
    (countFits (assembleRegs 0xFC0 8 1 1 8) ∧ totalOf (assembleRegs 0xFC0 8 1 1 8) ≤ 4294967295 ∧
      ¬ rangesFit (assembleRegs 0xFC0 8 1 1 8)) ∧
    (countFits (assembleRegs 0x400 1 1 1 1) ∧ rangesFit (assembleRegs 0x400 1 1 1 1) ∧
      2 ≤ (({ idle with mem := [(0x100, 2)] } : State).byteAt (0x100 + 0)).toNat) := by
  unfold countFits rangesFit
  decide

theorem witness_container_fields :
    ∃ t r, exec .assemble { idle with regs := assembleRegs 0x400 8 1 1 8 } = .next t ∧ t.op = some r := by
  rcases execAssemble_cases { idle with regs := assembleRegs 0x400 8 1 1 8 } with ⟨e, h⟩ | ⟨-, -, -, -, -, -, -, h⟩
  · have started : (actsOf (exec .assemble { idle with regs := assembleRegs 0x400 8 1 1 8 })).isSome = true := by decide
    exact absurd ((congrArg (fun o => (actsOf o).isSome) h).symm.trans started) (by simp [actsOf])
  · exact ⟨_, _, h, rfl⟩

theorem oks_answer {n : Nat} {rest : List BusAnswer} {s : State} {es : List BusEvent} (ha : s.answers = oks n ++ rest)
    (hn : n = es.countP asks) : AnswersOk s es rest :=
  ⟨oks n, ha, by simp [oks, hn], by simp [oks, answerOk]⟩

/-- `ready` with answers: `n` ok, then BUSY busy once and idle, then `m` ok. -/
def readyFor (n m : Nat) : State :=
  { ready with answers := oks n ++ (.ok 0 :: .ok 1 :: oks m) }

theorem witness_reset_sequence :
    (readyFor 3 0).inputs = [] ∧ (readyFor 3 0).own = true ∧ (readyFor 3 0).phase = .initialized ∧
    ({ readyFor 3 0 with phase := .unopened } : State).phase = .unopened ∧
    AnswersOk (readyFor 3 0) resetEvents (.ok 0 :: .ok 1 :: oks 0) :=
  ⟨rfl, rfl, rfl, rfl, oks_answer rfl rfl⟩

theorem witness_send_command :
    (readyFor 4 0).inputs = [] ∧ (readyFor 4 0).own = true ∧ (readyFor 4 0).phase = .initialized ∧
    AnswersOk (readyFor 4 0) [.set .dc 0 true, .set .cs 0 true, .write [0] true, .set .cs 1 true]
      (.ok 0 :: .ok 1 :: oks 0) :=
  ⟨rfl, rfl, rfl, oks_answer rfl rfl⟩

/-- Two bytes up to the end of memory in each profile, and no byte. -/
theorem witness_send_data :
    (readyFor 8 0).inputs = [] ∧ (readyFor 8 0).own = true ∧ (readyFor 8 0).phase = .initialized ∧
    ((2 : Nat) = 0 ∨ 0xFFE + 2 ≤ T.memSize.val) ∧
    AnswersOk (readyFor 8 0) (perByteEvents T (idle.bytesAt 0xFFE 2)) (.ok 0 :: .ok 1 :: oks 0) ∧
    AnswersOk (batch (readyFor 4 0)) (batchEvents (batch ready).cfg (idle.bytesAt 0xFFE 2)) (.ok 0 :: .ok 1 :: oks 0) ∧
    AnswersOk (readyFor 0 0) (perByteEvents T (idle.bytesAt 0xFFF 0)) (.ok 0 :: .ok 1 :: oks 0) :=
  ⟨rfl, rfl, rfl, by decide, oks_answer rfl rfl, oks_answer rfl rfl, oks_answer rfl rfl⟩

/-- Two bytes, with answers enough for either profile. -/
theorem witness_profiles :
    ready.own = true ∧ ready.phase = .initialized ∧ ((2 : Nat) = 0 ∨ 0xFFE + 2 ≤ T.memSize.val) ∧
    (∀ a ∈ oks 8, answerOk a = true) ∧ 4 * 2 ≤ (oks 8).length := by decide

/-- The batch write of three bytes fails: none, one, all of them have reached the panel. -/
theorem witness_failed_write :
    (batch ready).own = true ∧ (batch ready).phase = .initialized ∧ (batch ready).cfg.batchWrites = true ∧
    0x100 + 3 ≤ T.memSize.val ∧
    ∀ n ∈ [0, 1, 3], ({ batch ready with answers := [.ok 1, .ok 1, .fail n] } : State).answers =
      .ok 1 :: .ok 1 :: .fail n :: [] := by
  refine ⟨rfl, rfl, rfl, by decide, fun _ _ => rfl⟩

/-- V-T13. -/
theorem witness_send_data_range :
    ready.op = none ∧ ready.own = true ∧ ready.phase = .initialized ∧ 0 < (2#32).toNat ∧
    T.memSize.val < (0xFFF#32).toNat + (2#32).toNat := by decide

/-- V-T15 (timeout 0, idle at once) and V-T19 (no timeout, busy twice). -/
theorem witness_wait_ready :
    ready.inputs = [] ∧ ready.own = true ∧ ready.phase = .initialized ∧ (1 : Level) ≠ T.busyLevel ∧
    (∀ k, k < 0 → k * 5 < 0) ∧ ((0 : Level) = 1 → ∀ k, k < 2 → k * 5 < 100) ∧
    (readyFor 0 0).answers = List.replicate 1 (.ok T.busyLevel) ++ .ok 1 :: [] := by decide

/-- V-T14 (timeout 0), V-T16 (timeout 10) and V-T17 (timeout 7), POLL 5. -/
theorem witness_wait_times_out :
    ready.inputs = [] ∧ ready.own = true ∧ ready.phase = .initialized ∧ ready.regs.timeoutEn = 1 ∧
    ((∀ k, k < 0 → k * 5 < 0) ∧ 0 ≤ 0 * 5) ∧ ((∀ k, k < 2 → k * 5 < 10) ∧ 10 ≤ 2 * 5) ∧
    ((∀ k, k < 2 → k * 5 < 7) ∧ 7 ≤ 2 * 5) ∧
    ({ ready with answers := [.ok 0, .ok 0, .ok 0] } : State).answers =
      List.replicate (2 + 1) (.ok T.busyLevel) ++ [] := by decide

/-- No timeout; POLL 0 with a timeout of 1. -/
theorem witness_wait_never_ends :
    (∀ w ∈ [(⟨5, none, 0⟩ : Wait), ⟨0, some 1, 0⟩],
      w.timeout = none ∨ (w.poll = 0 ∧ ∃ t, w.timeout = some t ∧ w.elapsed < t)) ∧
    ({ running ready .waitReady [.poll ⟨0, some 1, 0⟩] { err := .ok } with answers := [.ok 0, .ok 0] } : State).answers =
      List.replicate 2 (.ok T.busyLevel) ++ [] := by
  refine ⟨?_, rfl⟩
  intro w hw
  rcases List.mem_cons.1 hw with rfl | hw
  · exact .inl rfl
  · cases List.mem_singleton.1 hw
    exact .inr ⟨rfl, 1, rfl, by decide⟩

/-- POLL 5; and POLL 0 with timeout 0. -/
theorem witness_finishes :
    ready.inputs = [] ∧ ready.regs.timeoutEn = 1 ∧ (ready.regs.pollMs ≠ 0 ∨ ready.regs.timeoutMs = 0) ∧
    ((0#32) ≠ 0 ∨ (0#32) = 0) := by decide

/-- One state for each group: RESET and OWN = 0, SEND_COMMAND in Unopened, INIT in Initialized, CLEAR in Failed. -/
theorem witness_wrong_phase :
    idle.op = none ∧ ¬ (idle.own = true ∧ (idle.phase = .unopened ∨ idle.phase = .reset ∨ idle.phase = .initialized)) ∧
    opened.op = none ∧ ¬ (opened.own = true ∧ (opened.phase = .reset ∨ opened.phase = .initialized)) ∧
    ready.op = none ∧ ¬ (ready.own = true ∧ (ready.phase = .unopened ∨ ready.phase = .reset)) ∧
    failed.op = none ∧ ¬ (failed.own = true ∧ failed.phase = .initialized) := by decide

/-- A set, a write and a poll that fail. -/
theorem witness_failed_primitive :
    ∀ a ∈ [Act.set .cs 1, .write [0x12], .poll ⟨5, none, 0⟩],
      ({ running ready .sleep [a] { err := .ok } with answers := [.fail 0] } : State).answers = .fail 0 :: [] ∧
      ∃ e : BusEvent, (∃ pin l, a = .set pin l ∧ e = .set pin l false) ∨ (∃ bs, a = .write bs ∧ e = .write bs false (min 0 bs.length)) ∨
        (∃ w, a = .poll w ∧ e = .read none) := by
  intro a ha
  refine ⟨rfl, ?_⟩
  simp only [List.mem_cons, List.not_mem_nil, or_false] at ha
  rcases ha with rfl | rfl | rfl
  · exact ⟨_, .inl ⟨_, _, rfl, rfl⟩⟩
  · exact ⟨_, .inr (.inl ⟨_, rfl, rfl⟩)⟩
  · exact ⟨_, .inr (.inr ⟨_, rfl, rfl⟩)⟩

/-- At the timeout, and with timeout 0 at the first poll. -/
theorem witness_timeout :
    (∃ r, (running ready .init [.poll ⟨5, some 10, 10⟩] { err := .ok }).op = some r ∧
      r.todo = [.poll ⟨5, some 10, 10⟩]) ∧ 10 ≤ 10 ∧ 0 ≤ 0 ∧
    ({ ready with answers := [.ok 0] } : State).answers = .ok ready.cfg.busyLevel :: [] := ⟨⟨_, rfl, rfl⟩, by decide⟩

theorem witness_open : idle.op = none ∧ idle.own = false ∧ opened.op = none ∧ opened.own = true := by decide

theorem witness_within_timeout : withinTimeout ready.regs.wait 1 := by
  intro k hk t ht
  cases ht
  obtain rfl : k = 0 := by omega
  decide

theorem witness_init :
    ({ readyFor 31 0 with phase := .unopened } : State).inputs = [] ∧ (readyFor 31 0).own = true ∧
    (1 : Level) ≠ T.busyLevel ∧
    AnswersOk { readyFor 31 0 with phase := .unopened } (initEvents T) (IdleAfter T 1 1 []) :=
  ⟨rfl, rfl, by decide, oks_answer (n := 31) rfl rfl⟩

theorem witness_init_enters_reset :
    AnswersOk { readyFor 3 0 with phase := .unopened } resetEvents (IdleAfter T 1 1 []) := oks_answer (n := 3) rfl rfl

theorem witness_clear :
    (readyFor 28 0).inputs = [] ∧ (readyFor 28 0).own = true ∧ (readyFor 28 0).phase = .initialized ∧
    AnswersOk (readyFor 28 0) (refreshEvents T [0xFF, 0xFF] [0xFF, 0xFF]) (IdleAfter T 1 1 []) :=
  ⟨rfl, rfl, rfl, oks_answer (n := 28) rfl rfl⟩

/-- P4's second DISPLAY; the secondary plane at the end of memory. -/
theorem witness_display :
    (2#32).toNat = (T.panelW.val * T.panelH.val + 7) / 8 ∧
    ((2 : Nat) = 0 ∨ 0x200 + 2 ≤ T.memSize.val) ∧ ((2 : Nat) = 0 ∨ 0xFFE + 2 ≤ T.memSize.val) ∧
    AnswersOk (readyFor 28 0) (refreshEvents T (idle.bytesAt 0x200 2) (idle.bytesAt 0xFFE 2)) (IdleAfter T 1 1 []) :=
  ⟨by decide, by decide, by decide, oks_answer (n := 28) rfl rfl⟩

/-- V-S15 and V-S16. -/
theorem witness_display_errors :
    ready.op = none ∧ ready.own = true ∧ ready.phase = .initialized ∧
    ((2#32).toNat ≠ (T.panelW.val * T.panelH.val + 7) / 8 ∨ (3#32).toNat ≠ (T.panelW.val * T.panelH.val + 7) / 8) ∧
    0 < (T.panelW.val * T.panelH.val + 7) / 8 ∧ T.memSize.val < 0xFFF + (T.panelW.val * T.panelH.val + 7) / 8 := by decide

theorem witness_sleep :
    (readyFor 4 8).inputs = [] ∧ (readyFor 4 8).own = true ∧ (readyFor 4 8).phase = .initialized ∧
    AnswersOk (readyFor 4 8) (frameEvents T T.opcPowerOff T.payPowerOff) (IdleAfter T 1 1 (oks 8)) ∧
    AnswersOk { readyFor 4 8 with answers := oks 8 } (frameEvents T T.opcDeepSleep T.payDeepSleep) [] :=
  ⟨rfl, rfl, rfl, oks_answer (n := 4) rfl rfl, oks_answer (n := 8) rfl rfl⟩

/-- OWN = 0; and OWN = 1 with a fail among the answers. -/
theorem witness_close :
    idle.inputs = [] ∧ idle.own = false ∧ failed.own = true ∧
    ({ failed with answers := [.ok 0, .fail 0, .ok 0] } : State).answers = [.ok 0, .fail 0, .ok 0] ++ [] ∧
    [BusAnswer.ok 0, .fail 0, .ok 0].length = T.safeLevels.length := by decide

/-! Legal states -/

theorem legal_idle_state {s : State} (hm : s.mem = []) (ho : s.own = false → s.phase = .closed) (hop : s.op = none)
    (hp : s.phase.transient = false) : Legal s :=
  ⟨by rw [hm]; rfl, by simp [hm], ho, fun _ => hp, by simp [hop]⟩

theorem legal_idle : Legal idle := legal_idle_state rfl (fun _ => rfl) rfl rfl
theorem legal_failed : Legal failed := legal_idle_state rfl (by decide) rfl rfl

/-- `ready` with a SEND_COMMAND's last set to come. -/
def lastSet : State := { running ready .sendCommand [.set .cs 1] { err := .ok } with answers := [.ok 0] }

theorem legal_lastSet : Legal lastSet := by
  refine ⟨rfl, by decide, by decide, by decide, ?_⟩
  intro r hr
  cases hr
  exact ⟨by decide, by decide, by decide, by decide, rfl, by decide, by decide, by simp, by decide⟩

/-- `failed` with a CLOSE's finishing transition to come. -/
def closing : State := running failed .close [] { err := .ok, phase := some .closed, own := some false }

theorem legal_closing : Legal closing := by
  refine ⟨rfl, by decide, by decide, by decide, ?_⟩
  intro r hr
  cases hr
  exact ⟨by decide, by decide, by decide, by decide, rfl, by decide, by decide, by simp, by decide⟩

theorem legal_encoding : Legal encoding := by
  refine ⟨rfl, by decide, by decide, by decide, ?_⟩
  intro r hr
  cases hr
  refine ⟨by decide, by decide, by decide, by decide, rfl, by decide, by decide, ?_, by decide⟩
  intro a b h
  cases h
  decide

theorem witness_keeps_legal : Legal lastSet ∧ ∃ t, step lastSet = .next t := ⟨legal_lastSet, _, rfl⟩

/-- DC and chip-select set, the write next. -/
def framedWrite : State :=
  { running ready .sendCommand [.write [0x12], .set .cs 1] { err := .ok } with
    trace := [.set .dc 0 true, .set .cs 0 true] }

theorem witness_keeps_framed : Framed framedWrite ∧ ∃ t, step framedWrite = .next t := by
  refine ⟨⟨?_, ?_⟩, _, rfl⟩
  · intro before bytes ok sent after h
    have : BusEvent.write bytes ok sent ∈ framedWrite.trace := by rw [h]; simp
    simp [framedWrite] at this
  · intro r hr before bytes after h
    cases hr
    rcases before with _ | ⟨a, _ | ⟨b, _ | ⟨c, l⟩⟩⟩
    · exact .inr (.inr ⟨rfl, [], 0, rfl⟩)
    · simp at h
    · simp at h
    · simp at h

theorem witness_bus_events : Legal lastSet ∧ ∃ t, step lastSet = .next t ∧ t.trace ≠ lastSet.trace :=
  ⟨legal_lastSet, _, rfl, by decide⟩

/-- OPEN, the end of a CLOSE, and a block reset. -/
theorem witness_own_changes :
    (Legal { idle with inputs := [go .openSession] } ∧
      ∃ t, step { idle with inputs := [go .openSession] } = .next t ∧ t.own ≠ idle.own) ∧
    (Legal closing ∧ ∃ t, step closing = .next t ∧ t.own ≠ closing.own) ∧
    (Legal { failed with inputs := [.blockReset] } ∧
      ∃ t, step { failed with inputs := [.blockReset] } = .next t ∧ t.own ≠ failed.own) :=
  ⟨⟨legal_idle_state rfl (fun _ => rfl) rfl rfl, _, rfl, by decide⟩, ⟨legal_closing, _, rfl, by decide⟩,
    ⟨legal_idle_state rfl (by decide) rfl rfl, _, rfl, by decide⟩⟩

theorem witness_leaves_failed :
    (Legal closing ∧ ∃ t, step closing = .next t ∧ closing.phase = .failed ∧ t.phase ≠ .failed) ∧
    (Legal { failed with inputs := [.blockReset] } ∧ ∃ t, step { failed with inputs := [.blockReset] } = .next t ∧
      failed.phase = .failed ∧ t.phase ≠ .failed) :=
  ⟨⟨legal_closing, _, rfl, rfl, by decide⟩, ⟨legal_idle_state rfl (by decide) rfl rfl, _, rfl, rfl, by decide⟩⟩

theorem witness_closed_or_failed :
    (Legal { idle with inputs := [go .openSession] } ∧ idle.phase = .closed ∧
      ∃ t, step { idle with inputs := [go .openSession] } = .next t) ∧
    (Legal failed ∧ failed.phase = .failed ∧ ∃ t, step failed = .next t) :=
  ⟨⟨legal_idle_state rfl (fun _ => rfl) rfl rfl, rfl, _, rfl⟩, legal_failed, rfl, _, rfl⟩

theorem witness_latch :
    (∃ t r, exec .reset ready = .next t ∧ t.op = some r) ∧ lastSet.inputs = [] ∧
    ∃ u, Sys2Proof.core.run 2 lastSet = .next u := ⟨⟨_, _, rfl, rfl⟩, rfl, _, rfl⟩

/-- A host write and a block reset that change a register. -/
theorem witness_register_changes :
    (∃ t, step { idle with inputs := [wr .src 1] } = .next t ∧ t.regs ≠ idle.regs) ∧
    (∃ t, step { idle with regs := encodeRegs 1 1 1 1, inputs := [.blockReset] } = .next t ∧
      t.regs ≠ encodeRegs 1 1 1 1) := ⟨⟨_, rfl, by decide⟩, ⟨_, rfl, by decide⟩⟩

/-- A transition that goes on and one that finishes. -/
theorem witness_results :
    (∃ r t, lastSet.inputs = [] ∧ lastSet.op = some r ∧ step lastSet = .next t ∧ t.running = true) ∧
    (∃ r t, closing.inputs = [] ∧ closing.op = some r ∧ step closing = .next t ∧ t.running = false) :=
  ⟨⟨_, _, rfl, rfl, rfl, rfl⟩, ⟨_, _, rfl, rfl, rfl, rfl⟩⟩

theorem witness_destination :
    (Legal encoding ∧ ∃ r t, encoding.op = some r ∧ step encoding = .next t ∧ r.op = .encode ∧
      ∀ q ∈ destRanges r.op r.latch, 0x201 < q.1 ∨ q.1 + q.2 ≤ 0x201) ∧
    (Legal closing ∧ ∃ r t, closing.op = some r ∧ step closing = .next t ∧ r.op ≠ .encode ∧ r.op ≠ .assemble) :=
  ⟨⟨legal_encoding, _, _, rfl, rfl, rfl, by decide⟩, ⟨legal_closing, _, _, rfl, rfl, by decide, by decide⟩⟩

/-- A host write just past the running SEND_DATA's range is accepted. -/
theorem witness_host_beside_operation :
    ∃ r t, sending.op = some r ∧ step { sending with inputs := [.host (.memWrite 0x102 7)] } = .next t ∧
      ∃ q ∈ sourceRanges r.op r.latch ++ destRanges r.op r.latch, q.1 ≤ 0x101 ∧ 0x101 < q.1 + q.2 :=
  ⟨_, _, rfl, rfl, by decide⟩

theorem witness_events : ∃ t, Sys2Proof.core.run 2 lastSet = .next t ∧ t.trace ≠ lastSet.trace := ⟨_, rfl, by decide⟩

end Sys2Proof.Tests
end

section
/-! What a CMD write does before the first transition of its operation. -/

namespace Sys2Proof.Machine

/-- Settles O7, by the ways `exec` can answer: an error and OPEN end with no operation running, and a start writes only
the running operation, with a transient phase where the operation has one. -/
theorem startingTouchesNoMemoryOrBus : Obligations.StartingTouchesNoMemoryOrBus := by
  intro i s
  obtain ⟨e, hexec⟩ | ⟨-, -, hexec⟩ | ⟨acts, fin, hexec⟩ | ⟨acts, fin, ph, -, hexec⟩ := exec_cases i s
  case inl | inr.inl => exact ⟨_, hexec, rfl, fun r hr => absurd hr (Option.some_ne_none r).symm⟩
  case inr.inr.inl | inr.inr.inr =>
    refine ⟨_, hexec, rfl, fun r hr => ?_⟩
    obtain rfl := Option.some.inj hr
    exact ⟨rfl, rfl, rfl, rfl⟩

end Sys2Proof.Machine
end

section
/-! What an operation that starts has to do: the acts of its sequence, the session it starts in, and its end. -/

namespace Sys2Proof.Machine

/-! ### The acts of a started sequence -/

/-- An act that the sequence of a starting operation may hold: one that its rule gives it, and of a wait only the first
poll, with the operands latched at the start (R516, R518). -/
def Act.fitsStart (r : Running) (a : Act) : Prop :=
  actLegal r a = true ∧ (∀ w, a = .poll w → w = r.latch.wait) ∧ ∀ w, a ≠ .pause w

theorem mem_sendData {p : Params} {bs : List Byte} {a : Act} (h : a ∈ sendData p bs) :
    ∃ bytes, a ∈ transfer p (dcDataLevel p) bytes := by
  unfold sendData at h
  split at h
  · split at h
    · cases h
    · exact ⟨bs, h⟩
  · obtain ⟨b, -, hb⟩ := List.mem_flatMap.1 h
    exact ⟨[b], hb⟩

theorem mem_frame {p : Params} {f : Byte × List Byte} {a : Act} (h : a ∈ frame p f) :
    ∃ l bytes, a ∈ transfer p l bytes := by
  rcases List.mem_append.1 h with h | h
  · exact ⟨_, _, h⟩
  · exact ⟨_, mem_sendData h⟩

section
variable {r : Running} {a : Act}

theorem fitsStart_transfer {p : Params} {l : Level} {bytes : List Byte} (hu : usesPanel r.op = true)
    (h : a ∈ transfer p l bytes) : a.fitsStart r := by
  simp only [transfer, List.mem_cons, List.not_mem_nil, or_false] at h
  rcases h with rfl | rfl | rfl | rfl <;> simp [Act.fitsStart, actLegal, hu]

theorem fitsStart_frame {p : Params} {f : Byte × List Byte} (hu : usesPanel r.op = true) (h : a ∈ frame p f) :
    a.fitsStart r :=
  let ⟨_, _, ht⟩ := mem_frame h
  fitsStart_transfer hu ht

theorem fitsStart_frames {p : Params} {fs : List (Byte × List Byte)} (hu : usesPanel r.op = true)
    (h : a ∈ fs.flatMap (frame p)) : a.fitsStart r :=
  let ⟨_, _, hf⟩ := List.mem_flatMap.1 h
  fitsStart_frame hu hf

theorem fitsStart_resetSeq (hr : r.op = .reset ∨ r.op = .init) (h : a ∈ resetSeq) : a.fitsStart r := by
  simp only [resetSeq, List.mem_cons, List.not_mem_nil, or_false] at h
  rcases hr with hr | hr <;> rcases h with rfl | rfl | rfl | rfl | rfl | rfl <;>
    simp [Act.fitsStart, actLegal, usesPanel, hr]

theorem fitsStart_waitReady (hw : waits r.op = true) (h : a ∈ waitReady r.latch) : a.fitsStart r := by
  obtain rfl := List.mem_singleton.1 h
  simp [Act.fitsStart, actLegal, hw]

theorem fitsStart_refresh {p : Params} {primary secondary : List Byte} (hu : usesPanel r.op = true)
    (hw : waits r.op = true) (h : a ∈ refresh p r.latch primary secondary) : a.fitsStart r :=
  (List.mem_append.1 h).elim (fitsStart_frames hu) (fitsStart_waitReady hw)

theorem fitsStart_drives {pls : List (Pin × Level)} (hr : r.op = .close)
    (h : a ∈ pls.map (fun pl => Act.drive pl.1 pl.2)) : a.fitsStart r := by
  obtain ⟨pl, -, rfl⟩ := List.mem_map.1 h
  simp [Act.fitsStart, actLegal, hr]

theorem fitsStart_storeActs {dst : Nat} {bs : List Byte} (hd : destRanges r.op r.latch = [(dst, bs.length)])
    (h : a ∈ storeActs dst bs) : a.fitsStart r := by
  obtain ⟨i, b, rfl, hi⟩ := mem_storeActs h
  simp [Act.fitsStart, actLegal, hd, inRange_iff, hi]

end

/-! ### A started operation -/

/-- What the start of an operation from `s` establishes in the state `t` in which `r` runs: the acts fit, an operation
that uses the panel has its session and its phase (R520), the others keep the phase they started in, and the end is OK
with the operation's own phase and results. -/
structure Started (s t : State) (r : Running) : Prop where
  actsFit : ∀ a ∈ r.todo, a.fitsStart r
  inSession : usesPanel r.op = true → t.own = true ∧ t.phase ∈ runPhases r.op
  anyPhase : usesPanel r.op = false → r.op ≠ .openSession ∧ t.phase = s.phase
  closeOwns : r.op = .close → r.todo ≠ [] → t.own = true
  endsOk : r.fin.err = .ok ∧ r.fin.phase = donePhase r.op
  endOwn : r.fin.own = if r.op = .close then some false else none
  endOrient : r.fin.orient ≠ none → r.op = .encode
  endOutLen : r.fin.outLen ≠ none → r.op = .encode ∨ r.op = .assemble
  endStore : ∀ a b, r.fin.store = some (a, b) → (destRanges r.op r.latch).any (inRange a) = true
  destInside : ∀ q ∈ destRanges r.op r.latch, validRange t.cfg.memSize.val q = true

section
variable {s t : State} {r : Running} {i : Instr} {acts : List Act}

theorem raise_starts_nothing {e : ErrCode} (h : raise e s = .next t) : t.op ≠ some r := by
  cases h
  exact Option.some_ne_none r |>.symm

/-- An operation on the panel, started by `launch` from `s'`, which is `s` with the operation's phase. -/
theorem Started.of_panel {s' : State} (hu : usesPanel i = true)
    (h : launch i acts { err := .ok, phase := donePhase i } s' = .next t) (hr : t.op = some r) (hown : s'.own = true)
    (hphase : s'.phase ∈ runPhases i)
    (hacts : ∀ r : Running, r.op = i → r.latch = s'.regs → ∀ a ∈ acts, a.fitsStart r) : Started s t r := by
  cases h
  obtain rfl := Option.some.inj hr
  have hclose : i ≠ .close := by rintro rfl; cases hu
  have hdest : destRanges i s'.regs = [] := by cases i <;> simp_all [usesPanel, destRanges]
  exact
    { actsFit := hacts _ rfl rfl
      inSession := fun _ => ⟨hown, hphase⟩
      anyPhase := fun h => absurd hu (by simp [h])
      closeOwns := fun h => absurd h hclose
      endsOk := ⟨rfl, rfl⟩
      endOwn := by simp [hclose]
      endOrient := by simp
      endOutLen := by simp
      endStore := by simp
      destInside := by simp [hdest] }

/-- ENCODE or ASSEMBLE, started by `launch` with the bytes of its destination range. -/
theorem Started.of_stores {dst : Nat} {bs : List Byte} {orient : Option Level} {outLen : Option Word}
    (h : launch i (storeActs dst bs) { err := .ok, orient, outLen, store := lastStore dst bs } s = .next t)
    (hr : t.op = some r) (hi : i = .encode ∨ i = .assemble) (horient : orient ≠ none → i = .encode)
    (hdest : destRanges i s.regs = [(dst, bs.length)])
    (hvalid : validRange s.cfg.memSize.val (dst, bs.length) = true) : Started s t r := by
  cases h
  obtain rfl := Option.some.inj hr
  have hclose : i ≠ .close := by rcases hi with rfl | rfl <;> simp
  have hpanel : usesPanel i = false := by rcases hi with rfl | rfl <;> rfl
  exact
    { actsFit := fun a => fitsStart_storeActs hdest
      inSession := fun h => absurd h (by simp [hpanel])
      anyPhase := fun _ => ⟨by rcases hi with rfl | rfl <;> simp, rfl⟩
      closeOwns := fun h => absurd h hclose
      endsOk := ⟨rfl, by rcases hi with rfl | rfl <;> rfl⟩
      endOwn := by simp [hclose]
      endOrient := horient
      endOutLen := fun _ => hi
      endStore := fun a b hab => by
        obtain ⟨k, rfl, hk⟩ := mem_lastStore hab
        simp [hdest, inRange_iff, hk]
      destInside := by simpa [hdest] using hvalid }

theorem execEncode_started (h : execEncode s = .next t) (hr : t.op = some r) : Started s t r := by
  obtain ⟨e, he⟩ | ⟨portrait, -, -, hvalid, -, he⟩ := execEncode_cases s <;> rw [he] at h
  · exact absurd hr (raise_starts_nothing h)
  · have hlen := length_frameBuffer portrait s
    exact .of_stores h hr (.inl rfl) (fun _ => rfl) (by rw [hlen]; rfl) (by rw [hlen]; exact hvalid)

theorem execAssemble_started (h : execAssemble s = .next t) (hr : t.op = some r) : Started s t r := by
  obtain ⟨e, he⟩ | ⟨-, hcount, -, -, hvalid, -, -, he⟩ := execAssemble_cases s <;> rw [he] at h
  · exact absurd hr (raise_starts_nothing h)
  · have hlen := length_container hcount
    exact .of_stores h hr (.inr rfl) (fun ho => absurd rfl ho) (by rw [hlen]; rfl) (by rw [hlen]; exact hvalid)

theorem execReset_started (h : execReset s = .next t) (hr : t.op = some r) : Started s t r := by
  by_cases hs : s.own = true ∧ s.phase ∈ [.unopened, .reset, .initialized]
  · rw [execReset_accepted hs.1 hs.2] at h
    exact .of_panel rfl h hr hs.1 hs.2 fun r hop _ a ha => fitsStart_resetSeq (.inl hop) ha
  · rw [execReset_rejected hs] at h
    exact absurd hr (raise_starts_nothing h)

theorem execSendCommand_started (h : execSendCommand s = .next t) (hr : t.op = some r) : Started s t r := by
  by_cases hs : s.own = true ∧ s.phase ∈ [.reset, .initialized]
  · rw [execSendCommand_accepted hs.1 hs.2] at h
    exact .of_panel rfl h hr hs.1 hs.2 fun r hop _ a ha => fitsStart_transfer (by rw [hop]; rfl) ha
  · rw [execSendCommand_rejected hs] at h
    exact absurd hr (raise_starts_nothing h)

theorem execSendData_started (h : execSendData s = .next t) (hr : t.op = some r) : Started s t r := by
  by_cases hs : s.own = true ∧ s.phase ∈ [.reset, .initialized]
  case neg =>
    rw [execSendData_rejected hs] at h
    exact absurd hr (raise_starts_nothing h)
  cases hv : validRange s.cfg.memSize.val s.regs.srcRange
  case false =>
    rw [execSendData_badRange hs.1 hs.2 hv] at h
    exact absurd hr (raise_starts_nothing h)
  case true =>
    rw [execSendData_accepted hs.1 hs.2 hv] at h
    refine .of_panel rfl h hr hs.1 hs.2 fun r hop _ a ha => ?_
    obtain ⟨bytes, hb⟩ := mem_sendData ha
    exact fitsStart_transfer (by rw [hop]; rfl) hb

theorem execWaitReady_started (h : execWaitReady s = .next t) (hr : t.op = some r) : Started s t r := by
  by_cases hs : s.own = true ∧ s.phase ∈ [.reset, .initialized]
  · rw [execWaitReady_accepted hs.1 hs.2] at h
    exact .of_panel rfl h hr hs.1 hs.2 fun r hop hl a ha => fitsStart_waitReady (by rw [hop]; rfl) (hl ▸ ha)
  · rw [execWaitReady_rejected hs] at h
    exact absurd hr (raise_starts_nothing h)

theorem execOpen_starts_nothing (h : execOpen s = .next t) : t.op ≠ some r := by
  unfold execOpen at h
  split at h <;> cases h <;> simp

theorem execInit_started (h : execInit s = .next t) (hr : t.op = some r) : Started s t r := by
  by_cases hs : s.own = true ∧ s.phase ∈ [.unopened, .reset]
  · rw [execInit_accepted hs.1 hs.2] at h
    refine .of_panel rfl h hr hs.1 hs.2 fun r hop hl a ha => ?_
    have hu : usesPanel r.op = true := by rw [hop]; rfl
    simp only [List.mem_append, List.mem_singleton] at ha
    rcases ha with ((ha | rfl) | ha) | ha
    · exact fitsStart_resetSeq (.inr hop) ha
    · simp [Act.fitsStart, actLegal, hop]
    · exact fitsStart_frames hu ha
    · exact fitsStart_waitReady (by rw [hop]; rfl) (hl ▸ ha)
  · rw [execInit_rejected hs] at h
    exact absurd hr (raise_starts_nothing h)

theorem execClear_started (h : execClear s = .next t) (hr : t.op = some r) : Started s t r := by
  by_cases hs : s.own = true ∧ s.phase = .initialized
  · rw [execClear_accepted hs.1 hs.2] at h
    exact .of_panel rfl h hr hs.1 (List.mem_singleton_self _) fun r hop hl a ha =>
      fitsStart_refresh (by rw [hop]; rfl) (by rw [hop]; rfl) (hl ▸ ha)
  · rw [execClear_rejected hs] at h
    exact absurd hr (raise_starts_nothing h)

theorem execDisplay_started (h : execDisplay s = .next t) (hr : t.op = some r) : Started s t r := by
  by_cases hs : s.own = true ∧ s.phase = .initialized
  case neg =>
    rw [execDisplay_rejected hs] at h
    exact absurd hr (raise_starts_nothing h)
  by_cases hn : s.regs.len.toNat = planeSize s.cfg ∧ s.regs.len2.toNat = planeSize s.cfg
  case neg =>
    rw [execDisplay_badLength hs.1 hs.2 hn] at h
    exact absurd hr (raise_starts_nothing h)
  by_cases hv : validRange s.cfg.memSize.val s.regs.srcRange = true ∧
      validRange s.cfg.memSize.val s.regs.src2Range = true
  case neg =>
    rw [execDisplay_badRange hs.1 hs.2 hn hv] at h
    exact absurd hr (raise_starts_nothing h)
  rw [execDisplay_accepted hs.1 hs.2 hn hv] at h
  exact .of_panel rfl h hr hs.1 (List.mem_singleton_self _) fun r hop hl a ha =>
    fitsStart_refresh (by rw [hop]; rfl) (by rw [hop]; rfl) (hl ▸ ha)

theorem execSleep_started (h : execSleep s = .next t) (hr : t.op = some r) : Started s t r := by
  by_cases hs : s.own = true ∧ s.phase = .initialized
  · rw [execSleep_accepted hs.1 hs.2] at h
    refine .of_panel rfl h hr hs.1 (List.mem_singleton_self _) fun r hop hl a ha => ?_
    have hu : usesPanel r.op = true := by rw [hop]; rfl
    simp only [List.mem_append] at ha
    rcases ha with (ha | ha) | ha
    · exact fitsStart_frame hu ha
    · exact fitsStart_waitReady (by rw [hop]; rfl) (hl ▸ ha)
    · exact fitsStart_frame hu ha
  · rw [execSleep_rejected hs] at h
    exact absurd hr (raise_starts_nothing h)

theorem execClose_started (h : execClose s = .next t) (hr : t.op = some r) : Started s t r := by
  cases h
  obtain rfl := Option.some.inj hr
  exact
    { actsFit := fun a ha => by
        cases hown : s.own
        · simp [hown] at ha
        · simp only [hown, if_true] at ha
          exact fitsStart_drives rfl ha
      inSession := by simp [usesPanel]
      anyPhase := by simp
      closeOwns := by cases s.own <;> simp
      endsOk := ⟨rfl, rfl⟩
      endOwn := rfl
      endOrient := by simp
      endOutLen := by simp
      endStore := by simp
      destInside := by simp [destRanges] }

/-- What holds of every operation that starts. -/
theorem exec_started (h : exec i s = .next t) (hr : t.op = some r) : Started s t r := by
  cases i with
  | encode => exact execEncode_started h hr
  | assemble => exact execAssemble_started h hr
  | reset => exact execReset_started h hr
  | sendCommand => exact execSendCommand_started h hr
  | sendData => exact execSendData_started h hr
  | waitReady => exact execWaitReady_started h hr
  | openSession => exact absurd hr (execOpen_starts_nothing h)
  | init => exact execInit_started h hr
  | clear => exact execClear_started h hr
  | display => exact execDisplay_started h hr
  | sleep => exact execSleep_started h hr
  | close => exact execClose_started h hr

end

end Sys2Proof.Machine
end

section
/-! The invariant `Legal`: what an idle state needs for it, which updates leave it alone, and that a start, an act and a
finishing transition each keep it. -/

namespace Sys2Proof.Machine

/-! ### Memory -/

/-- Memory in its canonical form that lists no byte at or above `size` (R201, R205). -/
def Memory.legal (size : Nat) (fill : Fill) (m : Memory) : Prop :=
  Memory.wf fill m = true ∧ ∀ c ∈ m, c.1 < size

theorem Memory.legal_write {size : Nat} {fill : Fill} {m : Memory} {a : Nat} {b : Byte} (h : Memory.legal size fill m)
    (ha : a < size) : Memory.legal size fill (Memory.write fill m a b) := by
  refine ⟨Memory.wf_write h.1, fun c hc => ?_⟩
  rcases Memory.mem_write hc with rfl | hc
  · exact ha
  · exact h.2 c hc

theorem Memory.legal_listed {size : Nat} {fill : Fill} {byte : Nat → Byte} {addrs : List Nat}
    (h : ∀ a ∈ addrs, a < size) : Memory.legal size fill (Memory.listed fill byte addrs) :=
  ⟨Memory.wf_listed, fun _ hc => h _ (Memory.mem_listed hc)⟩

/-- An address in a valid range is an address of memory. -/
theorem lt_of_validRange {size a : Nat} {q : Nat × Nat} (hv : validRange size q = true) (ha : inRange a q = true) :
    a < size := by
  rw [validRange_iff] at hv
  rw [inRange_iff] at ha
  omega

/-! ### Legal states -/

section
variable {s t : State} {r : Running}

theorem Legal.memLegal (h : Legal s) : Memory.legal s.cfg.memSize.val s.fill s.mem :=
  ⟨h.memCanonical, h.memInside⟩

/-- An idle state is legal if its memory is, and its phase is one of a session at rest. -/
theorem Legal.of_idle (hm : Memory.legal s.cfg.memSize.val s.fill s.mem) (hown : s.own = false → s.phase = .closed)
    (hphase : s.phase.transient = false) (hop : s.op = none) : Legal s where
  memCanonical := hm.1
  memInside := hm.2
  ownership := hown
  idlePhase _ := hphase
  opLegal := by simp [hop]

/-- An update that writes neither the session nor the operation, and keeps memory legal, keeps a state legal. -/
theorem Legal.of_same_session (h : Legal s) (hcfg : t.cfg = s.cfg) (hown : t.own = s.own) (hphase : t.phase = s.phase)
    (hop : t.op = s.op) (hm : Memory.legal t.cfg.memSize.val t.fill t.mem) : Legal t where
  memCanonical := hm.1
  memInside := hm.2
  ownership := by rw [hown, hphase]; exact h.ownership
  idlePhase := by rw [hop, hphase]; exact h.idlePhase
  opLegal r hr := by
    obtain ⟨h1, h2, h3, h4, h5, h6, h7, h8, h9⟩ := h.opLegal r (hop ▸ hr)
    exact ⟨hphase ▸ h1, hown ▸ h2, h3, h4, h5, h6, h7, h8, hcfg ▸ h9⟩

theorem Legal.withInputs (h : Legal s) (rest : List Input) : Legal { s with inputs := rest } :=
  h.of_same_session rfl rfl rfl rfl h.memLegal

/-- A byte of a running operation's destination lies in memory. -/
theorem OpLegal.dest_lt (h : OpLegal s r) {a : Nat} (ha : (destRanges r.op r.latch).any (inRange a) = true) :
    a < s.cfg.memSize.val := by
  obtain ⟨q, hq, haq⟩ := List.any_eq_true.1 ha
  exact lt_of_validRange (h.destInside q hq) haq

/-! ### Block reset -/

theorem legal_blockReset (h : Legal s) : Legal (blockReset s) := by
  refine .of_idle (Memory.legal_listed fun a ha => ?_) (fun _ => rfl) rfl rfl
  obtain ⟨r, hr, ⟨q, hq, hlo, hhi⟩, -⟩ := mem_standing.1 ha
  exact lt_of_validRange ((h.opLegal r hr).destInside q hq) (inRange_iff.2 ⟨hlo, hhi⟩)

/-! ### Starting an operation -/

/-- An operation that does not use the panel runs in every phase of a session at rest (R401, R451, R575). -/
theorem mem_runPhases_of_not_usesPanel {i : Instr} {ph : Phase} (hu : usesPanel i = false) (hi : i ≠ .openSession)
    (hph : ph.transient = false) : ph ∈ runPhases i := by
  cases i <;> simp_all [usesPanel, runPhases]
  all_goals cases ph <;> simp_all [Phase.transient]

theorem Started.opLegal (h : Started s t r) (hp : s.phase.transient = false) : OpLegal t r where
  phaseFits := by
    cases hu : usesPanel r.op
    · obtain ⟨hi, hphase⟩ := h.anyPhase hu
      exact mem_runPhases_of_not_usesPanel hu hi (hphase ▸ hp)
    · exact (h.inSession hu).2
  ownsBus hb := hb.elim (fun hu => (h.inSession hu).1) fun hc => h.closeOwns hc.1 hc.2
  actsFit a ha := (h.actsFit a ha).1
  endFits := by simp [endLegal, h.endsOk.1, h.endsOk.2]
  endOwn := h.endOwn
  endOrient := h.endOrient
  endOutLen := h.endOutLen
  endStore := h.endStore
  destInside := h.destInside

/-- R122 in the state after a start that left OWN as it was. -/
theorem Started.ownership (h : Started s t r) (hs : s.own = false → s.phase = .closed) (hown : t.own = s.own) :
    t.own = false → t.phase = .closed := by
  intro ht
  cases hu : usesPanel r.op
  · rw [(h.anyPhase hu).2]
    exact hs (hown ▸ ht)
  · rw [(h.inSession hu).1] at ht
    cases ht

/-- A CMD word written to an idle legal state leads to a legal state: an error and OPEN leave the block idle, a start
puts it to work. -/
theorem legal_exec {i : Instr} (hs : Legal s) (hop : s.op = none) (h : exec i s = .next t) : Legal t := by
  have hp := hs.idlePhase hop
  obtain ⟨e, he⟩ | ⟨-, -, he⟩ | ⟨acts, fin, he⟩ | ⟨acts, fin, ph, -, he⟩ := exec_cases i s
  case inl =>
    obtain rfl : _ = t := Host.Outcome.next.inj (he.symm.trans h)
    exact .of_idle hs.memLegal hs.ownership hp rfl
  case inr.inl =>
    obtain rfl : _ = t := Host.Outcome.next.inj (he.symm.trans h)
    exact .of_idle hs.memLegal (fun hown => nomatch hown) rfl rfl
  case inr.inr.inl | inr.inr.inr =>
    obtain rfl : _ = t := Host.Outcome.next.inj (he.symm.trans h)
    exact
      { memCanonical := hs.memCanonical
        memInside := hs.memInside
        ownership := (exec_started h rfl).ownership hs.ownership rfl
        idlePhase := fun hn => nomatch hn
        opLegal := fun r hr => (exec_started h hr).opLegal hp }

/-! ### The finishing transition -/

/-- The two ways a legal operation ends (R521, R553, R581). -/
theorem endLegal_cases (h : endLegal r = true) :
    (r.fin.err = .ok ∧ r.fin.phase = donePhase r.op) ∨
    (usesPanel r.op = true ∧ r.todo = [] ∧ r.fin.phase = some .failed) := by
  simp only [endLegal, Bool.or_eq_true, Bool.and_eq_true, decide_eq_true_eq] at h
  exact h.imp id fun ⟨⟨⟨hu, ht⟩, hp⟩, _⟩ => ⟨hu, ht, hp⟩

/-- The phase an operation writes at a successful end is one of a session at rest. -/
theorem not_transient_of_donePhase {i : Instr} {ph : Phase} (h : donePhase i = some ph) : ph.transient = false := by
  cases i <;> cases h <;> rfl

/-- An operation that writes no phase at its end has run in one of a session at rest. -/
theorem not_transient_of_mem_runPhases {i : Instr} {ph : Phase} (hd : donePhase i = none) (h : ph ∈ runPhases i) :
    ph.transient = false := by
  cases i <;> simp [donePhase] at hd <;> cases ph <;> simp [runPhases] at h <;> rfl

theorem donePhase_of_not_usesPanel {i : Instr} (hu : usesPanel i = false) (hc : i ≠ .close) : donePhase i = none := by
  cases i <;> simp_all [usesPanel, donePhase]

/-- An operation that runs without the session does not use the panel. -/
theorem OpLegal.not_usesPanel (h : OpLegal s r) (hown : s.own = false) : usesPanel r.op = false := by
  cases hu : usesPanel r.op
  · rfl
  · rw [h.ownsBus (.inl hu)] at hown
    cases hown

/-- The finishing transition keeps a state legal: the last byte lies in the destination, only CLOSE gives OWN up, and it
enters Closed. -/
theorem legal_finish (hs : Legal s) (hop : s.op = some r) : Legal (s.finish r.fin) := by
  have hr := hs.opLegal r hop
  refine .of_idle ?memory ?ownership ?phase rfl
  case memory =>
    cases hst : r.fin.store with
    | none => simpa [State.finish_mem_none s hst] using hs.memLegal
    | some ab =>
      obtain ⟨a, b⟩ := ab
      simpa [State.finish_mem_some s hst] using Memory.legal_write hs.memLegal (hr.dest_lt (hr.endStore a b hst))
  case ownership =>
    intro hown
    rw [State.finish_own, hr.endOwn] at hown
    rw [State.finish_phase]
    by_cases hc : r.op = .close
    · obtain ⟨-, hp⟩ | ⟨hu, -, -⟩ := endLegal_cases hr.endFits
      · simp [hp, hc, donePhase]
      · simp [hc, usesPanel] at hu
    · have hown : s.own = false := by simpa [hc] using hown
      have hu : usesPanel r.op = false := hr.not_usesPanel hown
      obtain ⟨-, hp⟩ | ⟨hu', -, -⟩ := endLegal_cases hr.endFits
      · rw [hp, donePhase_of_not_usesPanel hu hc]
        exact hs.ownership hown
      · rw [hu] at hu'
        cases hu'
  case phase =>
    rw [State.finish_phase]
    obtain ⟨-, hp⟩ | ⟨-, -, hp⟩ := endLegal_cases hr.endFits <;> rw [hp]
    · cases hd : donePhase r.op with
      | none => exact not_transient_of_mem_runPhases hd hr.phaseFits
      | some ph => exact not_transient_of_donePhase hd
    · rfl

/-! ### One act -/

theorem actLegal_congr {r' : Running} (hop : r'.op = r.op) (hlatch : r'.latch = r.latch) (a : Act) :
    actLegal r' a = actLegal r a := by
  cases a <;> simp [actLegal, hop, hlatch]

theorem usesPanel_of_waits {i : Instr} (h : waits i = true) : usesPanel i = true := by
  cases i <;> simp_all [waits, usesPanel]

/-- A legal operation with acts left, whose end stands and whose acts still to come fit, stays legal. -/
theorem OpLegal.of_goOn {r' : Running} (h : OpLegal s r) (ht : r.todo ≠ []) (hcfg : t.cfg = s.cfg) (hown : t.own = s.own)
    (hphase : t.phase ∈ runPhases r.op) (hop : r'.op = r.op) (hlatch : r'.latch = r.latch) (hfin : r'.fin = r.fin)
    (hacts : ∀ x ∈ r'.todo, actLegal r x = true) : OpLegal t r' where
  phaseFits := hop ▸ hphase
  ownsBus hb := by
    rw [hown]
    exact h.ownsBus (hb.imp (hop ▸ ·) fun hc => ⟨hop ▸ hc.1, ht⟩)
  actsFit x hx := (actLegal_congr hop hlatch x).trans (hacts x hx)
  endFits := by
    obtain ⟨he, hp⟩ | ⟨-, ht', -⟩ := endLegal_cases h.endFits
    · simp [endLegal, hfin, hop, he, hp]
    · exact absurd ht' ht
  endOwn := by rw [hfin, hop]; exact h.endOwn
  endOrient := by rw [hfin, hop]; exact h.endOrient
  endOutLen := by rw [hfin, hop]; exact h.endOutLen
  endStore := by rw [hfin, hop, hlatch]; exact h.endStore
  destInside := by rw [hop, hlatch, hcfg]; exact h.destInside

/-- A legal operation on the panel that gives up with a BusLine-time code stays legal (R521, R553). -/
theorem OpLegal.of_giveUp {r' : Running} {e : ErrCode} (h : OpLegal s r) (hu : usesPanel r.op = true)
    (hcfg : t.cfg = s.cfg) (hown : t.own = s.own) (hphase : t.phase ∈ runPhases r.op) (hop : r'.op = r.op)
    (hlatch : r'.latch = r.latch) (htodo : r'.todo = []) (hfin : r'.fin = { err := e, phase := some .failed })
    (he : e = ioFailCode r.op ∨ (waits r.op = true ∧ e = .busyTimeout)) : OpLegal t r' where
  phaseFits := hop ▸ hphase
  ownsBus _ := by
    rw [hown]
    exact h.ownsBus (.inl hu)
  actsFit := by simp [htodo]
  endFits := by simp [endLegal, hfin, htodo, hop, hu, he]
  endOwn := by
    have hc : r.op ≠ .close := by
      intro hc
      simp [hc, usesPanel] at hu
    simp [hfin, hop, hc]
  endOrient := by simp [hfin]
  endOutLen := by simp [hfin]
  endStore := by simp [hfin]
  destInside := by rw [hop, hlatch, hcfg]; exact h.destInside

/-- An act leaves PHASE at one in which its operation runs: only INIT writes it, and it writes Reset (R552). -/
theorem perform_phaseFits {r' : Running} {a : Act} (h : OpLegal s r) (ha : actLegal r a = true) :
    (perform r' a s).phase ∈ runPhases r.op := by
  rw [perform_phase]
  cases a with
  | enter ph =>
    simp only [actLegal, Bool.and_eq_true, decide_eq_true_eq] at ha
    obtain ⟨hop, rfl⟩ := ha
    simp [hop, runPhases]
  | set _ _ | drive _ _ | write _ | sleep _ | poll _ | pause _ | store _ _ => exact h.phaseFits

/-- What an act leaves of a legal operation is legal. -/
theorem opLegal_perform {r' : Running} {a : Act} {rest : List Act} (h : OpLegal s r) (ht : r.todo = a :: rest)
    (hr' : (perform { r with todo := rest } a s).op = some r') :
    OpLegal (perform { r with todo := rest } a s) r' := by
  have ha : actLegal r a = true := h.actsFit a (by simp [ht])
  have hrest : ∀ x ∈ rest, actLegal r x = true := fun x hx => h.actsFit x (by simp [ht, hx])
  have hphase := perform_phaseFits (r' := { r with todo := rest }) h ha
  obtain ⟨q, hq, hop, hlatch, hgo | hend⟩ := perform_op { r with todo := rest } a s <;>
    obtain rfl := Option.some.inj (hq.symm.trans hr')
  · obtain ⟨hfin, htodo⟩ := hgo
    refine h.of_goOn (by simp [ht]) (perform_cfg ..) (perform_own ..) hphase hop hlatch hfin ?_
    rcases htodo with htodo | ⟨w, rfl, htodo⟩ | ⟨w, rfl, htodo⟩ <;> rw [htodo]
    · exact hrest
    · exact List.forall_mem_cons.2 ⟨ha, hrest⟩
    · exact List.forall_mem_cons.2 ⟨ha, hrest⟩
  · obtain ⟨htodo, ⟨hfin, hact⟩ | ⟨hfin, w, rfl⟩⟩ := hend
    · have hu : usesPanel r.op = true := by
        rcases hact with ⟨p, l, rfl⟩ | ⟨bs, rfl⟩ | ⟨w, rfl⟩
        · exact ha
        · exact ha
        · exact usesPanel_of_waits ha
      exact h.of_giveUp hu (perform_cfg ..) (perform_own ..) hphase hop hlatch htodo hfin (.inl rfl)
    · exact h.of_giveUp (usesPanel_of_waits ha) (perform_cfg ..) (perform_own ..) hphase hop hlatch htodo hfin
        (.inr ⟨ha, rfl⟩)

/-- An act keeps memory legal: a store lies in the operation's destination. -/
theorem memLegal_perform {r' : Running} {a : Act} (hs : Legal s) (h : OpLegal s r) (ha : actLegal r a = true) :
    Memory.legal s.cfg.memSize.val s.fill (perform r' a s).mem := by
  rw [perform_mem]
  cases a with
  | store k b => exact Memory.legal_write hs.memLegal (h.dest_lt ha)
  | set _ _ | drive _ _ | write _ | sleep _ | poll _ | pause _ | enter _ => exact hs.memLegal

/-- Only an operation on the panel writes PHASE before its end, and it holds the session. -/
theorem ownership_perform {r' : Running} {a : Act} (hs : Legal s) (h : OpLegal s r) (ha : actLegal r a = true)
    (hown : s.own = false) : (perform r' a s).phase = .closed := by
  rw [perform_phase]
  cases a with
  | enter ph =>
    simp only [actLegal, Bool.and_eq_true, decide_eq_true_eq] at ha
    have hu := h.not_usesPanel hown
    simp [ha.1, usesPanel] at hu
  | set _ _ | drive _ _ | write _ | sleep _ | poll _ | pause _ | store _ _ => exact hs.ownership hown

theorem legal_perform {a : Act} {rest : List Act} (hs : Legal s) (hop : s.op = some r) (ht : r.todo = a :: rest) :
    Legal (perform { r with todo := rest } a s) := by
  have hr := hs.opLegal r hop
  have ha : actLegal r a = true := hr.actsFit a (by simp [ht])
  obtain ⟨r', hr', -⟩ := perform_op { r with todo := rest } a s
  obtain ⟨hwf, hin⟩ := memLegal_perform (r' := { r with todo := rest }) hs hr ha
  exact
    { memCanonical := by rw [perform_fill]; exact hwf
      memInside := by rw [perform_cfg]; exact hin
      ownership := by rw [perform_own]; exact ownership_perform hs hr ha
      idlePhase := fun hn => by rw [hr'] at hn; cases hn
      opLegal := fun q hq => opLegal_perform hr ht hq }

/-! ### One step -/

theorem legal_blockStep (hs : Legal s) : Legal (blockStep s) := by
  obtain ⟨-, h⟩ | ⟨r, hop, -, h⟩ | ⟨r, a, rest, hop, ht, h⟩ := blockStep_cases s <;> rw [h]
  · exact hs
  · exact legal_finish hs hop
  · exact legal_perform hs hop ht

theorem op_eq_none_of_not_running (h : s.running = false) : s.op = none := by
  simpa [State.running] using h

theorem legal_hostAccess {x : Access} (hs : Legal s) (h : hostAccess x s = .next t) : Legal t := by
  obtain ⟨y, rfl⟩ | ⟨q, v, loc, -, -, -, -, rfl⟩ | ⟨v, loc, -, -, hrun, hcmd⟩ | ⟨a, b, -, ha, -, rfl⟩ :=
    hostAccess_cases h
  · exact hs.of_same_session rfl rfl rfl rfl hs.memLegal
  · exact hs.of_same_session rfl rfl rfl rfl hs.memLegal
  · have hop := op_eq_none_of_not_running hrun
    obtain ⟨i, -, hexec⟩ | rfl := writeCmd_cases hcmd
    · exact legal_exec hs hop hexec
    · exact .of_idle hs.memLegal hs.ownership (hs.idlePhase hop) rfl
  · exact hs.of_same_session rfl rfl rfl rfl (Memory.legal_write hs.memLegal ha)

end

/-- Settles O45, by the kinds of step: a transition of the block, a host access, or a block reset. -/
theorem stepKeepsLegal : Obligations.StepKeepsLegal := by
  intro s t hs h
  obtain ⟨-, rfl⟩ | ⟨rest, -, rfl⟩ | ⟨x, rest, -, hx⟩ | ⟨rest, -, rfl⟩ := step_cases h
  · exact legal_blockStep hs
  · exact legal_blockStep (hs.withInputs rest)
  · exact legal_hostAccess (hs.withInputs rest) hx
  · exact legal_blockReset (hs.withInputs rest)

/-- Settles O44: no operation runs, memory lists nothing, and PHASE is Closed. -/
theorem resetIsLegal : Obligations.ResetIsLegal :=
  .of_idle ⟨Memory.wf_nil, fun _ hc => nomatch hc⟩ (fun _ => rfl) rfl rfl

end Sys2Proof.Machine
end

section
/-! Every operation whose waits have an end finishes: each transition leaves less work. -/

namespace Sys2Proof.Machine

/-- A wait that cannot go on for ever: it has a timeout, and it has come there or its polls bring it nearer (R112). -/
def Wait.ends (w : Wait) : Prop :=
  ∃ t, w.timeout = some t ∧ (0 < w.poll ∨ t ≤ w.elapsed)

/-- An act that is no part of a wait without end. -/
def Act.ends (a : Act) : Prop :=
  ∀ w, a = .poll w ∨ a = .pause w → w.ends

/-- The most transitions an act comes to: for a poll, twice the time left and the poll that finds it gone. -/
def Act.cost : Act → Nat
  | .poll w => 2 * (w.timeout.getD 0 - w.elapsed) + 1
  | .pause w => 2 * (w.timeout.getD 0 - (w.elapsed + w.poll)) + 2
  | .set _ _ | .drive _ _ | .write _ | .sleep _ | .enter _ | .store _ _ => 1

/-- The most transitions a sequence comes to. -/
def workLeft (acts : List Act) : Nat :=
  (acts.map Act.cost).sum

@[simp] theorem workLeft_nil : workLeft [] = 0 := rfl

@[simp] theorem workLeft_cons (a : Act) (acts : List Act) : workLeft (a :: acts) = a.cost + workLeft acts := by
  simp [workLeft]

theorem Act.cost_pos (a : Act) : 0 < a.cost := by
  cases a <;> simp [Act.cost]

/-- A wait goes on after a poll only before its timeout (R516). -/
theorem elapsed_lt_of_pause {s : State} {r r' : Running} {w : Wait} {t : Nat} (hr' : (perform r (.poll w) s).op = some r')
    (ht : r'.todo = .pause w :: r.todo) (hw : w.timeout = some t) : w.elapsed < t := by
  by_contra hlt
  simp only [perform, State.polled, hw, Nat.le_of_not_lt hlt, if_true] at hr'
  repeat' split at hr'
  all_goals
    obtain rfl := Option.some.inj hr'
    simp at ht

section
variable {s : State} {r r' : Running}

/-- A wait that ends, at a poll that goes on to its pause, has less left to do. -/
theorem cost_pause_lt {w : Wait} {t : Nat} (hw : w.ends) (ht : w.timeout = some t) (hlt : w.elapsed < t) :
    (Act.pause w).cost < (Act.poll w).cost := by
  obtain ⟨t', ht', hpoll⟩ := hw
  obtain rfl : t = t' := Option.some.inj (ht.symm.trans ht')
  simp only [Act.cost, ht, Option.getD_some]
  omega

/-- One round of a wait on, it still ends. -/
theorem Wait.ends_next {w : Wait} (hw : w.ends) : Wait.ends { w with elapsed := w.elapsed + w.poll } := by
  obtain ⟨t, ht, hpoll⟩ := hw
  exact ⟨t, ht, hpoll.imp id fun h => Nat.le_add_right_of_le h⟩

/-- Each act leaves a sequence with less work and no endless wait. -/
theorem perform_workLeft {a : Act} (ha : a.ends) (hrest : ∀ x ∈ r.todo, x.ends) :
    ∃ r', (perform r a s).op = some r' ∧ (∀ x ∈ r'.todo, x.ends) ∧ workLeft r'.todo < workLeft (a :: r.todo) := by
  have hpos := a.cost_pos
  obtain ⟨r', hr', -, -, ⟨-, htodo | ⟨w, rfl, htodo⟩ | ⟨w, rfl, htodo⟩⟩ | ⟨htodo, -⟩⟩ := perform_op r a s <;>
    refine ⟨r', hr', ?_⟩
  · rw [htodo]
    exact ⟨hrest, by simpa using hpos⟩
  · have hw : w.ends := ha w (.inl rfl)
    obtain ⟨t, ht, -⟩ := id hw
    have hlt := cost_pause_lt hw ht (elapsed_lt_of_pause hr' htodo ht)
    rw [htodo]
    exact ⟨List.forall_mem_cons.2 ⟨by simpa [Act.ends] using hw, hrest⟩, by simpa using hlt⟩
  · have hw : w.ends := ha w (.inr rfl)
    rw [htodo]
    exact ⟨List.forall_mem_cons.2 ⟨by simpa [Act.ends] using Wait.ends_next hw, hrest⟩, by simp [Act.cost]⟩
  · rw [htodo]
    exact ⟨by simp, by rw [workLeft_cons, workLeft_nil]; omega⟩

/-- A running operation without an endless wait finishes, whatever the BusLine answers. -/
theorem blockRun_finishes (hop : s.op = some r) (he : ∀ x ∈ r.todo, x.ends) : ∃ k, (blockRun k s).op = none := by
  induction hn : workLeft r.todo using Nat.strong_induction_on generalizing s r with
  | _ n ih =>
    cases ht : r.todo with
    | nil => exact ⟨1, by rw [blockRun_succ, blockRun_zero, blockStep_finish hop ht, State.finish_op]⟩
    | cons a rest =>
      rw [ht] at he hn
      obtain ⟨ha, hrest⟩ := List.forall_mem_cons.1 he
      obtain ⟨r', hr', he', hlt⟩ := perform_workLeft (s := s) (r := { r with todo := rest }) ha hrest
      rw [← blockStep_act hop ht] at hr'
      obtain ⟨k, hk⟩ := ih _ (hn ▸ hlt) hr' he' rfl
      exact ⟨k + 1, by rw [blockRun_succ, hk]⟩

end

theorem waits_iff {i : Instr} :
    waits i = true ↔ i = .waitReady ∨ i = .init ∨ i = .clear ∨ i = .display ∨ i = .sleep := by
  cases i <;> simp [waits]

/-- A wait with the operands of these registers ends (R112, R516). -/
theorem Regs.wait_ends {r : Regs} (hen : r.timeoutEn = 1) (h : r.pollMs ≠ 0 ∨ r.timeoutMs = 0) : r.wait.ends := by
  refine ⟨r.timeoutMs.toNat, if_pos hen, h.imp (fun hp => ?_) fun ht => ?_⟩
  · exact Nat.pos_of_ne_zero fun h0 => hp (BitVec.eq_of_toNat_eq h0)
  · simp [ht]

/-- Settles O32: a started sequence holds no wait but those with the operands of its latch, and a sequence whose waits
end has less work at each transition. -/
theorem everyOperationFinishes : Obligations.EveryOperationFinishes := by
  intro i s hin hwait
  obtain ⟨t, hexec, hframe, hstart⟩ := startingTouchesNoMemoryOrBus i s
  cases hop : t.op with
  | none => exact ⟨t, 0, t, hexec, rfl, by simp [State.running, hop]⟩
  | some r =>
    obtain ⟨-, -, hi, hlatch⟩ := hstart r hop
    have hends : ∀ a ∈ r.todo, a.ends := by
      intro a ha w hw
      obtain ⟨hlegal, hpoll, hpause⟩ := (exec_started hexec hop).actsFit a ha
      rcases hw with rfl | rfl
      · rw [hpoll w rfl, hlatch]
        have hwaits : waits i = true := hi ▸ hlegal
        obtain ⟨hen, hms⟩ := hwait (waits_iff.1 hwaits)
        exact Regs.wait_ends hen hms
      · exact absurd rfl (hpause w)
    obtain ⟨k, hk⟩ := blockRun_finishes hop hends
    have hti : t.inputs = [] := by rw [hframe]; exact hin
    exact ⟨t, k, _, hexec, core_run_block hti k, by simp [State.running, hk]⟩

end Sys2Proof.Machine
end

section
/-! What a step can change of the BusLine's events, OWN, the registers and the results. -/

namespace Sys2Proof.Machine
variable {s t : State} {r : Running}

/-! ### Steps of the host -/

/-- What a CMD write with no operation running can change (R110, R130): the results, the session and the operation. -/
theorem writeCmd_frame {v : Word} (h : writeCmd v s = .next t) :
    t = { s with err := t.err, phase := t.phase, own := t.own, op := t.op } := by
  obtain ⟨i, -, hexec⟩ | rfl := writeCmd_cases h
  · obtain ⟨t', hexec', hframe, -⟩ := startingTouchesNoMemoryOrBus i s
    obtain rfl : t' = t := Host.Outcome.next.inj (hexec'.symm.trans hexec)
    exact hframe
  · rfl

/-- A host access makes no BusLine event. -/
theorem hostAccess_trace {x : Access} (h : hostAccess x s = .next t) : t.trace = s.trace := by
  obtain ⟨y, rfl⟩ | ⟨q, v, loc, -, -, -, -, rfl⟩ | ⟨v, loc, -, -, -, hcmd⟩ | ⟨a, b, -, -, -, rfl⟩ := hostAccess_cases h
  · rfl
  · rfl
  · rw [writeCmd_frame hcmd]
  · rfl

/-- Only OPEN's word, written to CMD with the bus free, changes OWN among the host's accesses (R121, R550). -/
theorem hostAccess_own {x : Access} (h : hostAccess x s = .next t) (hne : t.own ≠ s.own) :
    t.own = true ∧ t.phase = .unopened ∧ s.running = false ∧ t.running = false ∧
      ∃ loc v, x = .regWrite loc 4 v ∧ Loc.hits s.cfg loc 0 ∧ decode v = .ok .openSession := by
  obtain ⟨y, rfl⟩ | ⟨q, v, loc, -, -, -, -, rfl⟩ | ⟨v, loc, hx, hl, hrun, hcmd⟩ | ⟨a, b, -, -, -, rfl⟩ :=
    hostAccess_cases h
  · exact absurd rfl hne
  · exact absurd rfl hne
  · obtain ⟨i, hd, hexec⟩ | rfl := writeCmd_cases hcmd
    · obtain ⟨e, he⟩ | ⟨rfl, -, he⟩ | ⟨acts, fin, he⟩ | ⟨acts, fin, ph, -, he⟩ := exec_cases i s <;>
        obtain rfl : _ = t := Host.Outcome.next.inj (he.symm.trans hexec)
      case inr.inl => exact ⟨rfl, rfl, hrun, rfl, loc, v, hx, hl, hd⟩
      all_goals exact absurd rfl hne
    · exact absurd rfl hne
  · exact absurd rfl hne

/-- A host access that changes a register is a write of that register, and not of CMD (R101). -/
theorem hostAccess_regs {x : Access} (h : hostAccess x s = .next t) (hne : t.regs ≠ s.regs) :
    s.running = false ∧ ∃ q loc v, x = .regWrite loc 4 v ∧ Loc.hits s.cfg loc q.offset ∧ q ≠ .cmd ∧
      t.regs = s.regs.write q v := by
  obtain ⟨y, rfl⟩ | ⟨q, v, loc, hx, hl, hq, hrun, rfl⟩ | ⟨v, loc, -, -, -, hcmd⟩ | ⟨a, b, -, -, -, rfl⟩ :=
    hostAccess_cases h
  · exact absurd rfl hne
  · exact ⟨hrun, q, loc, v, hx, hl, hq, rfl⟩
  · exact absurd (by rw [writeCmd_frame hcmd]) hne
  · exact absurd rfl hne

/-! ### Steps of the block -/

theorem running_of_op (h : s.op = some r) : s.running = true := by
  simp [State.running, h]

/-- An act that makes an event belongs to an operation on the panel, or is one of CLOSE's drives. -/
theorem usesPanel_of_trace_ne {r' : Running} {a : Act} (ha : actLegal r a = true)
    (hne : (perform r' a s).trace ≠ s.trace) : usesPanel r.op = true ∨ r.op = .close := by
  cases a with
  | set _ _ | write _ => exact .inl ha
  | poll _ | pause _ => exact .inl (usesPanel_of_waits ha)
  | drive _ _ => exact .inr (of_decide_eq_true ha)
  | sleep _ =>
    simp only [actLegal, Bool.or_eq_true, decide_eq_true_eq] at ha
    rcases ha with ha | ha <;> exact .inl (by rw [ha]; rfl)
  | enter _ | store _ _ => exact absurd rfl hne

/-- The block makes an event only while it holds the bus and runs an operation (R121). -/
theorem blockStep_trace (hs : Legal s) (hne : (blockStep s).trace ≠ s.trace) : s.own = true ∧ s.running = true := by
  obtain ⟨-, h⟩ | ⟨r, hop, -, h⟩ | ⟨r, a, rest, hop, ht, h⟩ := blockStep_cases s <;> rw [h] at hne
  · exact absurd rfl hne
  · exact absurd rfl hne
  · have hr := hs.opLegal r hop
    have ha : actLegal r a = true := hr.actsFit a (by simp [ht])
    refine ⟨hr.ownsBus ((usesPanel_of_trace_ne ha hne).imp id fun hc => ⟨hc, ?_⟩), running_of_op hop⟩
    simp [ht]

/-- The block changes OWN only in CLOSE's finishing transition (R121, R575). -/
theorem blockStep_own (hs : Legal s) (hne : (blockStep s).own ≠ s.own) :
    (blockStep s).own = false ∧ (blockStep s).phase = .closed ∧ ∃ r, s.op = some r ∧ r.op = .close ∧ r.todo = [] := by
  obtain ⟨-, h⟩ | ⟨r, hop, ht, h⟩ | ⟨r, a, rest, -, -, h⟩ := blockStep_cases s <;> rw [h] at hne ⊢
  · exact absurd rfl hne
  · have hr := hs.opLegal r hop
    rw [State.finish_own, hr.endOwn] at hne
    have hc : r.op = .close := by
      by_contra hc
      simp [hc] at hne
    have hown : (s.finish r.fin).own = false := by simp [hr.endOwn, hc]
    exact ⟨hown, (legal_finish hs hop).ownership hown, r, hop, hc, ht⟩
  · exact absurd (perform_own ..) hne

/-! ### The latch -/

section
variable (s : State) (r : Running) (regs : Regs)

theorem State.afterAnswer_withRegs :
    State.afterAnswer { s with regs := regs } = { s.afterAnswer with regs := regs } := by
  cases h : s.answers <;> simp [State.afterAnswer, h]

theorem State.checked_withRegs (ans : BusAnswer) :
    State.checked { s with regs := regs } r ans = { s.checked r ans with regs := regs } := by
  unfold State.checked
  split <;> rfl

theorem State.polled_withRegs (w : Wait) (ans : BusAnswer) :
    State.polled { s with regs := regs } r w ans = { s.polled r w ans with regs := regs } := by
  unfold State.polled
  repeat' split
  all_goals rfl

/-- An act neither reads nor writes the registers. -/
theorem perform_withRegs (a : Act) :
    perform r a { s with regs := regs } = { perform r a s with regs := regs } := by
  cases a with
  | set pin l =>
    simp only [perform, State.busSet, State.afterAnswer_withRegs]
    exact State.checked_withRegs (s.busSet pin l) r regs _
  | write bs =>
    simp only [perform, State.busWrite, State.afterAnswer_withRegs]
    exact State.checked_withRegs (s.busWrite bs) r regs _
  | poll w =>
    simp only [perform, State.busRead, State.afterAnswer_withRegs]
    exact State.polled_withRegs s.busRead r regs w _
  | drive pin l =>
    simp only [perform, State.busSet, State.afterAnswer_withRegs]
    rfl
  | sleep _ | pause _ | enter _ | store _ _ => rfl

end

theorem blockStep_withRegs (s : State) (regs : Regs) :
    blockStep { s with regs := regs } = { blockStep s with regs := regs } := by
  obtain ⟨hop, h⟩ | ⟨r, hop, ht, h⟩ | ⟨r, a, rest, hop, ht, h⟩ := blockStep_cases s <;> rw [h]
  · exact blockStep_idle hop
  · exact blockStep_finish hop ht
  · rw [← perform_withRegs]
    exact blockStep_act hop ht

theorem blockRun_withRegs (k : Nat) (s : State) (regs : Regs) :
    blockRun k { s with regs := regs } = { blockRun k s with regs := regs } := by
  induction k generalizing s with
  | zero => rfl
  | succ k ih => rw [blockRun_succ, blockStep_withRegs, ih, blockRun_succ]

/-! ### The statements -/

/-- Settles O48: a host access and a block reset make no event, and the block makes one only for an operation that holds
the bus. -/
theorem busEventsNeedOwnership : Obligations.BusEventsNeedOwnership := by
  intro s t hs h hne
  obtain ⟨-, rfl⟩ | ⟨rest, -, rfl⟩ | ⟨x, rest, -, hx⟩ | ⟨rest, -, rfl⟩ := step_cases h
  · exact blockStep_trace hs hne
  · exact blockStep_trace (s := { s with inputs := rest }) (hs.withInputs rest) hne
  · exact absurd (hostAccess_trace hx) hne
  · exact absurd rfl hne

/-- Settles O49: the host changes OWN by OPEN only, the block by the end of CLOSE only. -/
theorem onlyOpenAndCloseChangeOwn : Obligations.OnlyOpenAndCloseChangeOwn := by
  intro s t hs h hne
  obtain ⟨-, rfl⟩ | ⟨rest, -, rfl⟩ | ⟨x, rest, hin, hx⟩ | ⟨rest, hin, rfl⟩ := step_cases h
  · exact .inr (.inl (blockStep_own hs hne))
  · exact .inr (.inl (blockStep_own (hs.withInputs rest) hne))
  · obtain ⟨hown, hphase, hrun, hrun', loc, v, rfl, hl, hd⟩ := hostAccess_own hx hne
    exact .inl ⟨hown, hphase, hrun, hrun', loc, v, rest, hin, hl, hd⟩
  · exact .inr (.inr ⟨rfl, rest, hin⟩)

/-- Settles O52: the start latches the registers, and no transition of the block reads them. -/
theorem operationReadsOnlyItsLatch : Obligations.OperationReadsOnlyItsLatch := by
  refine ⟨fun i s t r hexec hop => ?_, fun s k regs u hin hrun => ?_⟩
  · obtain ⟨t', hexec', -, hstart⟩ := startingTouchesNoMemoryOrBus i s
    obtain rfl : t' = t := Host.Outcome.next.inj (hexec'.symm.trans hexec)
    exact (hstart r hop).2.2.2
  · obtain rfl : blockRun k s = u := Host.Outcome.next.inj ((core_run_block hin k).symm.trans hrun)
    exact core_run_of_blockRun hin (blockRun_withRegs k s regs)

/-- Settles O53: the block writes no register, and the host writes one by its own write only. -/
theorem operationsNeverWriteRegisters : Obligations.OperationsNeverWriteRegisters := by
  intro s t h hne
  obtain ⟨-, rfl⟩ | ⟨rest, -, rfl⟩ | ⟨x, rest, hin, hx⟩ | ⟨rest, hin, rfl⟩ := step_cases h
  · exact absurd (blockStep_regs s) hne
  · exact absurd (blockStep_regs _) hne
  · obtain ⟨hrun, q, loc, v, rfl, hl, hq, hregs⟩ := hostAccess_regs hx hne
    exact .inl ⟨hrun, q, loc, v, rest, hin, hl, hq, hregs⟩
  · exact .inr ⟨rest, hin⟩

/-- Settles O54: an act leaves the operation running and the results alone; with no act left the transition is the
finishing one. -/
theorem resultsChangeOnlyAtFinish : Obligations.ResultsChangeOnlyAtFinish := by
  intro s t r hin hop h
  obtain rfl : blockStep s = t := Host.Outcome.next.inj ((step_of_nil hin).symm.trans h)
  cases ht : r.todo with
  | nil =>
    rw [blockStep_finish hop ht]
    exact .inr ⟨rfl, rfl, rfl, rfl⟩
  | cons a rest =>
    rw [blockStep_act hop ht]
    obtain ⟨r', hr', -⟩ := perform_op { r with todo := rest } a s
    exact .inl ⟨running_of_op hr', perform_err .., perform_own .., perform_orient .., perform_outLen ..⟩

end Sys2Proof.Machine
end

section
/-! The STATUS word as a number, the reserved bits, the reset state, and the step that a CMD write takes. -/

namespace Sys2Proof.Machine

/-! ### STATUS -/

/-- Concatenation as arithmetic: the high part counts in units of the low part's range. -/
theorem toNat_append_eq_add {m n : Nat} (x : BitVec m) (y : BitVec n) : (x ++ y).toNat = 2 ^ n * x.toNat + y.toNat := by
  rw [BitVec.toNat_append, ← Nat.shiftLeft_add_eq_or_of_lt y.isLt, Nat.shiftLeft_eq, Nat.mul_comm]

/-- The places of STATUS's fields (R102). -/
theorem State.toNat_status (s : State) : s.status.toNat =
    s.running.toNat + 16 * s.err.code.toNat + 256 * s.phase.code.toNat + 2048 * s.own.toNat + 4096 * s.orient.toNat := by
  simp only [State.status, toNat_append_eq_add, BitVec.toNat_ofBool, BitVec.toNat_ofNat]
  omega

/-- Settles O15: the places of the fields, and the values of each field's codes. -/
theorem statusWordLayout : Obligations.StatusWordLayout := by
  intro s
  rw [State.toNat_status]
  congr 1
  · congr 1
    · congr 1
      · congr 1
        · cases h : s.op <;> simp [State.running, h]
        · cases s.err <;> rfl
      · cases s.phase <;> rfl
    · cases s.own <;> rfl

/-! ### Reserved bits -/

/-- The low `k` bits, widened again, are the value under a mask of `k` ones. -/
theorem setWidth_setWidth_eq_and (v : Word) {k : Nat} (hk : k ≤ 32) :
    (v.setWidth k).setWidth 32 = v &&& BitVec.ofNat 32 (2 ^ k - 1) := by
  have hmask : 2 ^ k - 1 < 2 ^ 32 := by
    have := Nat.pow_le_pow_right (n := 2) (by omega) hk
    omega
  have hlow : v.toNat % 2 ^ k < 2 ^ 32 := (Nat.mod_le ..).trans_lt v.isLt
  apply BitVec.eq_of_toNat_eq
  rw [BitVec.toNat_setWidth, BitVec.toNat_setWidth, BitVec.toNat_and, BitVec.toNat_ofNat, Nat.mod_eq_of_lt hmask,
    Nat.mod_eq_of_lt hlow, Nat.and_two_pow_sub_one_eq_mod]

/-- A write of a register other than CMD, with no operation running, stores it (R222). -/
theorem step_regWrite_idle {s : State} {loc : Loc} {r : RegName} {v : Word} {rest : List Input} (hop : s.op = none)
    (hin : s.inputs = .host (.regWrite loc 4 v) :: rest) (hl : Loc.hits s.cfg loc r.offset) (hr : r ≠ .cmd) :
    step s = .next { s with inputs := rest, regs := s.regs.write r v } := by
  rw [step_regWrite hin hl]
  exact (writeReg_idle (by exact hop) r v).trans (if_neg hr)

/-- Settles O8: each register stores the low bits of the value, and its read widens them with zeros. -/
theorem reservedBitsReadZero : Obligations.ReservedBitsReadZero := by
  intro s loc v rest hop hin
  refine ⟨fun hl => ?_, fun hl => ?_⟩
  · exact ⟨_, step_regWrite_idle (r := .opByte) hop hin hl nofun, rfl, setWidth_setWidth_eq_and v (k := 8) (by decide)⟩
  · exact ⟨_, step_regWrite_idle (r := .ctrl) hop hin hl nofun, rfl, setWidth_setWidth_eq_and v (k := 1) (by decide)⟩

/-! ### The reset state -/

/-- Settles O16: every register and every byte of the reset state by its name; no event has been made. -/
theorem resetLeavesSpecState : Obligations.ResetLeavesSpecState := by
  refine ⟨fun r => ?_, rfl, fun _ => rfl, fun _ => rfl⟩
  cases r <;> rfl

/-! ### The step of a CMD write -/

theorem decode_encode (i : Instr) : decode (encode i) = .ok i := by
  cases i <;> rfl

@[simp] theorem tableWord_toNat (w : Word) : tableWord 32 w.toNat = w := by
  simp [tableWord, Nat.mod_eq_of_lt w.isLt]

/-- A CMD word that decodes, written with no operation running, is its operation's meaning (R110). -/
theorem step_cmdWrite {s : State} {loc : Loc} {w : Word} {i : Instr} {rest : List Input}
    (hin : s.inputs = .host (.regWrite loc 4 w) :: rest) (hl : Loc.hits s.cfg loc 0) (hop : s.op = none)
    (hd : decode w = .ok i) : step s = exec i { s with inputs := rest } := by
  rw [step_regWrite (r := .cmd) hin hl]
  refine ((writeReg_idle (by exact hop) .cmd w).trans (if_pos rfl)).trans ?_
  simp only [writeCmd, hd]

/-- Settles O5: by the kinds of input. -/
theorem stepRunsDecodedInstruction : Obligations.StepRunsDecodedInstruction :=
  ⟨fun _ _ _ _ _ hin hl hop hd => step_cmdWrite hin hl hop hd, fun _ hin => step_of_nil hin, fun _ _ hin => step_tick hin⟩

/-- Settles O6: the placed word is a CMD write of the operation's encoding to an idle block. -/
theorem placedWordRunsNext : Obligations.PlacedWordRunsNext := by
  intro s i
  have hin : (s.withFetchWord 32 (encode i).toNat).inputs = .host (.regWrite (.offset 0) 4 (encode i)) :: s.inputs := by
    simp [State.withFetchWord]
  exact step_cmdWrite hin (.inl rfl) rfl (decode_encode i)

end Sys2Proof.Machine
end

section
/-! The host's accesses: the register window (R220 to R222) and buffer memory (R201, R231). -/

namespace Sys2Proof.Machine

/-! ### The places of the window -/

/-- A window access has one offset, however it is named. -/
theorem Loc.hits_unique {p : Params} {loc : Loc} {m n : Nat} (hm : Loc.hits p loc m) (hn : Loc.hits p loc n) :
    m = n := by
  rcases hm with rfl | ⟨a, rfl, ha⟩ <;> rcases hn with h | ⟨b, h, hb⟩ <;> cases h
  · rfl
  · omega

theorem RegName.offset_mem_window (r : RegName) : r.offset % 4 = 0 ∧ r.offset ≤ 0x40 := by
  cases r <;> decide

/-- Every aligned offset of the window is a register's (R101). -/
theorem RegName.exists_offset {n : Nat} (h4 : n % 4 = 0) (hn : n ≤ 0x40) : ∃ r : RegName, r.offset = n := by
  have hwords : ∀ k : Fin 17, ∃ r ∈ RegName.all, r.offset = 4 * k.val := by decide
  obtain ⟨r, -, hr⟩ := hwords ⟨n / 4, by omega⟩
  exact ⟨r, hr.trans (by dsimp only; omega)⟩

/-- An access that is not a whole word at the place of a register names none (R221). -/
theorem registerAt_odd {p : Params} {loc : Loc} {n size : Nat} (hl : Loc.hits p loc n)
    (hodd : size ≠ 4 ∨ n % 4 ≠ 0 ∨ 0x40 < n) : ∃ e, registerAt p loc size = .error e := by
  cases hreg : registerAt p loc size with
  | error e => exact ⟨e, rfl⟩
  | ok r =>
    obtain ⟨hsize, hr⟩ := registerAt_ok hreg
    obtain ⟨h4, hle⟩ := r.offset_mem_window
    obtain rfl := Loc.hits_unique hl hr
    omega

theorem registerAt_below_base {p : Params} {a : Word} (h : a.toNat < p.base.toNat) (size : Nat) :
    registerAt p (.address a) size = .error (.outsideWindow a) :=
  if_pos h

/-- A window access that names no register is refused, a read and a write alike. -/
theorem step_window_refused {s : State} {loc : Loc} {size : Nat} {v : Word} {rest : List Input} {e : Refusal}
    (hreg : registerAt s.cfg loc size = .error e)
    (hin : s.inputs = .host (.regRead loc size) :: rest ∨ s.inputs = .host (.regWrite loc size v) :: rest) :
    step s = .refused e := by
  rcases hin with hin | hin <;> rw [step_of_cons hin] <;> simp only [takeInput, hostAccess, hreg]

/-- Settles O11: an access is a register's just when it is a whole word at that register's place. -/
theorem oddWindowAccessRefused : Obligations.OddWindowAccessRefused := by
  refine ⟨fun s loc n size v rest hl hodd => ?_, fun s loc n rest hl h4 hn hin => ?_, fun s a size v rest ha => ?_⟩
  · obtain ⟨e, he⟩ := registerAt_odd hl hodd
    exact ⟨fun hin => ⟨e, step_window_refused (v := v) he (.inl hin)⟩,
      fun hin => ⟨e, step_window_refused he (.inr hin)⟩⟩
  · obtain ⟨r, rfl⟩ := RegName.exists_offset h4 hn
    exact ⟨_, step_regRead hin hl⟩
  · have he := registerAt_below_base ha size
    exact ⟨fun hin => step_window_refused (v := v) he (.inl hin), fun hin => step_window_refused he (.inr hin)⟩

/-! ### Reading and writing a register -/

/-- A write of one register is not seen in another (R222). -/
theorem State.readReg_write_other (s : State) {r q : RegName} (v : Word) (h : q ≠ r) :
    State.readReg { s with regs := s.regs.write r v } q = s.readReg q := by
  cases r <;> cases q <;> trivial

/-- Settles O9: the write stores one register, and a read of it gives the bits stored. -/
theorem hostWriteStoresOneRegister : Obligations.HostWriteStoresOneRegister := by
  intro s r loc v rest hin hl hop hr
  refine ⟨_, step_regWrite_idle hop hin hl hr, rfl, fun q hq => ?_, ?_⟩
  · exact State.readReg_write_other { s with inputs := rest } v hq
  · cases r
    case cmd => exact absurd rfl hr
    case opByte => exact setWidth_setWidth_eq_and v (k := 8) (by decide)
    case ctrl => exact setWidth_setWidth_eq_and v (k := 1) (by decide)
    all_goals rfl

/-- Settles O10: a read of a register records its reply. -/
theorem hostReadHasNoEffect : Obligations.HostReadHasNoEffect :=
  fun _ _ _ _ hin hl => ⟨step_regRead hin hl, rfl⟩

/-! ### Bytes of memory -/

theorem State.byteAt_setByte_same {s : State} (h : Memory.wf s.fill s.mem = true) (a : Nat) (b : Byte) :
    (s.setByte a b).byteAt a = b :=
  Memory.read_write_same (Memory.wf_sorted h)

theorem State.byteAt_setByte_other (s : State) {a k : Nat} (b : Byte) (h : k ≠ a) :
    (s.setByte a b).byteAt k = s.byteAt k :=
  Memory.read_write_other h

section
variable {s : State} {a : Word} {b : Byte} {rest : List Input}

theorem step_mem_fault (ha : s.cfg.memSize.val ≤ a.toNat)
    (hin : s.inputs = .host (.memWrite a b) :: rest ∨ s.inputs = .host (.memRead a) :: rest) :
    step s = .fault (.noSuchByte a) := by
  rcases hin with hin | hin <;> rw [step_of_cons hin] <;> exact if_pos ha

theorem step_memRead_unlocked (hin : s.inputs = .host (.memRead a) :: rest) (ha : a.toNat < s.cfg.memSize.val)
    (hl : s.readLocked a.toNat = false) :
    step s = .next { s with inputs := rest, replies := s.replies ++ [.mem a (s.byteAt a.toNat)] } := by
  rw [step_of_cons hin]
  exact (if_neg (Nat.not_le.2 ha)).trans (if_neg (Bool.eq_false_iff.1 hl))

theorem step_memWrite_unlocked (hin : s.inputs = .host (.memWrite a b) :: rest) (ha : a.toNat < s.cfg.memSize.val)
    (hl : s.writeLocked a.toNat = false) : step s = .next (State.setByte { s with inputs := rest } a.toNat b) := by
  rw [step_of_cons hin]
  exact (if_neg (Nat.not_le.2 ha)).trans (if_neg (Bool.eq_false_iff.1 hl))

theorem readLocked_idle (hop : s.op = none) (k : Nat) : s.readLocked k = false := by
  simp [State.readLocked, hop]

theorem writeLocked_idle (hop : s.op = none) (k : Nat) : s.writeLocked k = false := by
  simp [State.writeLocked, hop]

/-- The bytes the host may not write are those of the running operation's ranges (R231). -/
theorem writeLocked_iff {r : Running} (hop : s.op = some r) {k : Nat} : s.writeLocked k = true ↔
    ∃ q ∈ sourceRanges r.op r.latch ++ destRanges r.op r.latch, q.1 ≤ k ∧ k < q.1 + q.2 := by
  simp only [State.writeLocked, hop, List.any_eq_true, inRange_iff]

end

/-- Settles O14: the test of MEM_SIZE comes first; an idle block locks no byte. -/
theorem hostMemoryAccess : Obligations.HostMemoryAccess := by
  intro s a b rest
  refine ⟨fun ha => ?_, fun ha hop hin => ?_, fun ha hop hwf hin => ?_⟩
  · exact ⟨fun hin => step_mem_fault ha (.inl hin), fun hin => step_mem_fault (b := b) ha (.inr hin)⟩
  · exact step_memRead_unlocked hin ha (readLocked_idle hop _)
  · refine ⟨_, step_memWrite_unlocked hin ha (writeLocked_idle hop _), rfl, ?_, Memory.wf_write hwf, fun k hk => ?_⟩
    · exact State.byteAt_setByte_same (s := { s with inputs := rest }) hwf ..
    · exact State.byteAt_setByte_other { s with inputs := rest } b hk

/-- Settles O56: with an operation running the host is answered with a reply or writes a byte that is not locked. -/
theorem hostCannotDisturbOperation : Obligations.HostCannotDisturbOperation := by
  intro s t r x rest hin hop h
  rw [step_of_cons hin] at h
  have hrun : State.running { s with inputs := rest } = true := running_of_op hop
  obtain ⟨y, rfl⟩ | ⟨_, _, _, -, -, -, hidle, -⟩ | ⟨_, _, -, -, hidle, -⟩ | ⟨a, b, -, -, hlock, rfl⟩ :=
    hostAccess_cases h
  · exact ⟨rfl, fun _ _ _ _ _ => rfl⟩
  · exact absurd hrun (Bool.eq_false_iff.1 hidle)
  · exact absurd hrun (Bool.eq_false_iff.1 hidle)
  · refine ⟨rfl, fun q hq k hlo hhi => ?_⟩
    have hne : k ≠ a.toNat := by
      rintro rfl
      exact Bool.eq_false_iff.1 hlock ((writeLocked_iff hop).2 ⟨q, hq, hlo, hhi⟩)
    exact State.byteAt_setByte_other { s with inputs := rest } b hne

end Sys2Proof.Machine
end

section
/-! Where the block may write memory: the destination of ENCODE and ASSEMBLE only (R205, R401, R451). -/

namespace Sys2Proof.Machine
variable {s : State} {r : Running}

/-- An address of the running operation's destination. -/
def Running.writes (r : Running) (k : Nat) : Prop :=
  (destRanges r.op r.latch).any (inRange k) = true

theorem Running.writes_iff {k : Nat} : r.writes k ↔ ∃ q ∈ destRanges r.op r.latch, q.1 ≤ k ∧ k < q.1 + q.2 := by
  simp only [Running.writes, List.any_eq_true, inRange_iff]

/-- Only ENCODE and ASSEMBLE have a destination. -/
theorem Running.op_of_writes {k : Nat} (h : r.writes k) : r.op = .encode ∨ r.op = .assemble := by
  obtain ⟨q, hq, -⟩ := Running.writes_iff.1 h
  cases hop : r.op <;> simp_all [destRanges]

/-- The block writes no byte, or one byte of the running operation's destination. -/
theorem blockStep_mem (hs : Legal s) (hop : s.op = some r) :
    (blockStep s).mem = s.mem ∨ ∃ k b, r.writes k ∧ (blockStep s).mem = Memory.write s.fill s.mem k b := by
  have hr := hs.opLegal r hop
  cases ht : r.todo with
  | nil =>
    rw [blockStep_finish hop ht]
    cases hst : r.fin.store with
    | none => exact .inl (State.finish_mem_none s hst)
    | some kb => exact .inr ⟨kb.1, kb.2, hr.endStore _ _ hst, State.finish_mem_some s hst⟩
  | cons a rest =>
    rw [blockStep_act hop ht, perform_mem]
    cases a with
    | store k b => exact .inr ⟨k, b, hr.actsFit (.store k b) (by simp [ht]), rfl⟩
    | set _ _ | drive _ _ | write _ | sleep _ | poll _ | pause _ | enter _ => exact .inl rfl

/-- ENCODE and ASSEMBLE do nothing but store until they finish. -/
theorem store_of_actLegal {a : Act} (hop : r.op = .encode ∨ r.op = .assemble) (ha : actLegal r a = true) :
    ∃ k b, a = .store k b := by
  rcases hop with hop | hop <;> cases a <;> simp_all [actLegal, usesPanel, waits]

/-- ENCODE and ASSEMBLE end without a word on the session (R401, R451). -/
theorem OpLegal.end_keeps_session (h : OpLegal s r) (hop : r.op = .encode ∨ r.op = .assemble) :
    r.fin.phase = none ∧ r.fin.own = none := by
  obtain ⟨-, hphase⟩ | ⟨hu, -, -⟩ := endLegal_cases h.endFits
  · rw [hphase, h.endOwn]
    rcases hop with hop | hop <;> simp [hop, donePhase]
  · rcases hop with hop | hop <;> simp [hop, usesPanel] at hu

/-- ENCODE and ASSEMBLE leave the BusLine and the session alone. -/
theorem blockStep_pixels_frame (hs : Legal s) (hop : s.op = some r) (hpix : r.op = .encode ∨ r.op = .assemble) :
    (blockStep s).trace = s.trace ∧ (blockStep s).answers = s.answers ∧ (blockStep s).draws = s.draws ∧
      (blockStep s).phase = s.phase ∧ (blockStep s).own = s.own := by
  have hr := hs.opLegal r hop
  cases ht : r.todo with
  | nil =>
    obtain ⟨hphase, hown⟩ := hr.end_keeps_session hpix
    rw [blockStep_finish hop ht]
    exact ⟨rfl, rfl, rfl, by simp [hphase], by simp [hown]⟩
  | cons a rest =>
    obtain ⟨k, b, rfl⟩ := store_of_actLegal hpix (hr.actsFit a (by simp [ht]))
    rw [blockStep_act hop ht]
    exact ⟨rfl, rfl, rfl, rfl, rfl⟩

/-- The other operations leave OUT_LEN and ORIENT alone (R103). -/
theorem blockStep_panel_results (hs : Legal s) (hop : s.op = some r) (hpix : ¬ (r.op = .encode ∨ r.op = .assemble)) :
    (blockStep s).outLen = s.outLen ∧ (blockStep s).orient = s.orient := by
  have hr := hs.opLegal r hop
  cases ht : r.todo with
  | nil =>
    have hout : r.fin.outLen = none := by
      by_contra h
      exact hpix (hr.endOutLen h)
    have horient : r.fin.orient = none := by
      by_contra h
      exact hpix (.inl (hr.endOrient h))
    rw [blockStep_finish hop ht]
    simp [hout, horient]
  | cons a rest =>
    rw [blockStep_act hop ht]
    exact ⟨perform_outLen .., perform_orient ..⟩

/-- Settles O55: a byte written lies in the destination, which only ENCODE and ASSEMBLE have. -/
theorem blockWritesOnlyItsDestination : Obligations.BlockWritesOnlyItsDestination := by
  intro s t r hs hin hop h
  obtain rfl : blockStep s = t := Host.Outcome.next.inj ((step_of_nil hin).symm.trans h)
  have hmem := blockStep_mem hs hop
  refine ⟨fun hpix => ?_, fun henc hasm => ?_⟩
  · obtain ⟨htrace, hanswers, hdraws, hphase, hown⟩ := blockStep_pixels_frame hs hop hpix
    refine ⟨htrace, hanswers, hdraws, hphase, hown, fun a hout => ?_⟩
    obtain hsame | ⟨k, b, hk, hwrite⟩ := hmem
    · exact State.byteAt_eq_of_mem (blockStep_fill s) hsame a
    · obtain ⟨q, hq, hlo, hhi⟩ := Running.writes_iff.1 hk
      have hne : a ≠ k := by
        have := hout q hq
        omega
      rw [State.byteAt, hwrite, blockStep_fill]
      exact Memory.read_write_other hne
  · have hpix : ¬ (r.op = .encode ∨ r.op = .assemble) := fun h => h.elim henc hasm
    obtain ⟨hout, horient⟩ := blockStep_panel_results hs hop hpix
    obtain hsame | ⟨k, b, hk, -⟩ := hmem
    · exact ⟨hsame, blockStep_fill s, hout, horient⟩
    · exact absurd (Running.op_of_writes hk) hpix

end Sys2Proof.Machine
end

section
/-! R212: what a run does depends on no earlier event, reply, ERR, ORIENT or OUT_LEN. Every operation of the machine,
from a state and from the same state with other results, does the same but for the results. -/

namespace Sys2Proof.Machine

/-! ### A state with other results -/

/-- What a run leaves for the host to look at and never reads itself: the events made, the values returned on reads,
ERR, ORIENT and OUT_LEN. -/
structure Results where
  trace : List BusEvent
  replies : List Reply
  err : ErrCode
  orient : Level
  outLen : Word

/-- The state with other results. -/
def State.withResults (s : State) (ρ : Results) : State :=
  { s with trace := ρ.trace, replies := ρ.replies, err := ρ.err, orient := ρ.orient, outLen := ρ.outLen }

section
variable (s : State) (ρ : Results)

@[simp] theorem State.withResults_cfg : (s.withResults ρ).cfg = s.cfg := rfl
@[simp] theorem State.withResults_regs : (s.withResults ρ).regs = s.regs := rfl
@[simp] theorem State.withResults_op : (s.withResults ρ).op = s.op := rfl
@[simp] theorem State.withResults_answers : (s.withResults ρ).answers = s.answers := rfl
@[simp] theorem State.withResults_inputs : (s.withResults ρ).inputs = s.inputs := rfl
@[simp] theorem State.withResults_nextAnswer : (s.withResults ρ).nextAnswer = s.nextAnswer := rfl

end

/-- The results after one more event. -/
def Results.emit (ρ : Results) (e : BusEvent) : Results :=
  { ρ with trace := ρ.trace ++ [e] }

/-- `o`, reached from `s`, and `o'`, reached from `s` with the results `ρ`, go alike: where `o` goes on, `o'` goes on to
the same state but for its results, and with the same new events. -/
def GoAlike (s : State) (ρ : Results) (o o' : Out) : Prop :=
  ∀ t, o = .next t → ∃ ρ' new, o' = .next (t.withResults ρ') ∧ t.trace = s.trace ++ new ∧ ρ'.trace = ρ.trace ++ new

section
variable {s : State} {ρ : Results}

theorem GoAlike.next {t : State} {ρ' : Results} {new : List BusEvent} (ht : t.trace = s.trace ++ new)
    (hρ : ρ'.trace = ρ.trace ++ new) : GoAlike s ρ (.next t) (.next (t.withResults ρ')) := by
  rintro _ ⟨⟩
  exact ⟨ρ', new, rfl, ht, hρ⟩

/-- Without an event. -/
theorem GoAlike.quiet {t : State} {ρ' : Results} (ht : t.trace = s.trace) (hρ : ρ'.trace = ρ.trace) :
    GoAlike s ρ (.next t) (.next (t.withResults ρ')) :=
  .next (new := []) (by simp [ht]) (by simp [hρ])

theorem GoAlike.refused {e : Refusal} {o' : Out} : GoAlike s ρ (.refused e) o' :=
  fun _ h => by cases h

theorem GoAlike.fault {e : Fault} {o' : Out} : GoAlike s ρ (.fault e) o' :=
  fun _ h => by cases h

theorem GoAlike.ite {c : Prop} [Decidable c] {o o' p p' : Out} (ho : GoAlike s ρ o o') (hp : GoAlike s ρ p p') :
    GoAlike s ρ (if c then o else p) (if c then o' else p') := by
  split
  · exact ho
  · exact hp

theorem GoAlike.raise {e : ErrCode} : GoAlike s ρ (raise e s) (raise e (s.withResults ρ)) :=
  .quiet (ρ' := { ρ with err := e }) rfl rfl

/-- A start, in the phase it writes. -/
theorem GoAlike.launch {i : Instr} {acts : List Act} {fin : Finish} {u : State} (hu : u.trace = s.trace) :
    GoAlike s ρ (launch i acts fin u) (launch i acts fin (u.withResults ρ)) :=
  .quiet hu rfl

end

/-! ### Starting an operation -/

theorem exec_alike (i : Instr) (s : State) (ρ : Results) : GoAlike s ρ (exec i s) (exec i (s.withResults ρ)) := by
  cases i with
  | encode =>
    simp only [exec, execEncode, State.withResults_regs]
    cases orientation s.regs with
    | none => exact .raise
    | some portrait => exact .ite (.ite .raise (.launch rfl)) .raise
  | assemble => exact .ite .raise (.ite .raise (.ite .raise (.ite .raise (.ite .raise (.ite .raise (.launch rfl))))))
  | reset | sendCommand | waitReady | init => exact .ite (.launch rfl) .raise
  | sendData => exact .ite (.ite (.launch rfl) .raise) .raise
  | openSession => exact .ite .raise (.quiet (ρ' := { ρ with err := .ok }) rfl rfl)
  | clear | sleep => exact .ite (.launch rfl) .raise
  | display => exact .ite (.ite (.ite (.launch rfl) .raise) .raise) .raise
  | close => exact .launch rfl

/-! ### A host access and a block reset -/

theorem hostAccess_alike (x : Access) (s : State) (ρ : Results) :
    GoAlike s ρ (hostAccess x s) (hostAccess x (s.withResults ρ)) := by
  cases x with
  | regRead loc size =>
    simp only [hostAccess, State.withResults_cfg]
    cases registerAt s.cfg loc size with
    | error e => exact .refused
    | ok q => exact .quiet (ρ' := { ρ with replies := ρ.replies ++ [.reg q ((s.withResults ρ).readReg q)] }) rfl rfl
  | regWrite loc size v =>
    simp only [hostAccess, State.withResults_cfg]
    cases registerAt s.cfg loc size with
    | error e => exact .refused
    | ok q =>
      refine .ite .refused ?_
      cases q with
      | cmd =>
        simp only [writeCmd]
        cases decode v with
        | error e => exact .raise
        | ok i => exact exec_alike i s ρ
      | _ => exact .quiet rfl rfl
  | memRead a =>
    exact .ite .fault (.ite .refused
      (.quiet (ρ' := { ρ with replies := ρ.replies ++ [.mem a (s.byteAt a.toNat)] }) rfl rfl))
  | memWrite a b => exact .ite .fault (.ite .refused (.quiet rfl rfl))

theorem blockReset_withResults (s : State) (ρ : Results) : blockReset (s.withResults ρ) =
    (blockReset s).withResults { ρ with err := .ok, orient := 0, outLen := 0 } :=
  rfl

/-! ### A transition of the block -/

section
variable (s : State) (r : Running) (ρ : Results)

theorem State.afterAnswer_withResults : (s.withResults ρ).afterAnswer = s.afterAnswer.withResults ρ := by
  simp only [State.afterAnswer, State.withResults_answers]
  cases s.answers <;> rfl

theorem State.emit_withResults (e : BusEvent) : (s.withResults ρ).emit e = (s.emit e).withResults (ρ.emit e) :=
  rfl

@[simp] theorem State.goOn_withResults : (s.withResults ρ).goOn r = (s.goOn r).withResults ρ :=
  rfl

@[simp] theorem State.abort_withResults (e : ErrCode) : (s.withResults ρ).abort r e = (s.abort r e).withResults ρ :=
  rfl

theorem State.checked_withResults (ans : BusAnswer) :
    (s.withResults ρ).checked r ans = (s.checked r ans).withResults ρ := by
  unfold State.checked
  split <;> rfl

theorem State.polled_withResults (w : Wait) (ans : BusAnswer) :
    (s.withResults ρ).polled r w ans = (s.polled r w ans).withResults ρ := by
  cases ans with
  | fail _ => rfl
  | ok l =>
    by_cases hl : l = s.cfg.busyLevel
    · cases ht : w.timeout with
      | none => simp [State.polled, hl, ht]
      | some t => by_cases he : t ≤ w.elapsed <;> simp [State.polled, hl, ht, he]
    · simp [State.polled, hl]

theorem perform_alike (a : Act) :
    GoAlike s ρ (.next (perform r a s)) (.next (perform r a (s.withResults ρ))) := by
  cases a with
  | set pin l =>
    simp only [perform, State.busSet, State.withResults_nextAnswer, State.afterAnswer_withResults,
      State.emit_withResults, State.checked_withResults]
    exact .next (by simp) rfl
  | write bs =>
    simp only [perform, State.busWrite, State.withResults_nextAnswer, State.afterAnswer_withResults,
      State.emit_withResults, State.checked_withResults]
    exact .next (by simp) rfl
  | poll w =>
    simp only [perform, State.busRead, State.withResults_nextAnswer, State.afterAnswer_withResults,
      State.emit_withResults, State.polled_withResults]
    exact .next (by simp) rfl
  | drive pin l =>
    simp only [perform, State.busSet, State.withResults_nextAnswer, State.afterAnswer_withResults,
      State.emit_withResults]
    exact .next (ρ' := ρ.emit _) (by simp) rfl
  | sleep ms => exact .next (ρ' := ρ.emit (.sleep ms)) rfl rfl
  | pause w => exact .next (ρ' := ρ.emit (.sleep w.poll)) rfl rfl
  | enter _ | store _ _ => exact .quiet rfl rfl

theorem State.finish_withResults (f : Finish) : (s.withResults ρ).finish f = (s.finish f).withResults
    { ρ with err := f.err, orient := f.orient.getD ρ.orient, outLen := f.outLen.getD ρ.outLen } :=
  rfl

theorem blockStep_alike : GoAlike s ρ (.next (blockStep s)) (.next (blockStep (s.withResults ρ))) := by
  obtain ⟨hidle, h⟩ | ⟨r, hr, ht, h⟩ | ⟨r, a, rest, hr, ht, h⟩ := blockStep_cases s <;> rw [h]
  · rw [blockStep_idle (s := s.withResults ρ) hidle]
    exact .quiet rfl rfl
  · rw [blockStep_finish (s := s.withResults ρ) hr ht, State.finish_withResults]
    exact .quiet rfl rfl
  · rw [blockStep_act (s := s.withResults ρ) hr ht]
    exact perform_alike s _ ρ a

end

/-! ### Steps and runs -/

theorem step_alike (s : State) (ρ : Results) : GoAlike s ρ (step s) (step (s.withResults ρ)) := by
  cases hin : s.inputs with
  | nil =>
    rw [step_of_nil hin, step_of_nil (s := s.withResults ρ) hin]
    exact blockStep_alike s ρ
  | cons i rest =>
    rw [step_of_cons hin, step_of_cons (s := s.withResults ρ) hin]
    cases i with
    | host x => exact hostAccess_alike x { s with inputs := rest } ρ
    | tick => exact blockStep_alike { s with inputs := rest } ρ
    | blockReset =>
      show GoAlike s ρ (.next (blockReset { s with inputs := rest }))
        (.next (blockReset (State.withResults { s with inputs := rest } ρ)))
      rw [blockReset_withResults]
      exact .quiet rfl rfl

/-- A run of `k + 1` steps is a step and a run of `k` from where it leads. -/
theorem core_run_succ {k : Nat} {s t : State} :
    Sys2Proof.core.run (k + 1) s = .next t ↔ ∃ u, step s = .next u ∧ Sys2Proof.core.run k u = .next t := by
  have hstep : Sys2Proof.core.step s = step s := rfl
  simp only [Host.Core.run, hstep]
  cases step s with
  | next u => simp
  | fault e => simp
  | refused e => simp

theorem run_alike (k : Nat) (s : State) (ρ : Results) :
    GoAlike s ρ (Sys2Proof.core.run k s) (Sys2Proof.core.run k (s.withResults ρ)) := by
  induction k generalizing s ρ with
  | zero => exact .quiet rfl rfl
  | succ k ih =>
    intro t h
    obtain ⟨u, hstep, hrun⟩ := core_run_succ.1 h
    obtain ⟨ρ₁, new₁, hstep', hu, hρ₁⟩ := step_alike s ρ u hstep
    obtain ⟨ρ₂, new₂, hrun', ht, hρ₂⟩ := ih u ρ₁ t hrun
    exact ⟨ρ₂, new₁ ++ new₂, core_run_succ.2 ⟨_, hstep', hrun'⟩, by rw [ht, hu, List.append_assoc],
      by rw [hρ₂, hρ₁, List.append_assoc]⟩

/-- Settles O57: by induction on the number of steps, each of which does the same whatever the results. -/
theorem eventsIgnoreResults : Obligations.EventsIgnoreResults := by
  intro k s t tr rp e o l h
  obtain ⟨ρ, new, hrun, ht, hρ⟩ := run_alike k s ⟨tr, rp, e, o, l⟩ t h
  exact ⟨t.withResults ρ, new, hrun, ht, hρ, rfl, rfl, rfl, rfl, rfl, rfl, rfl, rfl⟩

end Sys2Proof.Machine
end

section
/-! The opcode map (R302, R303): decoding is the inverse of the encoder, and what it refuses. -/

namespace Sys2Proof.Machine

/-- Every row compares all 32 bits, with the word of its operation. -/
theorem opcodeMap_rows : ∀ r ∈ opcodeMap, r.mask = BitVec.allOnes 32 ∧ r.pattern = encode r.instr := by
  decide

/-- A word decodes to an operation just when it is the operation's word. -/
theorem decode_eq_ok_iff {w : Word} {i : Instr} : decode w = .ok i ↔ encode i = w := by
  refine ⟨fun h => ?_, fun h => h ▸ decode_encode i⟩
  unfold decode at h
  split at h
  next r hr =>
    obtain ⟨hmask, hpattern⟩ := opcodeMap_rows r (List.mem_of_find?_eq_some hr)
    have hhits : r.hits w = true := List.find?_some (p := (OpcodeRow.hits · w)) hr
    cases h
    rw [← hpattern, ← beq_iff_eq.1 hhits, hmask, BitVec.and_allOnes]
  next => split at h <;> cases h

/-- Every operation's word has its upper bits zero and an OP that is not reserved (R301, R303). -/
theorem encode_legal (i : Instr) : (encode i).toNat / 16 = 0 ∧
    ∀ op ∈ [0, 7, 14, 15], (encode i).toNat % 16 ≠ op := by
  cases i <;> decide

/-- A word that decodes to nothing, written to CMD with no operation running, sets ERR and nothing else (R303). -/
theorem step_cmdWrite_illegal {s : State} {loc : Loc} {w : Word} {rest : List Input}
    (hin : s.inputs = .host (.regWrite loc 4 w) :: rest) (hl : Loc.hits s.cfg loc 0) (hop : s.op = none)
    (hd : ∀ i, decode w ≠ .ok i) : step s = .next { s with inputs := rest, err := .illegalOp } := by
  rw [step_regWrite (r := .cmd) hin hl, writeReg_idle (by exact hop), if_pos rfl, writeCmd]
  split
  next i hi => exact absurd hi (hd i)
  next => rw [raise_eq, ← hop]

/-- Settles O1: five words are encodings, and the other two hit no row of the map. -/
theorem specWordsDecode : Obligations.SpecWordsDecode :=
  ⟨decode_encode .encode, decode_encode .assemble, decode_encode .sendCommand, decode_encode .openSession,
    decode_encode .close, rfl, rfl⟩

/-- Settles O3: the round trip, and the inverse. -/
theorem decodeEncodeRoundTrip : Obligations.DecodeEncodeRoundTrip :=
  ⟨fun i _ => decode_encode i, fun _ _ h => decode_eq_ok_iff.1 h⟩

/-- Settles O2: the word is the operation's encoding, and the rows are the encodings as numbers. -/
theorem decodeIsTheOpcodeMap : Obligations.DecodeIsTheOpcodeMap := by
  intro w i
  have hw : encode i = w ↔ w.toNat = (encode i).toNat := by rw [BitVec.toNat_inj, eq_comm]
  rw [decode_eq_ok_iff, hw]
  cases i <;> simp [encode]

/-- Settles O4: no operation's word has an OP that is reserved or upper bits that are not zero. -/
theorem illegalWordOnlySetsErr : Obligations.IllegalWordOnlySetsErr := by
  intro s loc w rest hin hl hop hw
  refine step_cmdWrite_illegal hin hl hop fun i hi => ?_
  obtain ⟨hupper, hselector⟩ := encode_legal i
  rw [decode_eq_ok_iff.1 hi] at hupper hselector
  obtain h | h | h | h | h := hw
  · exact h hupper
  all_goals exact hselector _ (by decide) h

end Sys2Proof.Machine
end

section
/-! ASSEMBLE from start to end (R315 to R319, R450, R456 to R458). -/

namespace Sys2Proof.Machine

/-- A code bit of the pixel data: stored row `j` is image row `h - 1 - j` (R318, R319). -/
theorem bitAt_pixelData_code {w h bpp j x b : Nat} {codes : List Byte} (hc : codes.length = w * h) (hj : j < h)
    (hx : x < w) (hb : b < bpp) : bitAt (pixelData w h bpp codes) (8 * rowBytes w bpp * j + (x * bpp + b)) =
      (codes.getD ((h - 1 - j) * w + x) 0).getLsbD (bpp - 1 - b) := by
  have hq : x * bpp + b < 8 * rowBytes w bpp := by
    calc x * bpp + b < (x + 1) * bpp := by rw [Nat.add_one_mul]; omega
      _ ≤ w * bpp := Nat.mul_le_mul_right bpp hx
      _ ≤ 8 * rowBytes w bpp := rowBits_le w bpp
  rw [pixelData, bitAt_rows (fun _ hi => length_storedRow (length_rowCodes hc hi)) hj hq,
    bitAt_storedRow_code (length_rowCodes hc hj) hx hb]
  simp only [List.getD_eq_getElem?_getD, List.getElem?_take_of_lt hx, List.getElem?_drop]

/-- A pad bit of the pixel data is 1 (R318). -/
theorem bitAt_pixelData_pad {w h bpp j q : Nat} {codes : List Byte} (hc : codes.length = w * h) (hj : j < h)
    (hq : w * bpp ≤ q) (hq' : q < 8 * rowBytes w bpp) :
    bitAt (pixelData w h bpp codes) (8 * rowBytes w bpp * j + q) = true := by
  rw [pixelData, bitAt_rows (fun _ hi => length_storedRow (length_rowCodes hc hi)) hj hq',
    bitAt_storedRow_pad (length_rowCodes hc hj) hq hq']

theorem State.getD_bytesAt {s : State} {a n i : Nat} (h : i < n) : (s.bytesAt a n).getD i 0 = s.byteAt (a + i) := by
  have hi : i < (s.bytesAt a n).length := by rwa [State.length_bytesAt]
  rw [List.getD_eq_getElem _ _ hi, State.getElem_bytesAt]

/-- A range that reads back as two lists in a row: each part read back. -/
theorem State.bytesAt_split {u : State} {a : Nat} {front back : List Byte}
    (h : u.bytesAt a (front ++ back).length = front ++ back) :
    u.bytesAt a front.length = front ∧ u.bytesAt (a + front.length) back.length = back := by
  rw [List.length_append, State.bytesAt_append] at h
  exact List.append_inj h (by rw [State.length_bytesAt])

/-- An operation that only writes memory runs to its finishing transition. -/
theorem run_launched_stores {s : State} {i : Instr} {a : Nat} {bs : List Byte} {fin : Finish} (hin : s.inputs = [])
    (hf : fin.store = lastStore a bs) :
    Sys2Proof.core.run ((storeActs a bs).length + 1) { s with op := some ⟨i, s.regs, storeActs a bs, fin⟩ } =
      .next { s.finish { fin with store := none } with mem := Memory.writeList s.fill s.mem a bs } := by
  refine core_run_of_blockRun hin ?_
  rw [blockRun_stores (bs := bs) rfl rfl hf]
  rfl

/-- ASSEMBLE's finishing transition. -/
def State.assembleEnd (s : State) : Finish where
  err := .ok
  outLen := some (BitVec.ofNat 32 s.regs.containerSize)
  store := lastStore s.regs.dst.toNat (container s)

/-- The state ASSEMBLE ends in: the container from DST on, ERR and OUT_LEN. -/
def State.assembled (s : State) : State :=
  { s with
    mem := Memory.writeList s.fill s.mem s.regs.dst.toNat (container s)
    op := none
    err := .ok
    outLen := BitVec.ofNat 32 s.regs.containerSize }

section
variable {s : State}

theorem assembled_mem : s.assembled.mem = Memory.writeList s.fill s.mem s.regs.dst.toNat (container s) := by
  rw [State.assembled]

theorem assembled_fill : s.assembled.fill = s.fill := rfl

theorem assembled_frame : s.assembled = { s with
    mem := s.assembled.mem
    op := none
    err := .ok
    outLen := BitVec.ofNat 32 s.regs.containerSize } := by
  rw [assembled_mem, State.assembled]

/-- ASSEMBLE with every check passed starts the container (R450). -/
theorem execAssemble_accepted (hbpp : legalBpp s.regs.bpp = true)
    (hn : s.regs.len.toNat = s.regs.imgW.toNat * s.regs.imgH.toNat) (htotal : s.regs.containerSize ≤ maxTotal)
    (hsrc : validRange s.cfg.memSize.val s.regs.srcRange = true)
    (hdst : validRange s.cfg.memSize.val s.regs.containerRange = true)
    (hapart : overlaps s.regs.srcRange s.regs.containerRange = false)
    (hcodes : ∀ i, i < s.regs.len.toNat → (s.byteAt (s.regs.src.toNat + i)).toNat < ncodes s.regs.bpp.toNat) :
    execAssemble s = launch .assemble (storeActs s.regs.dst.toNat (container s)) s.assembleEnd s := by
  have hany : ¬ (s.bytesAt s.regs.src.toNat s.regs.len.toNat).any
      (fun c => decide (ncodes s.regs.bpp.toNat ≤ c.toNat)) = true := by
    rw [State.any_bytesAt]
    rintro ⟨i, hi, hc⟩
    exact absurd (hcodes i hi) (Nat.not_lt.2 hc)
  simp only [execAssemble, hbpp, not_not.2 hn, Nat.not_lt.2 htotal, hsrc, hdst, hapart, hany, Bool.not_true,
    Bool.and_true, Bool.false_eq_true, if_false, State.assembleEnd]

/-- The container's stores run to `State.assembled`. -/
theorem assemble_completes (hin : s.inputs = [])
    (hexec : execAssemble s = launch .assemble (storeActs s.regs.dst.toNat (container s)) s.assembleEnd s) :
    ∃ t k, exec .assemble s = .next t ∧ Sys2Proof.core.run k t = .next s.assembled := by
  have hstore : s.assembleEnd.store = lastStore s.regs.dst.toNat (container s) := by rw [State.assembleEnd]
  refine ⟨_, _, hexec.trans (launch_eq ..), (run_launched_stores hin hstore).trans ?_⟩
  rw [State.assembled]
  rfl

/-- The header and the pixel data, read back from where ASSEMBLE wrote them. -/
theorem assembled_bytesAt (hwf : Memory.wf s.fill s.mem = true)
    (hn : s.regs.len.toNat = s.regs.imgW.toNat * s.regs.imgH.toNat) :
    s.assembled.bytesAt s.regs.dst.toNat headerSize =
      containerHeader s.regs.containerSize s.regs.imgW.toNat s.regs.imgH.toNat s.regs.bpp.toNat ∧
    s.assembled.bytesAt (s.regs.dst.toNat + headerSize)
        (rowBytes s.regs.imgW.toNat s.regs.bpp.toNat * s.regs.imgH.toNat) =
      pixelData s.regs.imgW.toNat s.regs.imgH.toNat s.regs.bpp.toNat
        (s.bytesAt s.regs.src.toNat s.regs.len.toNat) := by
  have hc : (s.bytesAt s.regs.src.toNat s.regs.len.toNat).length = s.regs.imgW.toNat * s.regs.imgH.toNat := by
    rw [State.length_bytesAt, hn]
  have hback : s.assembled.bytesAt s.regs.dst.toNat (container s).length = container s :=
    State.bytesAt_of_writeList hwf assembled_fill assembled_mem
  obtain ⟨hheader, hpixels⟩ := State.bytesAt_split hback
  rw [length_containerHeader] at hheader hpixels
  rw [length_pixelData hc] at hpixels
  exact ⟨hheader, hpixels⟩

theorem assembled_byteAt_outside (hn : s.regs.len.toNat = s.regs.imgW.toNat * s.regs.imgH.toNat) {a : Nat}
    (ha : a < s.regs.dst.toNat ∨ s.regs.dst.toNat + s.regs.containerSize ≤ a) :
    s.assembled.byteAt a = s.byteAt a := by
  rw [State.byteAt, assembled_fill, assembled_mem, Memory.read_writeList_outside (by rwa [length_container hn]),
    State.byteAt]

end

/-- Settles O21: the accepted ASSEMBLE launches the stores of the container, their run ends in `State.assembled`, and
the bytes read back from there are the header and the pixel data. -/
theorem assembleWritesContainer : Obligations.AssembleWritesContainer := by
  intro s hin hwf src dst w h bpp n row total hbpp hn htotal hsrc hdst hapart hcodes
  have hdisjoint : overlaps s.regs.srcRange s.regs.containerRange = false := by
    rw [Bool.eq_false_iff, ne_eq, overlaps_iff]
    exact fun ⟨hpos, _, hbelow, habove⟩ => hapart ⟨hpos, hbelow, habove⟩
  have hexec := execAssemble_accepted (legalBpp_iff.2 hbpp) hn (Nat.le_of_lt_succ htotal) (validRange_iff.2 hsrc)
    (validRange_iff.2 (.inr hdst)) hdisjoint hcodes
  obtain ⟨t, k, hstart, hrun⟩ := assemble_completes hin hexec
  obtain ⟨hheader, hpixels⟩ := assembled_bytesAt hwf hn
  have hc : (s.bytesAt src n).length = w * h := by rw [State.length_bytesAt, hn]
  refine ⟨t, k, s.assembled, hstart, hrun, assembled_frame, ?_, ?_, ?_, ?_⟩
  · exact hheader.trans (containerHeader_eq _ _ _ _ hbpp)
  · intro j x b hj hx hb
    have hi : (h - 1 - j) * w + x < n := by
      calc (h - 1 - j) * w + x < (h - 1 - j + 1) * w := by rw [Nat.add_one_mul]; omega
        _ ≤ h * w := Nat.mul_le_mul_right w (by omega)
        _ = n := by rw [hn, Nat.mul_comm]
    refine (congrArg₂ bitAt hpixels (Nat.add_assoc ..)).trans ((bitAt_pixelData_code hc hj hx hb).trans ?_)
    rw [State.getD_bytesAt hi, Nat.add_assoc]
  · intro j q hj hq hq'
    exact (congrArg (bitAt · _) hpixels).trans (bitAt_pixelData_pad hc hj hq hq')
  · exact fun a ha => assembled_byteAt_outside hn ha

end Sys2Proof.Machine
end

section
/-! ENCODE: its packing, its checks, and the operation from start to end (R400 to R408). -/

namespace Sys2Proof.Machine

/-! ### The packing -/

/-- A grid of `w` by `h` samples fills the panel: directly as landscape, transposed as portrait (R402). -/
def FitsPanel (portrait : Level) (w h tw th : Nat) : Prop :=
  portrait = 0 ∧ w = tw ∧ h = th ∨ portrait = 1 ∧ w = th ∧ h = tw

theorem panelIndex_landscape (tw th x y : Nat) : panelIndex 0 tw th x y = x + y * tw :=
  if_pos rfl

theorem panelIndex_portrait (tw th x y : Nat) : panelIndex 1 tw th x y = y + (th - x - 1) * tw :=
  if_neg (by decide)

/-- The same, with the orientation as a flag. -/
theorem panelIndex_of_bool (portrait : Bool) (tw th x y : Nat) :
    panelIndex (if portrait then 1 else 0) tw th x y = if portrait then y + (th - x - 1) * tw else x + y * tw := by
  cases portrait with
  | false => exact panelIndex_landscape tw th x y
  | true => exact panelIndex_portrait tw th x y

/-- The linear index of the panel pixel in column `a` of row `b` determines the two. -/
theorem rowMajor_inj {n a b c d : Nat} (ha : a < n) (hc : c < n) (h : a + b * n = c + d * n) : a = c ∧ b = d := by
  have hac : a = c := by simpa [Nat.mod_eq_of_lt ha, Nat.mod_eq_of_lt hc] using congrArg (· % n) h
  subst hac
  exact ⟨rfl, Nat.eq_of_mul_eq_mul_right (Nat.zero_lt_of_lt ha) (Nat.add_left_cancel h)⟩

theorem rowMajor_lt {n m a b : Nat} (ha : a < n) (hb : b < m) : a + b * n < n * m := by
  calc a + b * n < (b + 1) * n := by rw [Nat.add_one_mul]; omega
    _ ≤ m * n := Nat.mul_le_mul_right n hb
    _ = n * m := Nat.mul_comm m n

section
variable {portrait : Level} {w h tw th x y : Nat}

theorem panelIndex_lt (hfits : FitsPanel portrait w h tw th) (hx : x < w) (hy : y < h) :
    panelIndex portrait tw th x y < tw * th := by
  obtain ⟨rfl, rfl, rfl⟩ | ⟨rfl, rfl, rfl⟩ := hfits
  · rw [panelIndex_landscape]
    exact rowMajor_lt hx hy
  · rw [panelIndex_portrait]
    exact rowMajor_lt hy (by omega)

/-- No two grid pixels share a bit of the FrameBuffer (R407). -/
theorem panelIndex_inj (hfits : FitsPanel portrait w h tw th) (hx : x < w) (hy : y < h) {x' y' : Nat} (hx' : x' < w)
    (hy' : y' < h) (heq : panelIndex portrait tw th x' y' = panelIndex portrait tw th x y) : x' = x ∧ y' = y := by
  obtain ⟨rfl, rfl, rfl⟩ | ⟨rfl, rfl, rfl⟩ := hfits
  · rw [panelIndex_landscape, panelIndex_landscape] at heq
    exact rowMajor_inj hx' hx heq
  · rw [panelIndex_portrait, panelIndex_portrait] at heq
    obtain ⟨hcol, hrow⟩ := rowMajor_inj hy' hy heq
    exact ⟨by omega, hcol⟩

/-- The bit of a grid pixel is 0 just when that pixel is black (R403). -/
theorem bitAt_encodeBuffer_pixel (hfits : FitsPanel portrait w h tw th) (hx : x < w) (hy : y < h) (threshold : Nat)
    (sample : Nat → Nat → Byte) :
    bitAt (encodeBuffer threshold portrait w h tw th sample) (panelIndex portrait tw th x y) =
      !isBlack threshold (sample x y) := by
  have hz := Nat.lt_of_lt_of_le (panelIndex_lt hfits hx hy) (le_mul_ceilDiv (tw * th) (k := 8) (by decide))
  rw [bitAt_encodeBuffer _ _ _ _ _ _ _ hz, Bool.not_inj_iff, Bool.eq_iff_iff, List.any_eq_true]
  simp only [Bool.and_eq_true, decide_eq_true_eq]
  constructor
  · rintro ⟨⟨x', y'⟩, hmem, hblack, heq⟩
    obtain ⟨hx', hy'⟩ := mem_gridPixels.1 hmem
    obtain ⟨rfl, rfl⟩ := panelIndex_inj hfits hx hy hx' hy' heq
    exact hblack
  · exact fun hblack => ⟨(x, y), mem_gridPixels.2 ⟨hx, hy⟩, hblack, rfl⟩

/-- A bit past the panel's pixels stays 1 (R407). -/
theorem bitAt_encodeBuffer_unused (hfits : FitsPanel portrait w h tw th) {z : Nat} (hz : tw * th ≤ z)
    (hz' : z < 8 * ceilDiv (tw * th) 8) (threshold : Nat) (sample : Nat → Nat → Byte) :
    bitAt (encodeBuffer threshold portrait w h tw th sample) z = true := by
  rw [bitAt_encodeBuffer _ _ _ _ _ _ _ hz', Bool.not_eq_true', List.any_eq_false]
  intro p hp hblack
  obtain ⟨hx, hy⟩ := mem_gridPixels.1 hp
  rw [Bool.and_eq_true, decide_eq_true_eq] at hblack
  exact absurd (panelIndex_lt hfits hx hy) (by omega)

end

/-- The portrait pixel that takes the place of landscape pixel (u, v) (R408). -/
theorem panelIndex_rotate {tw th u v : Nat} (hv : v < th) :
    panelIndex 1 tw th (th - 1 - v) u = panelIndex 0 tw th u v := by
  rw [panelIndex_portrait, panelIndex_landscape, show th - (th - 1 - v) - 1 = v by omega]

/-- Every bit below the panel's size is that of a landscape pixel. -/
theorem exists_panelIndex {tw th z : Nat} (hz : z < tw * th) :
    ∃ u v, u < tw ∧ v < th ∧ panelIndex 0 tw th u v = z :=
  ⟨z % tw, z / tw, Nat.mod_lt z (Nat.pos_of_mul_pos_right (Nat.zero_lt_of_lt hz)), Nat.div_lt_of_lt_mul hz,
    (panelIndex_landscape ..).trans (Nat.mod_add_div' z tw)⟩

/-- Settles O20, bit by bit: a bit of the panel is decided by one landscape pixel and by the portrait pixel that the
rotation puts there; the bits past the panel are 1 in both. -/
theorem encodeRotationEquivalence : Obligations.EncodeRotationEquivalence := by
  intro threshold tw th p
  have hportrait : FitsPanel 1 th tw tw th := .inr ⟨rfl, rfl, rfl⟩
  have hlandscape : FitsPanel 0 tw th tw th := .inl ⟨rfl, rfl, rfl⟩
  refine eq_of_bitAt (by simp only [length_encodeBuffer]) fun z hz => ?_
  rw [length_encodeBuffer] at hz
  by_cases hpanel : z < tw * th
  case pos =>
    obtain ⟨u, v, hu, hv, rfl⟩ := exists_panelIndex hpanel
    rw [bitAt_encodeBuffer_pixel hlandscape hu hv, ← panelIndex_rotate hv,
      bitAt_encodeBuffer_pixel hportrait (by omega) hu]
  case neg =>
    rw [bitAt_encodeBuffer_unused hportrait (Nat.le_of_not_lt hpanel) hz,
      bitAt_encodeBuffer_unused hlandscape (Nat.le_of_not_lt hpanel) hz]

/-! ### The checks -/

theorem orientation_eq_none_iff {r : Regs} : orientation r = none ↔
    ¬ ((r.imgW = r.tgtW ∧ r.imgH = r.tgtH) ∨ (r.imgW = r.tgtH ∧ r.imgH = r.tgtW)) := by
  unfold orientation
  split
  next hdirect => simp [hdirect]
  next hdirect =>
    split
    next htransposed => simp [htransposed]
    next htransposed => exact iff_of_true rfl (not_or.2 ⟨hdirect, htransposed⟩)

/-- The orientation found is one in which the grid fills the panel (R402). -/
theorem orientation_fitsPanel {r : Regs} {portrait : Level} (h : orientation r = some portrait) :
    FitsPanel portrait r.imgW.toNat r.imgH.toNat r.tgtW.toNat r.tgtH.toNat := by
  unfold orientation at h
  split at h
  next hdirect =>
    obtain ⟨hw, hh⟩ := hdirect
    cases h
    exact .inl ⟨rfl, congrArg _ hw, congrArg _ hh⟩
  next =>
    split at h
    next htransposed =>
      obtain ⟨hw, hh⟩ := htransposed
      cases h
      exact .inr ⟨rfl, congrArg _ hw, congrArg _ hh⟩
    next => cases h

/-- Landscape is tried first, portrait only when it does not fit (R402). -/
theorem orientation_eq_some {r : Regs} {portrait : Bool}
    (h : if portrait then
        (r.imgW.toNat = r.tgtH.toNat ∧ r.imgH.toNat = r.tgtW.toNat) ∧
          ¬ (r.imgW.toNat = r.tgtW.toNat ∧ r.imgH.toNat = r.tgtH.toNat)
      else r.imgW.toNat = r.tgtW.toNat ∧ r.imgH.toNat = r.tgtH.toNat) :
    orientation r = some (if portrait then 1 else 0) := by
  simp only [BitVec.toNat_inj] at h
  cases portrait with
  | false => exact if_pos h
  | true =>
    obtain ⟨htransposed, hdirect⟩ := h
    exact (if_neg hdirect).trans (if_pos htransposed)

/-- ENCODE's finishing transition. -/
def State.encodeEnd (s : State) (portrait : Level) : Finish where
  err := .ok
  orient := some portrait
  outLen := some (BitVec.ofNat 32 s.regs.frameSize)
  store := lastStore s.regs.dst.toNat (frameBuffer portrait s)

/-- With no operation running, an error changes ERR only (R615). -/
theorem raise_of_idle {s : State} (hop : s.op = none) {e : ErrCode} : raise e s = .next { s with err := e } := by
  rw [raise_eq, ← hop]

section
variable {s : State} {portrait : Level}

theorem execEncode_mismatch (h : orientation s.regs = none) : execEncode s = raise .dimensionMismatch s := by
  simp only [execEncode, h]

/-- ENCODE with every check passed starts the FrameBuffer's stores (R400). -/
theorem execEncode_accepted (ho : orientation s.regs = some portrait)
    (hsrc : validRange s.cfg.memSize.val s.regs.gridRange = true)
    (hdst : validRange s.cfg.memSize.val s.regs.frameRange = true)
    (hapart : overlaps s.regs.gridRange s.regs.frameRange = false) :
    execEncode s =
      launch .encode (storeActs s.regs.dst.toNat (frameBuffer portrait s)) (s.encodeEnd portrait) s := by
  simp only [execEncode, ho, hsrc, hdst, hapart, Bool.and_self, if_true, Bool.false_eq_true, if_false,
    State.encodeEnd]

/-- ENCODE of a grid of a fitting size, with an invalid range or with ranges that overlap (R202, R204). -/
theorem execEncode_badRanges (ho : orientation s.regs = some portrait)
    (h : validRange s.cfg.memSize.val s.regs.gridRange = false ∨
      validRange s.cfg.memSize.val s.regs.frameRange = false ∨
      overlaps s.regs.gridRange s.regs.frameRange = true) : execEncode s = raise .addressError s := by
  simp only [execEncode, ho]
  split
  next hvalid =>
    rw [Bool.and_eq_true] at hvalid
    exact if_pos (by simpa [hvalid] using h)
  next => rfl

end

/-- Settles O19: the size decides between DIMENSION_MISMATCH and the checks of the ranges, which all give
ADDRESS_ERROR. -/
theorem encodeErrors : Obligations.EncodeErrors := by
  intro s hop src dst n nOut fits
  have raised {e : ErrCode} (h : execEncode s = raise e s) : exec .encode s = .next { s with err := e } :=
    h.trans (raise_of_idle hop)
  have oriented (hfits : fits) : ∃ portrait, orientation s.regs = some portrait :=
    Option.ne_none_iff_exists'.1 fun h => orientation_eq_none_iff.1 h hfits
  have invalid {q : Nat × Nat} (hpos : 0 < q.2) (hend : s.cfg.memSize.val < q.1 + q.2) :
      validRange s.cfg.memSize.val q = false := by
    rw [Bool.eq_false_iff, ne_eq, validRange_iff]
    omega
  refine ⟨fun hsize => ?_, fun hfits hrange => ?_, fun hfits hn hnOut hbelow habove => ?_⟩
  · exact raised (execEncode_mismatch (orientation_eq_none_iff.2 hsize))
  · obtain ⟨portrait, ho⟩ := oriented hfits
    refine raised (execEncode_badRanges ho ?_)
    obtain ⟨hpos, hend⟩ | ⟨hpos, hend⟩ := hrange
    · exact .inl (invalid hpos hend)
    · exact .inr (.inl (invalid hpos hend))
  · obtain ⟨portrait, ho⟩ := oriented hfits
    exact raised (execEncode_badRanges ho (.inr (.inr (overlaps_iff.2 ⟨hn, hnOut, hbelow, habove⟩))))

/-! ### The operation from start to end -/

/-- What ENCODE writes for a grid pixel: a 0 just when the pixel's sample is below THRESHOLD (R406). -/
theorem bitAt_frameBuffer_pixel {s : State} {portrait : Level} {x y : Nat}
    (hfits : FitsPanel portrait s.regs.imgW.toNat s.regs.imgH.toNat s.regs.tgtW.toNat s.regs.tgtH.toNat)
    (hx : x < s.regs.imgW.toNat) (hy : y < s.regs.imgH.toNat) :
    bitAt (frameBuffer portrait s) (panelIndex portrait s.regs.tgtW.toNat s.regs.tgtH.toNat x y) =
      !decide ((s.byteAt (s.regs.src.toNat + y * s.regs.imgW.toNat + x)).toNat < s.cfg.threshold.val) := by
  rw [frameBuffer, bitAt_encodeBuffer_pixel hfits hx hy, isBlack]

theorem bitAt_frameBuffer_unused {s : State} {portrait : Level} {z : Nat}
    (hfits : FitsPanel portrait s.regs.imgW.toNat s.regs.imgH.toNat s.regs.tgtW.toNat s.regs.tgtH.toNat)
    (hz : s.regs.tgtW.toNat * s.regs.tgtH.toNat ≤ z) (hz' : z < 8 * s.regs.frameSize) :
    bitAt (frameBuffer portrait s) z = true := by
  rw [frameBuffer, bitAt_encodeBuffer_unused hfits hz hz']

/-- The state ENCODE ends in: the FrameBuffer from DST on, ERR, ORIENT and OUT_LEN. -/
def State.encoded (s : State) (portrait : Level) : State :=
  { s with
    mem := Memory.writeList s.fill s.mem s.regs.dst.toNat (frameBuffer portrait s)
    op := none
    err := .ok
    orient := portrait
    outLen := BitVec.ofNat 32 s.regs.frameSize }

section
variable {s : State} {portrait : Level}

theorem encoded_mem :
    (s.encoded portrait).mem = Memory.writeList s.fill s.mem s.regs.dst.toNat (frameBuffer portrait s) := rfl

theorem encoded_fill : (s.encoded portrait).fill = s.fill := rfl

theorem encoded_frame : s.encoded portrait = { s with
    mem := (s.encoded portrait).mem
    op := none
    err := .ok
    orient := portrait
    outLen := BitVec.ofNat 32 s.regs.frameSize } := by
  rw [encoded_mem, State.encoded]

/-- The FrameBuffer's stores run to `State.encoded`. -/
theorem encode_completes (hin : s.inputs = [])
    (hexec : execEncode s =
      launch .encode (storeActs s.regs.dst.toNat (frameBuffer portrait s)) (s.encodeEnd portrait) s) :
    ∃ t k, exec .encode s = .next t ∧ Sys2Proof.core.run k t = .next (s.encoded portrait) :=
  ⟨_, _, hexec.trans (launch_eq ..), run_launched_stores (fin := s.encodeEnd portrait) hin rfl⟩

/-- The FrameBuffer, read back from where ENCODE wrote it. -/
theorem encoded_bytesAt (hwf : Memory.wf s.fill s.mem = true) :
    (s.encoded portrait).bytesAt s.regs.dst.toNat s.regs.frameSize = frameBuffer portrait s := by
  rw [← length_frameBuffer portrait s]
  exact State.bytesAt_of_writeList hwf encoded_fill encoded_mem

theorem encoded_byteAt_outside {a : Nat} (ha : a < s.regs.dst.toNat ∨ s.regs.dst.toNat + s.regs.frameSize ≤ a) :
    (s.encoded portrait).byteAt a = s.byteAt a := by
  rw [State.byteAt, encoded_fill, encoded_mem, Memory.read_writeList_outside (by rwa [length_frameBuffer]),
    State.byteAt]

end

/-- Settles O18: the accepted ENCODE launches the stores of the FrameBuffer, their run ends in `State.encoded`, and the
bits read back from there are those of the packing. -/
theorem encodeWritesFrameBuffer : Obligations.EncodeWritesFrameBuffer := by
  intro s portrait hin hwf src dst w h tw th nOut hsize hsrc hdst hapart
  have ho := orientation_eq_some hsize
  have hfits := orientation_fitsPanel ho
  have hdisjoint : overlaps s.regs.gridRange s.regs.frameRange = false := by
    rw [Bool.eq_false_iff, ne_eq, overlaps_iff]
    exact hapart
  obtain ⟨t, k, hstart, hrun⟩ := encode_completes hin
    (execEncode_accepted ho (validRange_iff.2 hsrc) (validRange_iff.2 hdst) hdisjoint)
  have hback := encoded_bytesAt (portrait := if portrait then 1 else 0) hwf
  refine ⟨t, k, _, hstart, hrun, encoded_frame, fun x y hx hy => ?_, fun z hz hz' => ?_,
    fun a ha => encoded_byteAt_outside ha⟩
  · rw [← panelIndex_of_bool]
    exact (congrArg (bitAt · _) hback).trans (bitAt_frameBuffer_pixel hfits hx hy)
  · exact (congrArg (bitAt · _) hback).trans (bitAt_frameBuffer_unused hfits hz hz')

end Sys2Proof.Machine
end

section
/-! ASSEMBLE's checks, and the fields of the container that read back (R316, R450, R452 to R455, R459). -/

namespace Sys2Proof.Machine

/-! ### The checks -/

section
variable {s : State}

theorem execAssemble_badBpp (hbpp : ¬ legalBpp s.regs.bpp = true) : execAssemble s = raise .invalidArgument s :=
  if_pos (by simpa using hbpp)

theorem execAssemble_badCount (hbpp : legalBpp s.regs.bpp = true)
    (hn : s.regs.len.toNat ≠ s.regs.imgW.toNat * s.regs.imgH.toNat) :
    execAssemble s = raise .inconsistentPixelCount s := by
  simp only [execAssemble, hbpp, Bool.not_true, Bool.false_eq_true, if_false]
  exact if_pos hn

/-- The size field could not hold the length (R455). -/
theorem execAssemble_badTotal (hbpp : legalBpp s.regs.bpp = true)
    (hn : s.regs.len.toNat = s.regs.imgW.toNat * s.regs.imgH.toNat) (htotal : maxTotal < s.regs.containerSize) :
    execAssemble s = raise .invalidArgument s := by
  simp only [execAssemble, hbpp, not_not.2 hn, Bool.not_true, Bool.false_eq_true, if_false]
  exact if_pos htotal

/-- The codes' range and the container's are valid and apart (R202, R204). -/
def State.containerRangesFit (s : State) : Bool :=
  validRange s.cfg.memSize.val s.regs.srcRange && validRange s.cfg.memSize.val s.regs.containerRange &&
    !overlaps s.regs.srcRange s.regs.containerRange

/-- The same in numbers: a container is never empty. -/
theorem containerRangesFit_iff : s.containerRangesFit = true ↔
    (s.regs.len.toNat = 0 ∨ s.regs.src.toNat + s.regs.len.toNat ≤ s.cfg.memSize.val) ∧
    s.regs.dst.toNat + s.regs.containerSize ≤ s.cfg.memSize.val ∧
    ¬ (0 < s.regs.len.toNat ∧ s.regs.src.toNat < s.regs.dst.toNat + s.regs.containerSize ∧
      s.regs.dst.toNat < s.regs.src.toNat + s.regs.len.toNat) := by
  have hpos : 0 < s.regs.containerSize := by rw [Regs.containerSize, headerSize]; omega
  have hempty : s.regs.containerSize ≠ 0 := Nat.ne_of_gt hpos
  rw [State.containerRangesFit, Bool.and_eq_true, Bool.and_eq_true, Bool.not_eq_true', Bool.eq_false_iff, ne_eq,
    validRange_iff, validRange_iff, overlaps_iff, Regs.srcRange, Regs.containerRange, and_assoc]
  simp only [hpos, hempty, true_and, false_or]

theorem execAssemble_badRanges (hbpp : legalBpp s.regs.bpp = true)
    (hn : s.regs.len.toNat = s.regs.imgW.toNat * s.regs.imgH.toNat) (htotal : s.regs.containerSize ≤ maxTotal)
    (hranges : ¬ s.containerRangesFit = true) : execAssemble s = raise .addressError s := by
  simp only [execAssemble, hbpp, not_not.2 hn, Nat.not_lt.2 htotal, Bool.not_true, Bool.false_eq_true, if_false]
  split
  next => rfl
  next hvalid =>
    rw [Bool.not_eq_true, Bool.not_eq_false'] at hvalid
    exact if_pos (by simpa only [State.containerRangesFit, hvalid, Bool.true_and, Bool.not_eq_true', Bool.not_eq_false]
      using hranges)

/-- Some code names no colour of the bit depth (R454). -/
theorem execAssemble_badCode (hbpp : legalBpp s.regs.bpp = true)
    (hn : s.regs.len.toNat = s.regs.imgW.toNat * s.regs.imgH.toNat) (htotal : s.regs.containerSize ≤ maxTotal)
    (hranges : s.containerRangesFit = true)
    (hcode : ∃ i, i < s.regs.len.toNat ∧ ncodes s.regs.bpp.toNat ≤ (s.byteAt (s.regs.src.toNat + i)).toNat) :
    execAssemble s = raise .invalidArgument s := by
  rw [State.containerRangesFit, Bool.and_eq_true, Bool.not_eq_true'] at hranges
  obtain ⟨hvalid, hapart⟩ := hranges
  simp only [execAssemble, hbpp, not_not.2 hn, Nat.not_lt.2 htotal, hvalid, hapart, Bool.not_true,
    Bool.false_eq_true, if_false]
  exact if_pos (State.any_bytesAt.2 hcode)

end

/-- Settles O22: one lemma per check, each with the checks before it passed. -/
theorem assembleErrors : Obligations.AssembleErrors := by
  intro s hop src dst n bpp total bppFits rangesFit
  have raised {e : ErrCode} (h : execAssemble s = raise e s) : exec .assemble s = .next { s with err := e } :=
    h.trans (raise_of_idle hop)
  refine ⟨fun hbpp => ?_, fun hbpp hn => ?_, fun hbpp hn htotal => ?_, fun hbpp hn htotal hranges => ?_,
    fun hbpp hn htotal hranges hcode => ?_⟩
  · exact raised (execAssemble_badBpp (mt legalBpp_iff.1 hbpp))
  · exact raised (execAssemble_badCount (legalBpp_iff.2 hbpp) hn)
  · exact raised (execAssemble_badTotal (legalBpp_iff.2 hbpp) hn htotal)
  · exact raised (execAssemble_badRanges (legalBpp_iff.2 hbpp) hn htotal (mt containerRangesFit_iff.1 hranges))
  · exact raised (execAssemble_badCode (legalBpp_iff.2 hbpp) hn htotal (containerRangesFit_iff.2 hranges) hcode)

/-! ### The fields that read back -/

/-- The four bytes of a list from offset `k` on, read as a little-endian number (R14). -/
def fieldAt (bytes : List Byte) (k : Nat) : Nat :=
  (bytes.getD k 0).toNat + 256 * (bytes.getD (k + 1) 0).toNat + 65536 * (bytes.getD (k + 2) 0).toNat +
    16777216 * (bytes.getD (k + 3) 0).toNat

/-- A number written with `le32` reads back from where it stands. -/
theorem fieldAt_le32 {n : Nat} (hn : n < 4294967296) (front back : List Byte) :
    fieldAt (front ++ (le32 n ++ back)) front.length = n := by
  have skip (i : Nat) : (front ++ (le32 n ++ back)).getD (front.length + i) 0 = (le32 n ++ back).getD i 0 := by
    rw [List.getD_append_right _ _ _ _ (Nat.le_add_right ..), Nat.add_sub_cancel_left]
  rw [fieldAt, skip 1, skip 2, skip 3, ← Nat.add_zero front.length, skip 0]
  exact le32_back hn

section
variable {s : State}

/-- The size field follows the signature (R316). -/
theorem fieldAt_container_size (htotal : s.regs.containerSize ≤ maxTotal) :
    fieldAt (container s) 2 = s.regs.containerSize := by
  simp only [container, containerHeader, List.append_assoc]
  exact fieldAt_le32 (Nat.lt_succ_of_le htotal) signature _

/-- The width field follows the file header and the info header's size field (R316). -/
theorem fieldAt_container_width : fieldAt (container s) 18 = s.regs.imgW.toNat := by
  simp only [container, containerHeader, List.append_assoc]
  exact fieldAt_le32 s.regs.imgW.isLt
    (signature ++ le32 s.regs.containerSize ++ le16 0 ++ le16 0 ++ le32 headerSize ++ le32 infoHeaderSize) _

/-- The height field follows the width field (R316). -/
theorem fieldAt_container_height : fieldAt (container s) 22 = s.regs.imgH.toNat := by
  simp only [container, containerHeader, List.append_assoc]
  exact fieldAt_le32 s.regs.imgH.isLt
    (signature ++ le32 s.regs.containerSize ++ le16 0 ++ le16 0 ++ le32 headerSize ++ le32 infoHeaderSize ++
      le32 s.regs.imgW.toNat) _

/-- An ASSEMBLE that starts has passed the checks of the count and the total, and has the container's stores to make. -/
theorem execAssemble_starts {r : State} {run : Running} (h : execAssemble s = .next r) (hop : r.op = some run) :
    s.regs.len.toNat = s.regs.imgW.toNat * s.regs.imgH.toNat ∧ s.regs.containerSize ≤ maxTotal ∧
      run = ⟨.assemble, s.regs, storeActs s.regs.dst.toNat (container s), s.assembleEnd⟩ := by
  obtain ⟨e, herr⟩ | ⟨-, hn, htotal, -, -, -, -, hstart⟩ := execAssemble_cases s
  · exact absurd hop (raise_starts_nothing (herr.symm.trans h))
  · cases hstart.symm.trans h
    exact ⟨hn, htotal, by rw [State.assembleEnd, Option.some.inj hop]⟩

end

/-- Settles O23: the container that is stored has its full length, which fits in the size field. -/
theorem containerFieldsReadBack : Obligations.ContainerFieldsReadBack := by
  intro s r run hexec hop
  obtain ⟨hn, htotal, rfl⟩ := execAssemble_starts hexec hop
  simp only [State.assembleEnd, length_container hn, true_and]
  exact ⟨fieldAt_container_size htotal, fieldAt_container_width, fieldAt_container_height, rfl⟩

end Sys2Proof.Machine
end

section
/-! The port's discipline `Framed`: the sequences in which every write is framed, and that a start, an act and every
other step keep it (R506, R511, R512). -/

namespace Sys2Proof.Machine

/-! ### Framed sequences -/

/-- Every write of the sequence follows directly on a set of DC and a set of chip-select to its active level. -/
def ActsFramed (p : Params) (acts : List Act) : Prop :=
  ∀ before bytes after, acts = before ++ .write bytes :: after →
    ∃ early level, before = early ++ [.set .dc level, .set .cs p.csActiveLevel]

section
variable {p : Params} {acts more : List Act}

theorem ActsFramed.of_no_write (h : ∀ bytes, Act.write bytes ∉ acts) : ActsFramed p acts := by
  rintro before bytes after rfl
  exact absurd (List.mem_append_right _ (List.mem_cons_self ..)) (h bytes)

theorem ActsFramed.append (h : ActsFramed p acts) (hmore : ActsFramed p more) : ActsFramed p (acts ++ more) := by
  intro before bytes after heq
  obtain ⟨mid, rfl, hin⟩ | ⟨mid, rfl, hin⟩ := List.append_eq_append_iff.1 heq
  · obtain ⟨early, level, rfl⟩ := hmore mid bytes after hin
    exact ⟨acts ++ early, level, (List.append_assoc ..).symm⟩
  · cases mid with
    | nil =>
      obtain ⟨early, level, hnil⟩ := hmore [] bytes after hin.symm
      simp at hnil
    | cons x mid =>
      obtain ⟨rfl, -⟩ := List.cons.inj hin
      exact h before bytes mid rfl

theorem ActsFramed.flatMap {α : Type} {f : α → List Act} {xs : List α} (h : ∀ x, ActsFramed p (f x)) :
    ActsFramed p (xs.flatMap f) := by
  induction xs with
  | nil => exact .of_no_write (by simp)
  | cons x xs ih => exact (h x).append ih

theorem ActsFramed.cons {a : Act} (ha : ∀ bytes, a ≠ .write bytes) (h : ActsFramed p acts) : ActsFramed p (a :: acts) :=
  .append (acts := [a]) (.of_no_write fun bytes hb => ha bytes (List.mem_singleton.1 hb).symm) h

/-- The one write of a transfer is its third act, after the two sets (R506). -/
theorem actsFramed_transfer {l : Level} {bytes : List Byte} : ActsFramed p (transfer p l bytes) := by
  rintro (_ | ⟨a, _ | ⟨b, _ | ⟨c, before⟩⟩⟩) bs after heq <;> simp [transfer, List.cons_eq_append_iff] at heq
  obtain ⟨rfl, rfl, -⟩ := heq
  exact ⟨[], l, rfl⟩

theorem actsFramed_sendData {bs : List Byte} : ActsFramed p (sendData p bs) := by
  unfold sendData
  split
  · split
    · exact .of_no_write (by simp)
    · exact actsFramed_transfer
  · exact .flatMap fun _ => actsFramed_transfer

theorem actsFramed_frame {f : Byte × List Byte} : ActsFramed p (frame p f) :=
  .append actsFramed_transfer actsFramed_sendData

theorem actsFramed_resetSeq : ActsFramed p resetSeq :=
  .of_no_write (by simp [resetSeq])

theorem actsFramed_waitReady {regs : Regs} : ActsFramed p (waitReady regs) :=
  .of_no_write (by simp [waitReady])

theorem actsFramed_refresh {regs : Regs} {primary secondary : List Byte} :
    ActsFramed p (refresh p regs primary secondary) :=
  .append (.flatMap fun _ => actsFramed_frame) actsFramed_waitReady

theorem actsFramed_storeActs {dst : Nat} {bs : List Byte} : ActsFramed p (storeActs dst bs) :=
  .of_no_write fun bytes hb => by
    obtain ⟨i, b, hact, -⟩ := mem_storeActs hb
    cases hact

end

/-! ### Starting an operation -/

/-- If `o` starts an operation, its sequence is framed under the parameters `p`. -/
def StartsFramed (p : Params) (o : Out) : Prop :=
  ∀ t r, o = .next t → t.op = some r → ActsFramed p r.todo

section
variable {p : Params} {s : State}

theorem StartsFramed.launch {i : Instr} {acts : List Act} {fin : Finish} (h : ActsFramed p acts) :
    StartsFramed p (launch i acts fin s) := by
  rintro _ _ ⟨⟩ ⟨⟩
  exact h

theorem StartsFramed.raise {e : ErrCode} : StartsFramed p (raise e s) :=
  fun _ _ h hop => absurd hop (raise_starts_nothing h)

theorem StartsFramed.ite {c : Prop} [Decidable c] {o o' : Out} (h : StartsFramed p o) (h' : StartsFramed p o') :
    StartsFramed p (if c then o else o') := by
  split
  · exact h
  · exact h'

end

theorem exec_startsFramed (i : Instr) (s : State) : StartsFramed s.cfg (exec i s) := by
  cases i with
  | encode =>
    simp only [exec, execEncode]
    cases orientation s.regs with
    | none => exact .raise
    | some portrait => exact .ite (.ite .raise (.launch actsFramed_storeActs)) .raise
  | assemble =>
    exact .ite .raise (.ite .raise (.ite .raise (.ite .raise (.ite .raise (.ite .raise
      (.launch actsFramed_storeActs))))))
  | reset => exact .ite (.launch actsFramed_resetSeq) .raise
  | sendCommand => exact .ite (.launch actsFramed_transfer) .raise
  | sendData => exact .ite (.ite (.launch actsFramed_sendData) .raise) .raise
  | waitReady => exact .ite (.launch actsFramed_waitReady) .raise
  | openSession => exact fun _ _ h hop => absurd hop (execOpen_starts_nothing h)
  | init =>
    have henter : ActsFramed s.cfg [.enter .reset] := .of_no_write (by simp)
    exact .ite (.launch (.append (.append (.append actsFramed_resetSeq henter)
      (.flatMap fun _ => actsFramed_frame)) actsFramed_waitReady)) .raise
  | clear => exact .ite (.launch actsFramed_refresh) .raise
  | display => exact .ite (.ite (.ite (.launch actsFramed_refresh) .raise) .raise) .raise
  | sleep =>
    exact .ite (.launch (.append (.append actsFramed_frame actsFramed_waitReady) actsFramed_frame)) .raise
  | close => exact .launch (.of_no_write (by cases s.own <;> simp))

/-! ### Framed states -/

section
variable {s t : State} {r : Running}

/-- A state is framed if its events are, and the acts still to come are without counting the events. -/
theorem Framed.of_acts (hmade : TransfersFramed s.cfg s.trace) (hacts : ∀ r, s.op = some r → ActsFramed s.cfg r.todo) :
    Framed s :=
  ⟨hmade, fun r hop before bytes after ht => .inl (hacts r hop before bytes after ht)⟩

theorem Framed.of_idle (hmade : TransfersFramed s.cfg s.trace) (hop : s.op = none) : Framed s :=
  .of_acts hmade (by simp [hop])

/-- An update that touches neither the port nor the operation keeps a state framed. -/
theorem Framed.of_same_port (h : Framed s) (hcfg : t.cfg = s.cfg) (htrace : t.trace = s.trace) (hop : t.op = s.op) :
    Framed t :=
  ⟨by rw [hcfg, htrace]; exact h.made, by rw [hcfg, htrace, hop]; exact h.toCome⟩

theorem Framed.withInputs (h : Framed s) (rest : List Input) : Framed { s with inputs := rest } :=
  h.of_same_port rfl rfl rfl

/-- One more event keeps the transfers framed if it is no transfer, or follows on the two sets. -/
theorem TransfersFramed.emit {p : Params} {events : List BusEvent} {e : BusEvent} (h : TransfersFramed p events)
    (he : ∀ bytes ok sent, e = .write bytes ok sent →
      ∃ past level, events = past ++ [.set .dc level true, .set .cs p.csActiveLevel true]) :
    TransfersFramed p (events ++ [e]) := by
  intro before bytes ok sent after heq
  rcases List.eq_nil_or_concat after with rfl | ⟨after, last, rfl⟩
  · obtain ⟨rfl, hlast⟩ := List.append_inj' heq rfl
    exact he bytes ok sent (List.singleton_inj.1 hlast)
  · rw [List.concat_eq_append, ← List.cons_append, ← List.append_assoc] at heq
    exact h before bytes ok sent after (List.append_inj' heq rfl).1

/-! ### One act -/

/-- An act makes at most one event, and a transfer only if it is a write. -/
theorem perform_trace (r : Running) (a : Act) (s : State) : (perform r a s).trace = s.trace ∨
    ∃ e, (perform r a s).trace = s.trace ++ [e] ∧ ∀ bytes ok sent, e = .write bytes ok sent → a = .write bytes := by
  cases a with
  | set pin l | drive pin l => exact .inr ⟨.set pin l (answerOk s.nextAnswer), by simp [perform], by simp⟩
  | write bs =>
    refine .inr ⟨.write bs (answerOk s.nextAnswer) (bytesSent bs s.nextAnswer), by simp [perform], ?_⟩
    rintro _ _ _ ⟨⟩
    rfl
  | sleep ms => exact .inr ⟨.sleep ms, rfl, by simp⟩
  | poll w => exact .inr ⟨.read (answerLevel s.nextAnswer), by simp [perform], by simp⟩
  | pause w => exact .inr ⟨.sleep w.poll, rfl, by simp⟩
  | enter _ | store _ _ => exact .inl rfl

/-- A set that the operation goes on after has answered ok. -/
theorem perform_set_goesOn {pin : Pin} {l : Level} {r' : Running} (h : (perform r (.set pin l) s).op = some r') :
    r'.todo = [] ∨ (r'.todo = r.todo ∧ (perform r (.set pin l) s).trace = s.trace ++ [.set pin l true]) := by
  cases hok : answerOk s.nextAnswer <;> simp only [perform, State.checked, hok] at h ⊢ <;>
    obtain rfl := Option.some.inj h
  · exact .inl rfl
  · exact .inr ⟨rfl, by simp [hok]⟩

/-- After an act, a framed rest of the sequence is framed still: a round more of a wait holds no write. -/
theorem actsFramed_perform {p : Params} {a : Act} {r' : Running} (h : ActsFramed p r.todo)
    (hr' : (perform r a s).op = some r') : ActsFramed p r'.todo := by
  obtain ⟨q, hq, -, -, ⟨-, htodo | ⟨w, -, htodo⟩ | ⟨w, -, htodo⟩⟩ | ⟨htodo, -⟩⟩ := perform_op r a s <;>
    obtain rfl := Option.some.inj (hq.symm.trans hr') <;> rw [htodo]
  · exact h
  · exact h.cons (by simp)
  · exact h.cons (by simp)
  · exact .of_no_write (by simp)

/-- Past an act that is no set, the sequence is framed without counting the events made. -/
theorem Framed.rest {a : Act} {rest : List Act} (hs : Framed s) (hop : s.op = some r) (ht : r.todo = a :: rest)
    (ha : ∀ pin l, a ≠ .set pin l) : ActsFramed s.cfg rest := by
  rintro before bytes after rfl
  obtain ⟨_ | ⟨x, early⟩, level, hb⟩ | ⟨hb, -⟩ | ⟨hb, -⟩ := hs.toCome r hop (a :: before) bytes after ht
  · exact absurd (List.cons.inj hb).1 (ha _ _)
  · exact ⟨early, level, (List.cons.inj hb).2⟩
  · exact absurd (List.cons.inj hb).1 (ha _ _)
  · cases hb

/-- The event of an act keeps the transfers framed: a write comes only after the two sets. -/
theorem Framed.made_perform {a : Act} {rest : List Act} (hs : Framed s) (hop : s.op = some r) (ht : r.todo = a :: rest) :
    TransfersFramed s.cfg (perform { r with todo := rest } a s).trace := by
  obtain htrace | ⟨e, htrace, he⟩ := perform_trace { r with todo := rest } a s <;> rw [htrace]
  · exact hs.made
  · refine hs.made.emit fun bytes ok sent hw => ?_
    obtain rfl := he bytes ok sent hw
    obtain ⟨early, level, hb⟩ | ⟨hb, -⟩ | ⟨-, hpast⟩ := hs.toCome r hop [] bytes rest ht
    · simp at hb
    · cases hb
    · exact hpast

/-- After a set that answered ok, a write that counted on it to come counts on it as made. -/
theorem Framed.toCome_set {pin : Pin} {l : Level} {rest before after : List Act} {bytes : List Byte} (hs : Framed s)
    (hop : s.op = some r) (ht : r.todo = .set pin l :: rest) (hrest : rest = before ++ .write bytes :: after) :
    (∃ early level, before = early ++ [.set .dc level, .set .cs s.cfg.csActiveLevel]) ∨
    (before = [.set .cs s.cfg.csActiveLevel] ∧
      ∃ past level, s.trace ++ [.set pin l true] = past ++ [.set .dc level true]) ∨
    (before = [] ∧ ∃ past level,
      s.trace ++ [.set pin l true] = past ++ [.set .dc level true, .set .cs s.cfg.csActiveLevel true]) := by
  obtain ⟨_ | ⟨x, early⟩, level, hb⟩ | ⟨hb, past, level, htrace⟩ | ⟨hb, -⟩ :=
    hs.toCome r hop (.set pin l :: before) bytes after (by rw [ht, hrest]; rfl)
  · obtain ⟨hset, rfl⟩ := List.cons.inj hb
    cases hset
    exact .inr (.inl ⟨rfl, _, _, rfl⟩)
  · exact .inl ⟨early, level, (List.cons.inj hb).2⟩
  · obtain ⟨hset, rfl⟩ := List.cons.inj hb
    cases hset
    exact .inr (.inr ⟨rfl, past, level, by rw [htrace, List.append_assoc]; rfl⟩)
  · cases hb

theorem framed_perform {a : Act} {rest : List Act} (hs : Framed s) (hop : s.op = some r) (ht : r.todo = a :: rest) :
    Framed (perform { r with todo := rest } a s) := by
  have hmade := hs.made_perform hop ht
  by_cases ha : ∃ pin l, a = .set pin l
  · obtain ⟨pin, l, rfl⟩ := ha
    refine ⟨by rw [perform_cfg]; exact hmade, fun r' hr' before bytes after ht' => ?_⟩
    obtain hnil | ⟨htodo, htrace⟩ := perform_set_goesOn hr'
    · simp [hnil] at ht'
    · rw [perform_cfg, htrace]
      exact hs.toCome_set hop ht (htodo.symm.trans ht')
  · have hrest : ActsFramed s.cfg rest := hs.rest hop ht fun pin l h => ha ⟨pin, l, h⟩
    exact .of_acts (by rw [perform_cfg]; exact hmade) fun r' hr' => by
      rw [perform_cfg]
      exact actsFramed_perform (r := { r with todo := rest }) hrest hr'

/-! ### One step -/

theorem framed_blockStep (hs : Framed s) : Framed (blockStep s) := by
  obtain ⟨-, h⟩ | ⟨r, -, -, h⟩ | ⟨r, a, rest, hop, ht, h⟩ := blockStep_cases s <;> rw [h]
  · exact hs
  · exact .of_idle hs.made rfl
  · exact framed_perform hs hop ht

theorem framed_writeCmd {v : Word} (hs : Framed s) (h : writeCmd v s = .next t) : Framed t := by
  obtain ⟨i, -, hexec⟩ | rfl := writeCmd_cases h
  · have hcfg : t.cfg = s.cfg := by rw [writeCmd_frame h]
    have htrace : t.trace = s.trace := by rw [writeCmd_frame h]
    refine .of_acts (by rw [hcfg, htrace]; exact hs.made) fun r hop => ?_
    rw [hcfg]
    exact exec_startsFramed i s t r hexec hop
  · exact .of_idle hs.made rfl

theorem framed_hostAccess {x : Access} (hs : Framed s) (h : hostAccess x s = .next t) : Framed t := by
  obtain ⟨y, rfl⟩ | ⟨q, v, loc, -, -, -, -, rfl⟩ | ⟨v, loc, -, -, -, hcmd⟩ | ⟨a, b, -, -, -, rfl⟩ := hostAccess_cases h
  · exact hs.of_same_port rfl rfl rfl
  · exact hs.of_same_port rfl rfl rfl
  · exact framed_writeCmd hs hcmd
  · exact hs.of_same_port rfl rfl rfl

end

/-- Settles O47, by the kinds of step: a transition of the block makes the next event of the sequence, a host access
starts a framed sequence at most, and a block reset abandons it. -/
theorem stepKeepsFramed : Obligations.StepKeepsFramed := by
  intro s t hs h
  obtain ⟨-, rfl⟩ | ⟨rest, -, rfl⟩ | ⟨x, rest, -, hx⟩ | ⟨rest, -, rfl⟩ := step_cases h
  · exact framed_blockStep hs
  · exact framed_blockStep (hs.withInputs rest)
  · exact framed_hostAccess (hs.withInputs rest) hx
  · exact .of_idle hs.made rfl

/-- Settles O46: no event has been made, and no operation runs. -/
theorem resetIsFramed : Obligations.ResetIsFramed :=
  .of_idle (fun before _ _ _ _ h => absurd h.symm (by simp [State.reset, State.resetOf])) rfl

end Sys2Proof.Machine
end

section
/-! How an operation on the panel ends, or goes on for ever: RESET, SEND_COMMAND, SEND_DATA and WAIT_READY from start to
end, a primitive that fails, and a wait that times out (R500 to R521). -/

namespace Sys2Proof.Machine

/-! ### Turned away -/

/-- Settles O27: the session is ready, so the payload's range is what is checked, and it is not valid. -/
theorem sendDataRangeChecked : Obligations.SendDataRangeChecked := by
  intro s hop hown hphase hpos hover
  have hrange : validRange s.cfg.memSize.val s.regs.srcRange = false := by
    rw [Bool.eq_false_iff, ne_eq, validRange_iff]
    simp only [Regs.srcRange]
    omega
  exact (execSendData_badRange hown (by simpa using hphase) hrange).trans (raise_of_idle hop)

/-- Settles O33: each operation checks its session first. -/
theorem wrongPhaseIsInvalidState : Obligations.WrongPhaseIsInvalidState := by
  intro s i hop h
  rw [← raise_of_idle hop]
  obtain ⟨rfl, hs⟩ | ⟨rfl | rfl | rfl, hs⟩ | ⟨rfl, hs⟩ | ⟨rfl | rfl | rfl, hs⟩ := h
  · exact execReset_rejected (by simpa using hs)
  · exact execSendCommand_rejected (by simpa using hs)
  · exact execSendData_rejected (by simpa using hs)
  · exact execWaitReady_rejected (by simpa using hs)
  · exact execInit_rejected (by simpa using hs)
  · exact execClear_rejected hs
  · exact execDisplay_rejected hs
  · exact execSleep_rejected hs

section
variable {s : State} {r : Running} {rest : List BusAnswer}

/-! ### Given up -/

/-- The finishing transition of an operation that was given up (R521, R553). -/
theorem blockStep_abort (s : State) (r : Running) (e : ErrCode) :
    blockStep (s.abort r e) = { s with op := none, err := e, phase := .failed } := by
  rw [blockStep_finish rfl rfl]
  rfl

/-- The act `a` is a primitive that can fail, and `e` is its event when it does, with `sent` of its bytes sent. -/
def Act.failsWith (a : Act) (sent : Nat) (e : BusEvent) : Prop :=
  (∃ pin l, a = .set pin l ∧ e = .set pin l false) ∨
    (∃ bs, a = .write bs ∧ e = .write bs false (min sent bs.length)) ∨ (∃ w, a = .poll w ∧ e = .read none)

theorem perform_fail {a : Act} {e : BusEvent} {sent : Nat} (h : a.failsWith sent e)
    (ha : s.answers = .fail sent :: rest) : perform r a s =
      State.abort { s with answers := rest, trace := s.trace ++ [e] } r (ioFailCode r.op) := by
  obtain ⟨pin, l, rfl, rfl⟩ | ⟨bs, rfl, rfl⟩ | ⟨w, rfl, rfl⟩ := h
  · simp [perform, State.busSet, State.checked, State.nextAnswer_of_cons _ ha, State.afterAnswer_of_cons _ ha, answerOk,
      State.emit]
  · simp [perform, State.busWrite, State.checked, State.nextAnswer_of_cons _ ha, State.afterAnswer_of_cons _ ha,
      answerOk, bytesSent, State.emit]
  · simp [perform, State.busRead, State.polled, State.nextAnswer_of_cons _ ha, State.afterAnswer_of_cons _ ha,
      answerLevel, State.emit]

/-- A failed primitive and the finishing transition after it. -/
theorem blockRun_fail {a : Act} {acts : List Act} {e : BusEvent} {sent : Nat} (hop : s.op = some r)
    (ht : r.todo = a :: acts) (h : a.failsWith sent e) (ha : s.answers = .fail sent :: rest) : blockRun 2 s = { s with
      op := none
      err := ioFailCode r.op
      phase := .failed
      answers := rest
      trace := s.trace ++ [e] } := by
  rw [blockRun_succ, blockStep_act hop ht, perform_fail h ha]
  exact blockStep_abort ..

/-- Plain acts that all answer ok, then a primitive that fails. -/
theorem blockRun_plain_fail {before after : List Act} {a : Act} {e : BusEvent} {sent : Nat} (hop : s.op = some r)
    (ht : r.todo = before ++ a :: after) (hp : ∀ x ∈ before, isPlain x = true) (h : a.failsWith sent e)
    (ha : AnswersOk s (before.flatMap okEvents) (.fail sent :: rest)) : blockRun (before.length + 2) s = { s with
      op := none
      err := ioFailCode r.op
      phase := .failed
      answers := rest
      trace := s.trace ++ before.flatMap okEvents ++ [e] } := by
  rw [blockRun_add, blockRun_plain hp hop ht ha]
  exact blockRun_fail (r := { r with todo := a :: after }) rfl rfl h rfl

/-- A busy poll at or past the timeout, and the finishing transition after it (R516). -/
theorem blockRun_timeout {w : Wait} {acts : List Act} {t : Nat} (hop : s.op = some r) (ht : r.todo = .poll w :: acts)
    (hw : w.timeout = some t) (hpast : t ≤ w.elapsed) (ha : s.answers = .ok s.cfg.busyLevel :: rest) :
    blockRun 2 s = { s with
      op := none
      err := .busyTimeout
      phase := .failed
      answers := rest
      trace := s.trace ++ [.read (some s.cfg.busyLevel)] } := by
  have hpoll : blockStep s = State.abort
      { s with answers := rest, trace := s.trace ++ [.read (some s.cfg.busyLevel)] } { r with todo := acts }
      .busyTimeout := by
    rw [blockStep_act hop ht]
    simp [perform, State.busRead, State.polled, State.nextAnswer_of_cons _ ha, State.afterAnswer_of_cons _ ha, hw, hpast,
      answerLevel, State.emit]
  rw [blockRun_succ, hpoll]
  exact blockStep_abort ..

theorem ioFailCode_eq (i : Instr) : ioFailCode i = if i = .init then .initFailure else .transportIoError := by
  cases i <;> rfl

end

/-- Settles O34: the failed primitive gives the operation up, and the next transition finishes it. -/
theorem failedPrimitiveEndsOperation : Obligations.FailedPrimitiveEndsOperation := by
  intro s r a acts e sent rest hin hop ht ha h
  exact ⟨2, core_run_of_blockRun hin (by rw [blockRun_fail hop ht h ha, ioFailCode_eq])⟩

/-- Settles O35: the poll gives the operation up, and the next transition finishes it. -/
theorem timeoutEndsOperation : Obligations.TimeoutEndsOperation :=
  fun _ _ _ _ _ _ hin hop ht hw hpast ha => ⟨2, core_run_of_blockRun hin (blockRun_timeout hop ht hw hpast ha)⟩

/-! ### Every answer ok -/

/-- An operation that starts with a sequence of plain acts, all answered ok, makes their events and finishes. -/
theorem plain_completes {s : State} {i : Instr} {acts : List Act} {fin : Finish} {rest : List BusAnswer}
    (hin : s.inputs = []) (hexec : exec i s = launch i acts fin s) (hp : ∀ a ∈ acts, isPlain a = true)
    (ha : AnswersOk s (acts.flatMap okEvents) rest) : ∃ t k, exec i s = .next t ∧ Sys2Proof.core.run k t =
      .next (State.finish { s with trace := s.trace ++ acts.flatMap okEvents, answers := rest } fin) :=
  ⟨_, _, hexec.trans (launch_eq ..), run_plain (r := ⟨i, s.regs, acts, fin⟩) hin rfl hp (ha.of_answers_eq rfl)⟩

/-- Settles O24: the sequence RESET starts with is the reset sequence. -/
theorem resetRunsTheSequence : Obligations.ResetRunsTheSequence :=
  fun _ _ hin hown hphase ha =>
    plain_completes (i := .reset) hin (execReset_accepted hown (by simpa using hphase)) plain_resetSeq ha

/-- Settles O25: the sequence SEND_COMMAND starts with is one transfer of OPBYTE. -/
theorem sendCommandFramesOneByte : Obligations.SendCommandFramesOneByte :=
  fun _ _ hin hown hphase ha =>
    plain_completes (i := .sendCommand) hin (execSendCommand_accepted hown (by simpa using hphase))
      (plain_transfer _ _ _) ha

/-- Settles O26: the sequence SEND_DATA starts with sends the payload in the profile that is set. -/
theorem sendDataFramesPayload : Obligations.SendDataFramesPayload := by
  intro s rest hin hown hphase hrange bytes events ha
  have hacts : (sendData s.cfg bytes).flatMap okEvents = events := okEvents_sendData ..
  rw [← hacts] at ha ⊢
  exact plain_completes (i := .sendData) hin
    (execSendData_accepted hown (by simpa using hphase) (validRange_iff.2 hrange)) (plain_sendData _ _) ha

/-! ### What the panel receives -/

theorem wireBytes_transferEvents (p : Params) (dc : Option Level) (l : Level) (bytes : List Byte)
    (events : List BusEvent) : wireBytes dc (transferEvents p l bytes ++ events) =
      bytes.map (fun b => (some l, b)) ++ wireBytes (some l) events := by
  simp [transferEvents, wireBytes]

/-- R513: in both profiles the panel receives the payload, with DC at the data level. -/
theorem wireBytes_dataEvents (p : Params) (dc : Option Level) (bs : List Byte) :
    wireBytes dc (dataEvents p bs) = bs.map (fun b => (some (1 - p.dcCmdLevel), b)) := by
  unfold dataEvents
  split
  · cases bs with
    | nil => rfl
    | cons b bs =>
      rw [batchEvents, ← List.append_nil (transferEvents ..), wireBytes_transferEvents, wireBytes, List.append_nil]
  · induction bs generalizing dc with
    | nil => rfl
    | cons b bs ih => rw [perByteEvents, wireBytes_transferEvents, ih]; rfl

/-- Four answers a byte are enough for either profile. -/
theorem countP_asks_dataEvents (p : Params) (bs : List Byte) : (dataEvents p bs).countP asks ≤ 4 * bs.length := by
  have htransfer (l : Level) (bytes : List Byte) : (transferEvents p l bytes).countP asks = 4 := rfl
  unfold dataEvents
  split
  · cases bs with
    | nil => exact Nat.le_refl 0
    | cons b bs => rw [batchEvents, htransfer, List.length_cons]; omega
  · induction bs with
    | nil => exact Nat.le_refl 0
    | cons b bs ih => rw [perByteEvents, List.countP_append, htransfer, List.length_cons]; omega

theorem answersOk_of_all_ok {s : State} {events : List BusEvent} (hall : ∀ a ∈ s.answers, answerOk a = true)
    (hlen : events.countP asks ≤ s.answers.length) :
    AnswersOk s events (s.answers.drop (events.countP asks)) :=
  ⟨s.answers.take (events.countP asks), (List.take_append_drop ..).symm, List.length_take_of_le hlen,
    fun a ha => hall a (List.mem_of_mem_take ha)⟩

/-- Settles O28: with the answers enough for either profile, SEND_DATA completes in both, and the events of both carry
the payload. -/
theorem profilesSendSameBytes : Obligations.ProfilesSendSameBytes := by
  intro s hin hown hphase hrange hall hlen batch
  let p : Params := { s.cfg with batchWrites := batch }
  let bytes := s.bytesAt s.regs.src.toNat s.regs.len.toNat
  have hcount : (dataEvents p bytes).countP asks ≤ s.answers.length := by
    refine (countP_asks_dataEvents p bytes).trans ?_
    rwa [State.length_bytesAt]
  obtain ⟨t, k, hexec, hrun⟩ := sendDataFramesPayload { s with cfg := p } _ hin hown hphase hrange
    (answersOk_of_all_ok (s := { s with cfg := p }) hall hcount)
  exact ⟨t, k, _, dataEvents p bytes, hexec, hrun, rfl, rfl, rfl, fun dc => wireBytes_dataEvents p dc bytes⟩

theorem sendData_batch {p : Params} {bs : List Byte} (hp : p.batchWrites = true) (hbs : bs ≠ []) :
    sendData p bs = transfer p (dcDataLevel p) bs := by
  rw [sendData, if_pos hp, if_neg hbs]

/-- Settles O58: both sets answer ok, and the write that follows is the last event. -/
theorem failedWriteSendsAnyPrefix : Obligations.FailedWriteSendsAnyPrefix := by
  intro s l m sent rest hin hown hphase hbatch hpos hrange ha
  let bytes := s.bytesAt s.regs.src.toNat s.regs.len.toNat
  have hbytes : bytes ≠ [] := List.ne_nil_of_length_pos (by rwa [State.length_bytesAt])
  have hexec := execSendData_accepted hown (by simpa using hphase) (validRange_iff.2 (.inr hrange))
  rw [sendData_batch hbatch hbytes] at hexec
  have hanswers : AnswersOk s [.set .dc (dcDataLevel s.cfg) true, .set .cs s.cfg.csActiveLevel true]
      (.fail sent :: rest) := ⟨[.ok l, .ok m], ha, rfl, by simp [answerOk]⟩
  have hrun := blockRun_plain_fail
    (s := { s with op := some ⟨.sendData, s.regs, transfer s.cfg (dcDataLevel s.cfg) bytes, { err := .ok }⟩ })
    (before := [.set .dc (dcDataLevel s.cfg), .set .cs s.cfg.csActiveLevel]) rfl rfl (by simp [isPlain])
    (.inr (.inl ⟨bytes, rfl, rfl⟩)) (hanswers.of_answers_eq rfl)
  refine ⟨_, _, _, _, hexec.trans (launch_eq ..), core_run_of_blockRun hin hrun, rfl, rfl, rfl, rfl,
    List.append_assoc .., fun dc => ?_⟩
  simp [wireBytes, okEvents, dcDataLevel, bytes]

/-! ### Waits -/

/-- A wait with the operands of the registers starts to count at 0 (R516, R518). -/
theorem withinTimeout_regs {r : Regs} {n : Nat}
    (h : r.timeoutEn = 1 → ∀ k, k < n → k * r.pollMs.toNat < r.timeoutMs.toNat) : withinTimeout r.wait n := by
  intro k hk t ht
  obtain ⟨hen, rfl⟩ : r.timeoutEn = 1 ∧ r.timeoutMs.toNat = t := by simpa [Regs.wait] using ht
  simpa [Regs.wait] using h hen k hk

/-- Settles O29: the wait is the whole sequence. -/
theorem waitReadyEndsWhenIdle : Obligations.WaitReadyEndsWhenIdle := by
  intro s n idle rest hin hown hphase hidle hwithin ha
  have hrun := run_wait (s := { s with op := some ⟨.waitReady, s.regs, waitReady s.regs, { err := .ok }⟩ })
    (before := []) (after := []) hin rfl rfl (by simp) (by simp) (withinTimeout_regs hwithin) hidle
    (answersOk_nil.2 ha) (answersOk_nil.2 rfl)
  refine ⟨_, _, (execWaitReady_accepted hown (by simpa using hphase)).trans (launch_eq ..), hrun.trans ?_⟩
  simp [State.finish, Regs.wait]

/-- Settles O30: `n` polls before the timeout, and the one that finds it reached. -/
theorem waitReadyTimesOut : Obligations.WaitReadyTimesOut := by
  intro s n rest hin hown hphase hen hbefore hpast ha
  refine ⟨_, 2 * n + 2, (execWaitReady_accepted hown (by simpa using hphase)).trans (launch_eq ..),
    core_run_of_blockRun hin ?_⟩
  have hanswers : s.answers = List.replicate n (.ok s.cfg.busyLevel) ++ .ok s.cfg.busyLevel :: rest := by
    rw [ha, List.replicate_succ', List.append_assoc]
    rfl
  have htimeout : s.regs.wait.timeout = some s.regs.timeoutMs.toNat := if_pos hen
  rw [blockRun_add, blockRun_busy (w := s.regs.wait) rfl rfl (withinTimeout_regs fun _ => hbefore) (by exact hanswers)]
  exact blockRun_timeout rfl rfl htimeout (by simpa [Regs.wait] using hpast) rfl

/-- A wait without a timeout, or with `poll` 0 and its timeout not reached, never comes to its timeout (R519). -/
theorem withinTimeout_of_endless {w : Wait}
    (h : w.timeout = none ∨ (w.poll = 0 ∧ ∃ t, w.timeout = some t ∧ w.elapsed < t)) (n : Nat) : withinTimeout w n := by
  intro k _ t ht
  obtain hnone | ⟨hpoll, t', ht', hlt⟩ := h
  · simp [hnone] at ht
  · obtain rfl : t' = t := Option.some.inj (ht'.symm.trans ht)
    simpa [hpoll] using hlt

/-- A poll leaves the operation running, whatever it reads, with ERR and PHASE as they were. -/
theorem blockStep_poll {s : State} {r : Running} {w : Wait} {acts : List Act} (hop : s.op = some r)
    (ht : r.todo = .poll w :: acts) :
    (blockStep s).running = true ∧ (blockStep s).err = s.err ∧ (blockStep s).phase = s.phase := by
  rw [blockStep_act hop ht]
  obtain ⟨r', hr', -⟩ := perform_op { r with todo := acts } (.poll w) s
  exact ⟨running_of_op hr', perform_err .., perform_phase ..⟩

/-- Settles O31: after an even number of transitions the operation is at a poll again, and an odd one is at most one
poll more. -/
theorem waitMayNeverEnd : Obligations.WaitMayNeverEnd := by
  intro s r w acts n rest hin hop ht hendless ha j hj
  refine ⟨_, core_run_block hin j, ?_⟩
  have hrounds (m : Nat) (hm : m ≤ n) : ∃ r' w', (blockRun (2 * m) s).op = some r' ∧ r'.todo = .poll w' :: acts ∧
      (blockRun (2 * m) s).err = s.err ∧ (blockRun (2 * m) s).phase = s.phase := by
    obtain ⟨d, rfl⟩ := Nat.exists_eq_add_of_le hm
    rw [blockRun_busy hop ht (withinTimeout_of_endless hendless m)
      (by rw [ha, List.replicate_add, List.append_assoc])]
    exact ⟨_, _, rfl, rfl, rfl, rfl⟩
  obtain ⟨r', w', hop', ht', herr, hphase⟩ := hrounds (j / 2) (by omega)
  obtain hj | hj : j = 2 * (j / 2) ∨ j = 2 * (j / 2) + 1 := by omega
  · rw [hj]
    exact ⟨running_of_op hop', herr, hphase⟩
  · obtain ⟨hrun, herr', hphase'⟩ := blockStep_poll hop' ht'
    rw [hj, blockRun_add]
    exact ⟨hrun, herr'.trans herr, hphase'.trans hphase⟩

end Sys2Proof.Machine
end

section
/-! PanelSession: how OPEN, INIT, CLEAR, DISPLAY, SLEEP and CLOSE start, run and end (R550 to R575), and that a session
in Closed or Failed is left by a fresh OPEN only (R582). -/

namespace Sys2Proof.Machine

/-! ### OPEN and DISPLAY's checks -/

section
variable {s : State}

theorem execOpen_accepted (hown : s.own = false) :
    execOpen s = .next { s with err := .ok, phase := .unopened, own := true, op := none } :=
  if_neg (Bool.eq_false_iff.1 hown)

theorem execOpen_rejected (hown : s.own = true) : execOpen s = raise .busBusy s :=
  if_pos hown

end

/-- Settles O36: one test of OWN, and the end is in the same transition. -/
theorem openTakesTheBusOnce : Obligations.OpenTakesTheBusOnce := by
  refine fun s hop => ⟨fun hown => (execOpen_accepted hown).trans ?_, fun hown => ?_⟩
  · rw [← hop]
  · exact (execOpen_rejected hown).trans (raise_of_idle hop)

/-- `size` of R551, written out. -/
theorem planeSize_eq (p : Params) : planeSize p = (p.panelW.val * p.panelH.val + 7) / 8 := rfl

/-- Two planes of `size` bytes lie inside memory (R202, R565). -/
theorem planeRanges_valid_iff {m size : Nat} {r : Regs} (hlen : r.len.toNat = size) (hlen2 : r.len2.toNat = size) :
    (validRange m r.srcRange = true ∧ validRange m r.src2Range = true) ↔
      (size = 0 ∨ r.src.toNat + size ≤ m) ∧ (size = 0 ∨ r.src2.toNat + size ≤ m) := by
  rw [validRange_iff, validRange_iff]
  simp only [Regs.srcRange, Regs.src2Range, hlen, hlen2]

/-- Settles O41: the lengths are checked first, then both ranges. -/
theorem displayErrors : Obligations.DisplayErrors := by
  intro s hop hown hphase size
  have hsize : planeSize s.cfg = size := planeSize_eq _
  refine ⟨fun hlen => ?_, fun hlen hlen2 hpos hover => ?_⟩
  · exact (execDisplay_badLength hown hphase (by rw [hsize]; omega)).trans (raise_of_idle hop)
  · have hlens := And.intro (hlen.trans hsize.symm) (hlen2.trans hsize.symm)
    refine (execDisplay_badRange hown hphase hlens ?_).trans (raise_of_idle hop)
    rw [planeRanges_valid_iff hlen hlen2]
    omega

/-! ### Runs -/

/-- Runs in a row: `m` transitions of the block, then the machine's run from there. -/
theorem core_run_after {s u v : State} {m k : Nat} (hs : s.inputs = []) (hu : u.inputs = []) (hm : blockRun m s = u)
    (hk : Sys2Proof.core.run k u = .next v) : Sys2Proof.core.run (m + k) s = .next v := by
  rw [core_run_block hs, blockRun_add, hm, ← core_run_block hu, hk]

/-- The machine's run of an operation whose sequence writes no PHASE keeps PHASE while the operation runs. -/
theorem core_run_keeps_phase {s : State} {r : Running} (hin : s.inputs = []) (hop : s.op = some r)
    (hacts : ∀ ph, .enter ph ∉ r.todo) (j : Nat) (v : State) (hv : Sys2Proof.core.run j s = .next v)
    (hrun : v.running = true) : v.phase = s.phase := by
  obtain rfl : _ = v := Host.Outcome.next.inj ((core_run_block hin j).symm.trans hv)
  exact blockRun_keeps_phase hop hacts j hrun

/-- Plain acts write no PHASE. -/
theorem enter_not_mem_of_plain {acts : List Act} (hp : ∀ a ∈ acts, isPlain a = true) (ph : Phase) : .enter ph ∉ acts :=
  fun h => nomatch hp _ h

theorem enter_not_mem_waitReady (r : Regs) (ph : Phase) : .enter ph ∉ waitReady r := by
  simp [waitReady]

/-! ### INIT -/

/-- The frames of INIT, then its wait (R555, R556). -/
def powerUp (p : Params) (r : Regs) : List Act :=
  (initFrames p).flatMap (frame p) ++ waitReady r

theorem enter_not_mem_powerUp (p : Params) (r : Regs) (ph : Phase) : .enter ph ∉ powerUp p r := by
  rw [powerUp, List.mem_append, not_or]
  exact ⟨enter_not_mem_of_plain (plain_frames _ _) ph, enter_not_mem_waitReady r ph⟩

/-- INIT's events before its wait are the panel reset, then those of its frames. -/
theorem initEvents_eq (p : Params) :
    initEvents p = resetEvents ++ ((initFrames p).flatMap (frame p)).flatMap okEvents := by
  rw [okEvents_frames]
  simp [initFrames, initEvents]

/-- INIT accepted: the running operation, before its first transition. -/
def State.initStarted (s : State) : State :=
  { s with op := some ⟨.init, s.regs, resetSeq ++ .enter .reset :: powerUp s.cfg s.regs,
      { err := .ok, phase := some .initialized }⟩ }

/-- INIT after its reset events and its PHASE write (R552). -/
def State.initReset (s : State) (rest : List BusAnswer) : State :=
  { s with
    op := some ⟨.init, s.regs, powerUp s.cfg s.regs, { err := .ok, phase := some .initialized }⟩
    phase := .reset
    trace := s.trace ++ resetEvents
    answers := rest }

section
variable {s : State} {rest : List BusAnswer}

theorem exec_init_starts (hown : s.own = true) (hphase : s.phase = .unopened ∨ s.phase = .reset) :
    exec .init s = .next s.initStarted := by
  refine (execInit_accepted hown (by simpa using hphase)).trans ?_
  simp [State.initStarted, powerUp]

/-- Six transitions make the reset events, and the seventh writes PHASE. -/
theorem blockRun_initStarted (ha : AnswersOk s resetEvents rest) : blockRun 7 s.initStarted = s.initReset rest := by
  rw [show 7 = resetSeq.length + 1 from rfl, blockRun_add,
    blockRun_plain (s := s.initStarted) plain_resetSeq rfl rfl (ha.of_answers_eq rfl), blockRun_succ,
    blockRun_zero, blockStep_act rfl rfl]
  rfl

end

/-- Settles O38: what is left after the seventh transition writes no PHASE. -/
theorem initEntersReset : Obligations.InitEntersReset := by
  intro s rest hin hown hphase ha
  exact ⟨s.initStarted, s.initReset rest, exec_init_starts hown hphase, rfl,
    core_run_of_blockRun hin (blockRun_initStarted ha), rfl, rfl, rfl,
    core_run_keeps_phase (s := s.initReset rest) hin rfl (enter_not_mem_powerUp s.cfg s.regs)⟩

/-- Settles O37: the reset and the PHASE write, then three frames and one wait. -/
theorem initCompletes : Obligations.InitCompletes := by
  intro s n idle rest hin hown hphase hidle hwithin ha
  rw [initEvents_eq] at ha ⊢
  obtain ⟨mid, hreset, hframes⟩ := answersOk_append ha
  have hrun := run_wait (s := s.initReset mid) (after := []) hin rfl rfl (plain_frames _ _) (by simp) hwithin hidle
    (hframes _ rfl) (answersOk_nil.2 rfl)
  refine ⟨s.initStarted, _, exec_init_starts hown hphase,
    (core_run_after (s := s.initStarted) (u := s.initReset mid) hin hin (blockRun_initStarted hreset) hrun).trans ?_⟩
  simp [State.finish, State.initReset, Regs.wait]

/-! ### Operations with a transient phase -/

/-- Operation `i`, started in `s`, holds the phase `ph` in every state in which it runs, and comes to `u` (R552). -/
def CompletesIn (ph : Phase) (i : Instr) (s u : State) : Prop :=
  ∃ t k, exec i s = .next t ∧ t.phase = ph ∧ t.running = true ∧
    (∀ j v, Sys2Proof.core.run j t = .next v → v.running = true → v.phase = ph) ∧ Sys2Proof.core.run k t = .next u

/-- A sequence of one wait between plain acts, every answer ok and the line idle after `n` busy polls. -/
theorem wait_completesIn {s : State} {i : Instr} {ph done : Phase} {before after : List Act} {n : Nat} {idle : Level}
    {mid rest : List BusAnswer} (hin : s.inputs = [])
    (hexec : exec i s = launch i (before ++ waitReady s.regs ++ after) { err := .ok, phase := some done }
      { s with phase := ph })
    (hp : ∀ a ∈ before, isPlain a = true) (hq : ∀ a ∈ after, isPlain a = true) (hidle : idle ≠ s.cfg.busyLevel)
    (hwithin : withinTimeout s.regs.wait n) (ha : AnswersOk s (before.flatMap okEvents) (IdleAfter s.cfg n idle mid))
    (hb : AnswersOk { s with answers := mid } (after.flatMap okEvents) rest) :
    CompletesIn ph i s { s with
      op := none
      err := .ok
      phase := done
      answers := rest
      trace := s.trace ++ before.flatMap okEvents ++ busyRounds s.cfg.busyLevel s.regs.pollMs.toNat n ++
        [.read (some idle)] ++ after.flatMap okEvents } := by
  have hquiet (ph' : Phase) : .enter ph' ∉ before ++ waitReady s.regs ++ after := by
    rw [List.mem_append, List.mem_append, not_or, not_or]
    exact ⟨⟨enter_not_mem_of_plain hp ph', enter_not_mem_waitReady _ ph'⟩, enter_not_mem_of_plain hq ph'⟩
  have hsplit : before ++ waitReady s.regs ++ after = before ++ .poll s.regs.wait :: after := by simp [waitReady]
  have hrun := run_wait
    (s := { s with
      phase := ph
      op := some ⟨i, s.regs, before ++ waitReady s.regs ++ after, { err := .ok, phase := some done }⟩ })
    hin rfl hsplit hp hq hwithin hidle (ha.of_answers_eq rfl) (hb.of_answers_eq rfl)
  exact ⟨_, _, hexec.trans (launch_eq ..), rfl, rfl, core_run_keeps_phase hin rfl hquiet, hrun⟩

theorem okEvents_refreshFrames (p : Params) (primary secondary : List Byte) :
    ((refreshFrames p primary secondary).flatMap (frame p)).flatMap okEvents = refreshEvents p primary secondary := by
  rw [okEvents_frames]
  simp [refreshFrames, refreshEvents]

/-- CLEAR and DISPLAY: a refresh with these planes that ends in the phase it started from. -/
theorem refresh_completesIn {s : State} {i : Instr} {ph : Phase} {primary secondary : List Byte} {n : Nat}
    {idle : Level} {rest : List BusAnswer} (hin : s.inputs = [])
    (hexec : exec i s = launch i (refresh s.cfg s.regs primary secondary) { err := .ok, phase := some s.phase }
      { s with phase := ph })
    (hidle : idle ≠ s.cfg.busyLevel) (hwithin : withinTimeout s.regs.wait n)
    (ha : AnswersOk s (refreshEvents s.cfg primary secondary) (IdleAfter s.cfg n idle rest)) :
    CompletesIn ph i s { s with
      op := none
      err := .ok
      answers := rest
      trace := s.trace ++ refreshEvents s.cfg primary secondary ++
        busyRounds s.cfg.busyLevel s.regs.pollMs.toNat n ++ [.read (some idle)] } := by
  rw [← okEvents_refreshFrames] at ha
  have h := wait_completesIn (after := []) hin (by rw [List.append_nil]; exact hexec) (plain_frames _ _) (by simp)
    hidle hwithin ha (answersOk_nil.2 rfl)
  rwa [okEvents_refreshFrames, List.flatMap_nil, List.append_nil] at h

/-- Settles O39: the refresh of a plane of 0xFF, twice. -/
theorem clearCompletes : Obligations.ClearCompletes := by
  intro s n idle rest hin hown hphase hidle hwithin plane ha
  refine refresh_completesIn hin ?_ hidle hwithin ha
  rw [hphase]
  exact execClear_accepted hown hphase

/-- Settles O40: the refresh of the two planes read at the start. -/
theorem displayCompletes : Obligations.DisplayCompletes := by
  intro s n idle rest hin hown hphase hidle hwithin size hlen hlen2 hrange hrange2 events ha
  refine refresh_completesIn hin ?_ hidle hwithin ha
  have hlens := And.intro (hlen.trans (planeSize_eq _).symm) (hlen2.trans (planeSize_eq _).symm)
  have hexec := execDisplay_accepted hown hphase hlens ((planeRanges_valid_iff hlen hlen2).2 ⟨hrange, hrange2⟩)
  rw [hlen, hlen2, ← hphase] at hexec
  exact hexec

/-- Settles O42: the wait stands between the two frames. -/
theorem sleepCompletes : Obligations.SleepCompletes := by
  intro s n idle mid rest hin hown hphase hidle hwithin off deep ha hb
  have h := wait_completesIn (i := .sleep) hin (execSleep_accepted hown hphase) (plain_frame _ _) (plain_frame _ _)
    hidle hwithin (by rw [okEvents_frame]; exact ha) (by rw [okEvents_frame]; exact hb)
  rwa [okEvents_frame, okEvents_frame] at h

/-! ### CLOSE -/

/-- CLOSE's finishing transition (R575). -/
def closeEnd : Finish where
  err := .ok
  phase := some .closed
  own := some false

section
variable {s : State}

theorem execClose_unowned (hown : s.own = false) : execClose s = launch .close [] closeEnd s := by
  simp [execClose, hown, closeEnd]

theorem execClose_owned (hown : s.own = true) :
    execClose s = launch .close (s.cfg.safeLevels.map fun pl => .drive pl.1 pl.2) closeEnd s := by
  simp [execClose, hown, closeEnd]

end

/-- Settles O43: the drives ignore their answers, and without the session there is none. -/
theorem closeAlwaysCompletes : Obligations.CloseAlwaysCompletes := by
  refine fun s hin => ⟨fun hown => ?_, fun oks rest hown ha hlen => ?_⟩
  · refine ⟨_, 1, (execClose_unowned hown).trans (launch_eq ..), core_run_of_blockRun hin ?_⟩
    rw [blockRun_succ, blockRun_zero, blockStep_finish rfl rfl]
    simp [State.finish, closeEnd, hown]
  · refine ⟨_, s.cfg.safeLevels.length + 1, (execClose_owned hown).trans (launch_eq ..), core_run_of_blockRun hin ?_⟩
    rw [blockRun_add, blockRun_drives rfl rfl hlen (by exact ha), blockRun_succ, blockRun_zero,
      blockStep_finish rfl rfl]
    rfl

/-! ### Closed and Failed -/

/-- The phases that no session goes on from (R582). -/
def Phase.ended (ph : Phase) : Prop :=
  ph = .closed ∨ ph = .failed

section
variable {s t : State} {r : Running}

/-- In Closed or Failed only ENCODE, ASSEMBLE and CLOSE run (R520). -/
theorem op_of_ended {i : Instr} {ph : Phase} (hph : ph.ended) (h : ph ∈ runPhases i) :
    i = .encode ∨ i = .assemble ∨ i = .close := by
  obtain rfl | rfl := hph <;> cases i <;> simp [runPhases] at h ⊢

/-- An operation that runs in Closed or Failed does not use the panel, and its end writes no phase but Closed. -/
theorem OpLegal.of_ended (h : OpLegal s r) (hs : s.phase.ended) :
    usesPanel r.op = false ∧ (donePhase r.op = none ∨ donePhase r.op = some .closed) := by
  obtain hop | hop | hop := op_of_ended hs h.phaseFits <;> simp [hop, usesPanel, donePhase]

theorem ended_finish (hs : s.phase.ended) (h : OpLegal s r) : (s.finish r.fin).phase.ended := by
  obtain ⟨hu, hdone⟩ := h.of_ended hs
  rw [State.finish_phase]
  obtain ⟨-, hphase⟩ | ⟨hu', -, -⟩ := endLegal_cases h.endFits
  · rw [hphase]
    obtain hdone | hdone := hdone <;> rw [hdone]
    · exact hs
    · exact .inl rfl
  · rw [hu] at hu'
    cases hu'

/-- Only INIT writes PHASE before its end, and it uses the panel. -/
theorem perform_phase_of_not_usesPanel {r' : Running} {a : Act} (ha : actLegal r a = true)
    (hu : usesPanel r.op = false) : (perform r' a s).phase = s.phase := by
  rw [perform_phase]
  cases a with
  | enter ph =>
    simp only [actLegal, Bool.and_eq_true, decide_eq_true_eq] at ha
    simp [ha.1, usesPanel] at hu
  | set _ _ | drive _ _ | write _ | sleep _ | poll _ | pause _ | store _ _ => rfl

theorem ended_blockStep (hs : Legal s) (hend : s.phase.ended) : (blockStep s).phase.ended := by
  obtain ⟨-, h⟩ | ⟨r, hop, -, h⟩ | ⟨r, a, rest, hop, ht, h⟩ := blockStep_cases s <;> rw [h]
  · exact hend
  · exact ended_finish hend (hs.opLegal r hop)
  · have hr := hs.opLegal r hop
    rw [perform_phase_of_not_usesPanel (hr.actsFit a (by simp [ht])) (hr.of_ended hend).1]
    exact hend

/-- An operation started in Closed or Failed leaves PHASE, or it is OPEN, which found the bus free. -/
theorem exec_of_ended {i : Instr} (hop : s.op = none) (hend : s.phase.ended) (h : exec i s = .next t) :
    t.phase.ended ∨ (s.own = false ∧ t.own = true ∧ t.phase = .unopened) := by
  obtain ⟨e, he⟩ | ⟨-, hown, he⟩ | ⟨acts, fin, he⟩ | ⟨acts, fin, ph, htransient, -⟩ := exec_cases i s
  case inr.inr.inr =>
    have hi : i = .clear ∨ i = .display ∨ i = .sleep := htransient.imp And.left (Or.imp And.left And.left)
    have hphase : ¬ (s.own = true ∧ s.phase = .initialized) := by
      rintro ⟨-, hp⟩
      obtain hc | hf := hend
      · cases hp.symm.trans hc
      · cases hp.symm.trans hf
    obtain rfl : _ = t :=
      Host.Outcome.next.inj ((wrongPhaseIsInvalidState s i hop (.inr (.inr (.inr ⟨hi, hphase⟩)))).symm.trans h)
    exact .inl hend
  all_goals obtain rfl : _ = t := Host.Outcome.next.inj (he.symm.trans h)
  · exact .inl hend
  · exact .inr ⟨hown, rfl, rfl⟩
  · exact .inl hend

theorem hostAccess_of_ended {x : Access} (hend : s.phase.ended) (h : hostAccess x s = .next t) :
    t.phase.ended ∨ (s.own = false ∧ t.own = true ∧ t.phase = .unopened) := by
  obtain ⟨y, rfl⟩ | ⟨q, v, loc, -, -, -, -, rfl⟩ | ⟨v, loc, -, -, hrun, hcmd⟩ | ⟨a, b, -, -, -, rfl⟩ :=
    hostAccess_cases h
  · exact .inl hend
  · exact .inl hend
  · obtain ⟨i, -, hexec⟩ | rfl := writeCmd_cases hcmd
    · exact exec_of_ended (op_eq_none_of_not_running hrun) hend hexec
    · exact .inl hend
  · exact .inl hend

end

/-- Settles O51, by the kinds of step: the block keeps Closed and Failed apart from CLOSE's end, the host leaves them by
OPEN only, and a block reset enters Closed. -/
theorem closedOrFailedNeverInitialized : Obligations.ClosedOrFailedNeverInitialized := by
  intro s t hs h hend
  rw [← or_assoc]
  obtain ⟨-, rfl⟩ | ⟨rest, -, rfl⟩ | ⟨x, rest, -, hx⟩ | ⟨rest, -, rfl⟩ := step_cases h
  · exact .inl (ended_blockStep hs hend)
  · exact .inl (ended_blockStep (hs.withInputs rest) hend)
  · exact hostAccess_of_ended (s := { s with inputs := rest }) hend hx
  · exact .inl (.inl rfl)

end Sys2Proof.Machine
end

section
/-! How a failed session is left (R621): by the end of CLOSE, or by a block reset. -/

namespace Sys2Proof.Machine
variable {s t : State} {r : Running}

/-- A host access changes PHASE by OPEN, with the bus free, or by starting an operation that has a transient phase. -/
theorem hostAccess_phase {x : Access} (h : hostAccess x s = .next t) (hne : t.phase ≠ s.phase) :
    (s.own = false ∧ t.phase = .unopened) ∨ t.phase.transient = true := by
  obtain ⟨y, rfl⟩ | ⟨q, v, loc, -, -, -, -, rfl⟩ | ⟨v, loc, -, -, -, hcmd⟩ | ⟨a, b, -, -, -, rfl⟩ := hostAccess_cases h
  · exact absurd rfl hne
  · exact absurd rfl hne
  · obtain ⟨i, -, hexec⟩ | rfl := writeCmd_cases hcmd
    · obtain ⟨e, he⟩ | ⟨-, hown, he⟩ | ⟨acts, fin, he⟩ | ⟨acts, fin, ph, hph, he⟩ := exec_cases i s <;>
        obtain rfl : _ = t := Host.Outcome.next.inj (he.symm.trans hexec)
      · exact absurd rfl hne
      · exact .inl ⟨hown, rfl⟩
      · exact absurd rfl hne
      · obtain ⟨-, rfl⟩ | ⟨-, rfl⟩ | ⟨-, rfl⟩ := hph <;> exact .inr rfl
    · exact absurd rfl hne
  · exact absurd rfl hne

/-- Off the panel, only CLOSE writes PHASE at its end: the other operations there can only end well, and write none. -/
theorem OpLegal.endPhase_of_not_usesPanel (h : OpLegal s r) (hu : usesPanel r.op = false) (hc : r.op ≠ .close) :
    r.fin.phase = none := by
  obtain ⟨-, hphase⟩ | ⟨hu', -, -⟩ := endLegal_cases h.endFits
  · exact hphase.trans (donePhase_of_not_usesPanel hu hc)
  · cases hu.symm.trans hu'

/-- In Closed or Failed the block changes PHASE only in CLOSE's finishing transition (R575). -/
theorem blockStep_phase_of_ended (hs : Legal s) (hend : s.phase.ended) (hne : (blockStep s).phase ≠ s.phase) :
    ∃ r, s.op = some r ∧ r.op = .close ∧ r.todo = [] := by
  obtain ⟨-, h⟩ | ⟨r, hop, ht, h⟩ | ⟨r, a, rest, hop, ht, h⟩ := blockStep_cases s <;> rw [h] at hne
  · exact absurd rfl hne
  · have hr := hs.opLegal r hop
    refine ⟨r, hop, ?_, ht⟩
    by_contra hc
    exact hne (by rw [State.finish_phase, hr.endPhase_of_not_usesPanel (hr.of_ended hend).1 hc, Option.getD_none])
  · have hr := hs.opLegal r hop
    have ha : actLegal r a = true := hr.actsFit a (by simp [ht])
    exact absurd (perform_phase_of_not_usesPanel ha (hr.of_ended hend).1) hne

/-- A failed session still holds the bus (R122). -/
theorem Legal.own_of_failed (hs : Legal s) (hf : s.phase = .failed) : s.own = true := by
  cases hown : s.own with
  | true => rfl
  | false => cases hf.symm.trans (hs.ownership hown)

/-- A step out of Failed enters Closed: a fresh session would need the bus free (R582). -/
theorem closed_of_step_failed (hs : Legal s) (h : step s = .next t) (hf : s.phase = .failed) (hne : t.phase ≠ .failed) :
    t.phase = .closed := by
  obtain hc | hf' | ⟨hown, -, -⟩ := closedOrFailedNeverInitialized s t hs h (.inr hf)
  · exact hc
  · exact absurd hf' hne
  · cases (hs.own_of_failed hf).symm.trans hown

/-- Settles O50, by the kinds of step: the block leaves Failed at CLOSE's end only, no host access enters Closed, and what
remains is a block reset. -/
theorem failedUntilClose : Obligations.FailedUntilClose := by
  intro s t hs h hf hne
  have hclosed : t.phase = .closed := closed_of_step_failed hs h hf hne
  refine ⟨hclosed, ?_⟩
  rw [← hf] at hne
  obtain ⟨-, rfl⟩ | ⟨rest, -, rfl⟩ | ⟨x, rest, -, hx⟩ | ⟨rest, hin, rfl⟩ := step_cases h
  · exact .inl (blockStep_phase_of_ended hs (.inr hf) hne)
  · exact .inl (blockStep_phase_of_ended (s := { s with inputs := rest }) (hs.withInputs rest) (.inr hf) hne)
  · obtain ⟨-, hopened⟩ | htransient := hostAccess_phase hx hne
    · cases hclosed.symm.trans hopened
    · rw [hclosed] at htransient
      cases htransient
  · exact .inr ⟨rest, hin⟩

end Sys2Proof.Machine
end

section
/-! Block reset, and the accesses a running operation closes to the host (spec/70_reset_and_hazards.md). -/

namespace Sys2Proof.Machine

/-! ### The buffers of a running operation -/

section
variable {s : State} {r : Running} {a : Word} {b : Byte} {k : Nat} {rest : List Input}

/-- The bytes the host may not read are those the running operation's destination holds (R231). -/
theorem readLocked_iff (hop : s.op = some r) : s.readLocked k = true ↔
    ∃ q ∈ destRanges r.op r.latch, q.1 ≤ k ∧ k < q.1 + q.2 := by
  simp only [State.readLocked, hop, List.any_eq_true, inRange_iff]

/-- An address below or past each range lies in none. -/
theorem not_mem_ranges {ranges : List (Nat × Nat)} (h : ∀ q ∈ ranges, k < q.1 ∨ q.1 + q.2 ≤ k) :
    ¬ ∃ q ∈ ranges, q.1 ≤ k ∧ k < q.1 + q.2 := by
  rintro ⟨q, hq, hlo, hhi⟩
  exact (h q hq).elim (Nat.not_lt.2 hlo) (Nat.not_le.2 hhi)

theorem readLocked_eq_false (hop : s.op = some r) (h : ∀ q ∈ destRanges r.op r.latch, k < q.1 ∨ q.1 + q.2 ≤ k) :
    s.readLocked k = false :=
  Bool.eq_false_iff.2 (mt (readLocked_iff hop).1 (not_mem_ranges h))

theorem writeLocked_eq_false (hop : s.op = some r)
    (h : ∀ q ∈ sourceRanges r.op r.latch ++ destRanges r.op r.latch, k < q.1 ∨ q.1 + q.2 ≤ k) :
    s.writeLocked k = false :=
  Bool.eq_false_iff.2 (mt (writeLocked_iff hop).1 (not_mem_ranges h))

theorem step_memRead_locked (hin : s.inputs = .host (.memRead a) :: rest) (ha : a.toNat < s.cfg.memSize.val)
    (hl : s.readLocked a.toNat = true) : step s = .refused (.bufferInUse a) := by
  rw [step_of_cons hin]
  exact (if_neg (Nat.not_le.2 ha)).trans (if_pos hl)

theorem step_memWrite_locked (hin : s.inputs = .host (.memWrite a b) :: rest) (ha : a.toNat < s.cfg.memSize.val)
    (hl : s.writeLocked a.toNat = true) : step s = .refused (.bufferInUse a) := by
  rw [step_of_cons hin]
  exact (if_neg (Nat.not_le.2 ha)).trans (if_pos hl)

/-- Below MEM_SIZE a read is refused as in use just when the byte is locked: an unlocked one is answered. -/
theorem step_memRead_refused_iff (hin : s.inputs = .host (.memRead a) :: rest) (ha : a.toNat < s.cfg.memSize.val) :
    step s = .refused (.bufferInUse a) ↔ s.readLocked a.toNat = true := by
  refine ⟨fun h => ?_, step_memRead_locked hin ha⟩
  by_contra hl
  cases h.symm.trans (step_memRead_unlocked hin ha (Bool.eq_false_iff.2 hl))

/-- Below MEM_SIZE a write is refused as in use just when the byte is locked: an unlocked one is stored. -/
theorem step_memWrite_refused_iff (hin : s.inputs = .host (.memWrite a b) :: rest)
    (ha : a.toNat < s.cfg.memSize.val) : step s = .refused (.bufferInUse a) ↔ s.writeLocked a.toNat = true := by
  refine ⟨fun h => ?_, step_memWrite_locked hin ha⟩
  by_contra hl
  cases h.symm.trans (step_memWrite_unlocked hin ha (Bool.eq_false_iff.2 hl))

end

/-- Settles O13: an access is refused just when its byte is locked, and the locked bytes are those of the ranges. -/
theorem buffersInUseRefused : Obligations.BuffersInUseRefused := by
  intro s r a b rest hop ha
  refine ⟨fun hin => ⟨?_, fun hout => ?_⟩, fun hin => ⟨?_, fun hout => ?_⟩⟩
  · exact (step_memWrite_refused_iff hin ha).trans (writeLocked_iff hop)
  · exact step_memWrite_unlocked hin ha (writeLocked_eq_false hop hout)
  · exact (step_memRead_refused_iff hin ha).trans (readLocked_iff hop)
  · exact step_memRead_unlocked hin ha (readLocked_eq_false hop hout)

/-! ### Register writes while RUN = 1 -/

/-- Settles O12: the access names the register, and its write tests RUN first. -/
theorem registerWriteWhileRunningRefused : Obligations.RegisterWriteWhileRunningRefused := by
  intro s r loc v rest hin hl hrun
  rw [step_regWrite hin hl]
  exact writeReg_running (by exact hrun) r v

/-! ### Block reset -/

/-- STATUS after a block reset: Closed, every other field 0 (R140). -/
theorem blockReset_status (s : State) : (blockReset s).status = 0x600#32 :=
  BitVec.eq_of_toNat_eq (State.toNat_status (blockReset s))

/-- Settles O17: the step is `blockReset`, whose bytes are the abandoned operation's or new draws. -/
theorem blockResetFromAnyState : Obligations.BlockResetFromAnyState := by
  intro s rest hin
  refine ⟨_, step_blockReset hin, rfl, rfl, rfl, rfl, rfl, rfl, rfl, fun a => ?_, fun a => ?_, fun r => ?_⟩
  · exact (blockReset_byteAt { s with inputs := rest } a).1
  · exact (blockReset_byteAt { s with inputs := rest } a).2
  · cases r
    case status => exact blockReset_status _
    all_goals rfl

end Sys2Proof.Machine
end
